-- ==== Sys2Proof/Word.lean ====
section
/-!
DEFINITION. The words of the block: bytes, 32-bit values, the two command ports, the storage spaces, and the index
arithmetic of `00_scope.md` R12. Nothing here depends on the state.
-/

namespace Sys2Proof

/-- A byte: 8 bits, unsigned (R9, R11). -/
abbrev Byte := BitVec 8

/-- A 32-bit unsigned value: time, the overflow counter, a CSR as it reads (R9). -/
abbrev Word32 := BitVec 32

/-- The two command ports (R90): `I` carries the interrupt context, `M` the main context (R250). -/
inductive Port
  | I
  | M
  deriving DecidableEq, Repr

/-- The three storage spaces of R60 that hold bytes: RX ring storage, line buffer, TX queue storage. -/
inductive Space
  | rxs
  | lfb
  | txs
  deriving DecidableEq, Repr

/-- `inc_X(i)`: `(i + 1) mod X`, computed as R12 computes it. -/
def incIdx (X i : Nat) : Nat := if i = X - 1 then 0 else i + 1

/-- `add_X(i, k)`: `(i + k) mod X` (R12). -/
def addIdx (X i k : Nat) : Nat := (i + k) % X

/-- `dist_X(w, r)`: `(w - r) mod X`, computed as R12 computes it; the occupancy of a ring (R24). -/
def distIdx (X w r : Nat) : Nat := if r ≤ w then w - r else w + X - r

end Sys2Proof
end

