-- ==== Sys2Proof/Syntax.lean ====
section
/-!
DEFINITION. The operations of the block as syntax: one constructor per row of `spec/opcode_table.json` (`30_encoding.md`
R93, R108), with the operands of R94. The spec calls them operations; they are the block's instructions (R14).
-/

namespace Sys2Proof

/-- The fifteen operations of R93. -/
inductive Instr
  /-- `PUSH b` (R121), format B, port I -/
  | push (b : Byte)
  /-- `POP` (R123), format Z, port M -/
  | pop
  /-- `ISEMPTY` (R125), format Z, both ports -/
  | isempty
  /-- `ISFULL` (R126), format Z, both ports -/
  | isfull
  /-- `FEED b` (R141), format B, port M -/
  | feed (b : Byte)
  /-- `ENQ bytes` (R161), format S, port M -/
  | enq (bytes : List Byte)
  /-- `TXDONE` (R170), format Z, port I -/
  | txdone
  /-- `RXBYTE b` (R191), format B, port I -/
  | rxbyte (b : Byte)
  /-- `POLL` (R193), format Z, port M -/
  | poll
  /-- `TICK now` (R203), format T, port M -/
  | tick (now : Word32)
  /-- `RXFAULT` (R229), format Z, port I -/
  | rxfault
  /-- `TXFAULT` (R231), format Z, port I -/
  | txfault
  /-- `RDCSR a` (R226), format B, both ports -/
  | rdcsr (a : Byte)
  /-- `RESET` (R220), format Z, port M -/
  | reset
  /-- `START` (R223), format Z, port M -/
  | start
  deriving DecidableEq, Repr

/-- The opcode of an operation, without its operands: a row of the map of R93. -/
inductive Opcode
  | push | pop | isempty | isfull | feed | enq | txdone | rxbyte | poll | tick | rxfault | txfault | rdcsr | reset | start
  deriving DecidableEq, Repr

/-- The four command formats of R91. -/
inductive Format
  /-- one byte: the opcode -/
  | Z
  /-- two bytes: opcode, byte operand -/
  | B
  /-- five bytes: opcode, 32-bit time -/
  | T
  /-- three bytes and the payload: opcode, 16-bit length, payload -/
  | S
  deriving DecidableEq, Repr

/-- What the decoder reads at the head of a port's bytes (R95, R96, R104): a whole command and the bytes after it, an
unassigned opcode (one byte) and the bytes after it, or the beginning of a command that has not ended. -/
inductive Decoded
  | command (i : Instr) (rest : List Byte)
  | illegal (op : Byte) (rest : List Byte)
  | incomplete
  deriving DecidableEq, Repr

end Sys2Proof
end

