-- ==== Sys2Proof/Decode.lean ====
section
/-!
DEFINITION. The decoder of a port's byte stream (`30_encoding.md` R91 to R96, R104), the encoder written from the same
tables, and the port column of R93. The decoder reads only the bytes, never the block's state (R82).
-/

namespace Sys2Proof

/-- Two bytes, least significant first, as an unsigned number (R63, R94). -/
def le16 (b0 b1 : Byte) : Nat := b0.toNat + 256 * b1.toNat

/-- The two bytes of an unsigned 16-bit field, least significant first (R63); a larger number is taken modulo 65536. -/
def le16Bytes (n : Nat) : List Byte := [BitVec.ofNat 8 n, BitVec.ofNat 8 (n / 256)]

/-- Four bytes, least significant first, as a 32-bit value: `{t3, t2, t1, t0}` (R94). -/
def le32 (b0 b1 b2 b3 : Byte) : Word32 := b3 ++ b2 ++ b1 ++ b0

/-- The four bytes of a 32-bit value, least significant first (R63). -/
def le32Bytes (v : Word32) : List Byte :=
  [v.extractLsb' 0 8, v.extractLsb' 8 8, v.extractLsb' 16 8, v.extractLsb' 24 8]

/-- The opcode column of R93. -/
def Opcode.code : Opcode → Byte
  | .push => 0x10#8
  | .pop => 0x11#8
  | .isempty => 0x12#8
  | .isfull => 0x13#8
  | .feed => 0x20#8
  | .enq => 0x30#8
  | .txdone => 0x31#8
  | .rxbyte => 0x40#8
  | .poll => 0x41#8
  | .tick => 0x42#8
  | .rxfault => 0x50#8
  | .txfault => 0x51#8
  | .rdcsr => 0x60#8
  | .reset => 0xF0#8
  | .start => 0xF1#8

/-- The opcode map read the other way: the whole byte is matched (R93); the 241 other values are unassigned (R102). -/
def Opcode.ofByte (b : Byte) : Option Opcode :=
  match b.toNat with
  | 0x10 => some .push
  | 0x11 => some .pop
  | 0x12 => some .isempty
  | 0x13 => some .isfull
  | 0x20 => some .feed
  | 0x30 => some .enq
  | 0x31 => some .txdone
  | 0x40 => some .rxbyte
  | 0x41 => some .poll
  | 0x42 => some .tick
  | 0x50 => some .rxfault
  | 0x51 => some .txfault
  | 0x60 => some .rdcsr
  | 0xF0 => some .reset
  | 0xF1 => some .start
  | _ => none

/-- The format column of R93. -/
def Opcode.format : Opcode → Format
  | .push => .B
  | .pop => .Z
  | .isempty => .Z
  | .isfull => .Z
  | .feed => .B
  | .enq => .S
  | .txdone => .Z
  | .rxbyte => .B
  | .poll => .Z
  | .tick => .T
  | .rxfault => .Z
  | .txfault => .Z
  | .rdcsr => .B
  | .reset => .Z
  | .start => .Z

/-- The port column of R93: may the operation be presented on this port? -/
def Opcode.allowedOn : Opcode → Port → Bool
  | .push, .I => true
  | .push, .M => false
  | .pop, .I => false
  | .pop, .M => true
  | .isempty, _ => true
  | .isfull, _ => true
  | .feed, .I => false
  | .feed, .M => true
  | .enq, .I => false
  | .enq, .M => true
  | .txdone, .I => true
  | .txdone, .M => false
  | .rxbyte, .I => true
  | .rxbyte, .M => false
  | .poll, .I => false
  | .poll, .M => true
  | .tick, .I => false
  | .tick, .M => true
  | .rxfault, .I => true
  | .rxfault, .M => false
  | .txfault, .I => true
  | .txfault, .M => false
  | .rdcsr, _ => true
  | .reset, .I => false
  | .reset, .M => true
  | .start, .I => false
  | .start, .M => true

/-- The opcode of an operation. -/
def Instr.opcode : Instr → Opcode
  | .push _ => .push
  | .pop => .pop
  | .isempty => .isempty
  | .isfull => .isfull
  | .feed _ => .feed
  | .enq _ => .enq
  | .txdone => .txdone
  | .rxbyte _ => .rxbyte
  | .poll => .poll
  | .tick _ => .tick
  | .rxfault => .rxfault
  | .txfault => .txfault
  | .rdcsr _ => .rdcsr
  | .reset => .reset
  | .start => .start

/-- The bytes at the head of a port whose first byte is an assigned opcode `o` and whose further bytes are `bs` (R91,
R92, R95). A command whose bytes have not all been received is `incomplete` (R96). -/
def decodeOperands (o : Opcode) (bs : List Byte) : Decoded :=
  match o, bs with
  | .push, b :: rest => .command (.push b) rest
  | .push, [] => .incomplete
  | .pop, rest => .command .pop rest
  | .isempty, rest => .command .isempty rest
  | .isfull, rest => .command .isfull rest
  | .feed, b :: rest => .command (.feed b) rest
  | .feed, [] => .incomplete
  | .enq, l0 :: l1 :: rest =>
    if le16 l0 l1 ≤ rest.length then .command (.enq (rest.take (le16 l0 l1))) (rest.drop (le16 l0 l1))
    else .incomplete
  | .enq, _ => .incomplete
  | .txdone, rest => .command .txdone rest
  | .rxbyte, b :: rest => .command (.rxbyte b) rest
  | .rxbyte, [] => .incomplete
  | .poll, rest => .command .poll rest
  | .tick, t0 :: t1 :: t2 :: t3 :: rest => .command (.tick (le32 t0 t1 t2 t3)) rest
  | .tick, _ => .incomplete
  | .rxfault, rest => .command .rxfault rest
  | .txfault, rest => .command .txfault rest
  | .rdcsr, a :: rest => .command (.rdcsr a) rest
  | .rdcsr, [] => .incomplete
  | .reset, rest => .command .reset rest
  | .start, rest => .command .start rest

/-- What stands at the head of a port's bytes (R95): an unassigned opcode is a command of one byte (R104). -/
def decode (bs : List Byte) : Decoded :=
  match bs with
  | [] => .incomplete
  | op :: rest =>
    match Opcode.ofByte op with
    | none => .illegal op rest
    | some o => decodeOperands o rest

/-- Have all bytes of a command (an illegal one-byte command too) been received (R96)? -/
def commandReady (bs : List Byte) : Bool :=
  match decode bs with
  | .command _ _ => true
  | .illegal _ _ => true
  | .incomplete => false

/-- The bytes of a well-formed operation, byte 0 first (R91, R92). -/
def encode (i : Instr) : List Byte :=
  i.opcode.code ::
    match i with
    | .push b => [b]
    | .pop => []
    | .isempty => []
    | .isfull => []
    | .feed b => [b]
    | .enq bytes => le16Bytes bytes.length ++ bytes
    | .txdone => []
    | .rxbyte b => [b]
    | .poll => []
    | .tick now => le32Bytes now
    | .rxfault => []
    | .txfault => []
    | .rdcsr a => [a]
    | .reset => []
    | .start => []

/-- The bytes left after dropping the whole commands at the head: the partly received command of a port (R96, R220).
Each command has at least one byte, so `fuel := bs.length` reaches the end. -/
def partialCommand (fuel : Nat) (bs : List Byte) : List Byte :=
  match fuel with
  | 0 => bs
  | fuel + 1 =>
    match decode bs with
    | .command _ rest => partialCommand fuel rest
    | .illegal _ rest => partialCommand fuel rest
    | .incomplete => bs

/-- The whole commands at the head of a port's bytes: the partly received command is discarded (R220). -/
def wholeCommands (bs : List Byte) : List Byte :=
  bs.take (bs.length - (partialCommand bs.length bs).length)

/-- The bytes of a number, least significant first. -/
def numberBytes : Nat → Nat → List Byte
  | 0, _ => []
  | n + 1, w => BitVec.ofNat 8 w :: numberBytes n (w / 256)

/-- How many bytes the command has whose bits are `w`, bit 0 being bit 0 of the opcode byte (R95). -/
def commandLength (w : Nat) : Nat :=
  match Opcode.ofByte (BitVec.ofNat 8 w) with
  | none => 1
  | some o =>
    match o.format with
    | .Z => 1
    | .B => 2
    | .T => 5
    | .S => 3 + w / 256 % 65536

/-- The bytes of the command whose low `nbits` bits are `w` and whose further bits are 0, as a port receives them:
byte 0 holds bits 7..0. -/
def commandBytes (nbits w : Nat) : List Byte :=
  numberBytes (commandLength (w % 2 ^ nbits)) (w % 2 ^ nbits)

/-- The operation the decoder reads from the command whose low `nbits` bits are `w` (the further bits 0); none where it
refuses. -/
def decodeTableWord (nbits w : Nat) : Option Instr :=
  match decode (commandBytes nbits w) with
  | .command i _ => some i
  | .illegal _ _ => none
  | .incomplete => none

end Sys2Proof
end

