-- ==== Sys2Proof/Config.lean ====
section
/-!
DEFINITION. The construction parameters of the block (`00_scope.md` R6 to R8), its constant texts (`43_session.md`
R197), and the one free value of the model: the byte a storage slot holds before anything was written to it
(`10_state.md` R45, `93_implementation_defined.md` U1).
-/

namespace Sys2Proof

/-- `TX_MODE` (R8): the granularity of a transmit unit. -/
inductive TxMode
  | byte
  | bulk
  deriving DecidableEq, Repr

/-- `DISPATCH_MODE` (R8): what a line other than `Heartbeat` is answered with. -/
inductive DispatchMode
  | echo
  | command
  deriving DecidableEq, Repr

/-- The parameters of R7 and R8. They are fixed at construction: no operation writes them (R6), and reset does not
touch them (R281). -/
structure Config where
  /-- byte slots of the RX ring storage -/
  N : Nat
  /-- byte slots of the line buffer -/
  M : Nat
  /-- byte slots of the TX queue storage -/
  T : Nat
  txMode : TxMode
  dispatchMode : DispatchMode
  /-- milliseconds between unsolicited status messages -/
  interval : Word32
  statusMsg : List Byte
  replyHelp : List Byte
  replyLedOn : List Byte
  replyLedOff : List Byte
  replyPing : List Byte
  replyVersion : List Byte
  ledPin : BitVec 16
  deriving DecidableEq, Repr

/-- What a storage slot reads as before anything was written to it: unspecified (R45, "a model must not assume any
value"; U1, "any value"). A free value: no body, so no proof can see it. [DESIGN CHOICE, log entry 2; safe] -/
opaque Config.freeByte : Space → Nat → Byte

/-- `"\r"` (R11). -/
def charCR : Byte := 0x0D#8
/-- `"\n"` (R11). -/
def charLF : Byte := 0x0A#8

/-- `"Heartbeat"`, the comparand (R197). -/
def textHeartbeat : List Byte := [0x48#8, 0x65#8, 0x61#8, 0x72#8, 0x74#8, 0x62#8, 0x65#8, 0x61#8, 0x74#8]
/-- `"Heartbeat\r\n"` (R197). -/
def textHeartbeatReply : List Byte :=
  [0x48#8, 0x65#8, 0x61#8, 0x72#8, 0x74#8, 0x62#8, 0x65#8, 0x61#8, 0x74#8, 0x0D#8, 0x0A#8]
/-- `"Echo Sent\r\n"` (R197). -/
def textEcho : List Byte :=
  [0x45#8, 0x63#8, 0x68#8, 0x6F#8, 0x20#8, 0x53#8, 0x65#8, 0x6E#8, 0x74#8, 0x0D#8, 0x0A#8]
/-- `"Unknown command\r\n"` (R197). -/
def textUnknown : List Byte :=
  [0x55#8, 0x6E#8, 0x6B#8, 0x6E#8, 0x6F#8, 0x77#8, 0x6E#8, 0x20#8, 0x63#8, 0x6F#8, 0x6D#8, 0x6D#8, 0x61#8, 0x6E#8,
   0x64#8, 0x0D#8, 0x0A#8]
/-- `"Error: Msg too long\r\n"`, the diagnostic (R195, R197). -/
def textTooLong : List Byte :=
  [0x45#8, 0x72#8, 0x72#8, 0x6F#8, 0x72#8, 0x3A#8, 0x20#8, 0x4D#8, 0x73#8, 0x67#8, 0x20#8, 0x74#8, 0x6F#8, 0x6F#8,
   0x20#8, 0x6C#8, 0x6F#8, 0x6E#8, 0x67#8, 0x0D#8, 0x0A#8]
/-- `"help"`, the comparand (R197). -/
def textHelp : List Byte := [0x68#8, 0x65#8, 0x6C#8, 0x70#8]
/-- `"led on"`, the comparand (R197). -/
def textLedOn : List Byte := [0x6C#8, 0x65#8, 0x64#8, 0x20#8, 0x6F#8, 0x6E#8]
/-- `"led off"`, the comparand (R197). -/
def textLedOff : List Byte := [0x6C#8, 0x65#8, 0x64#8, 0x20#8, 0x6F#8, 0x66#8, 0x66#8]
/-- `"ping"`, the comparand (R197). -/
def textPing : List Byte := [0x70#8, 0x69#8, 0x6E#8, 0x67#8]
/-- `"version"`, the comparand (R197). -/
def textVersion : List Byte := [0x76#8, 0x65#8, 0x72#8, 0x73#8, 0x69#8, 0x6F#8, 0x6E#8]

/-- The parameters `State.reset` is constructed with: the values of `CFG-D` of `95_test_vectors.md` (R10). The spec
leaves every one of them open (R6); no rule depends on them, and every statement is over all configurations.
[DESIGN CHOICE, log entry 1; unsafe for a claim that rests on these values] -/
def Config.default : Config where
  N := 16
  M := 32
  T := 32
  txMode := .byte
  dispatchMode := .command
  interval := 1000#32
  statusMsg := [0x4F#8, 0x4B#8, 0x0D#8, 0x0A#8]
  replyHelp := [0x48#8, 0x0D#8, 0x0A#8]
  replyLedOn := [0x4F#8, 0x4B#8, 0x0D#8, 0x0A#8]
  replyLedOff := [0x4F#8, 0x4B#8, 0x0D#8, 0x0A#8]
  replyPing := [0x70#8, 0x6F#8, 0x6E#8, 0x67#8, 0x0D#8, 0x0A#8]
  replyVersion := [0x76#8, 0x31#8, 0x0D#8, 0x0A#8]
  ledPin := 13#16

end Sys2Proof
end

