-- ==== Sys2Proof/Machine/State.lean ====
section
/-!
DEFINITION. The state of the block as plain data: everything `10_state.md` gives it (R20 to R35), the two operation
sequencers (R38), the bytes waiting on the two ports (R96), the responses and the output trace (R36, R99), and the inputs
from outside that have still to arrive. `State.reset` is the block after reset (R45).
-/

namespace Sys2Proof.Machine

/-- Why the block stops with a fault. The spec gives the block none: no storage access can be out of range (R64, R68). -/
inductive Fault
  /-- A storage slot that does not exist was addressed (an index at or above the capacity of R60). Raised by `memRead`
  and `memWrite`. No state that meets `Inv` reaches it; safe: the model stops where the spec gives the block no access. -/
  | noSuchSlot (sp : Space) (i : Nat)
  deriving DecidableEq, Repr

/-- Why the model gives no meaning. -/
inductive Refusal
  /-- Raised by `exec`'s arm of an operation that has no meaning yet; none is left. Safe. -/
  | notModelled (mnemonic : String)
  /-- A command is begun on a port whose operation sequencer is still executing one: a port executes one command at a
  time (R233, R251, R297). Raised by `accept` and `selectNext` in states no run reaches (`step` resumes the operation in
  progress); safe. -/
  | portBusy (p : Port)
  deriving DecidableEq, Repr

/-- A storage array (R20): the slots written so far, as `(slot, byte)` pairs with strictly rising slots. An unlisted
slot has not been written. -/
abbrev Memory := List Host.Cell

/-- `lf_state` (R27): a status record that selects no transition. -/
inductive LfState
  | idle
  | overflowed
  deriving DecidableEq, Repr

/-- The bits of `errflags` (R32, R42). -/
inductive ErrFlag
  | rxovf
  | lineovf
  | txpartial
  | txbusy
  | rxfault
  | txfault
  | illegal
  | spurious
  deriving DecidableEq, Repr

/-- The direction of a surfaced transport fault (R36): `rx` is 0, `tx` is 1. -/
inductive Dir
  | rx
  | tx
  deriving DecidableEq, Repr

/-- The output events of R36. -/
inductive Event
  /-- one call of `transmit_unit` with these bytes -/
  | txUnit (bytes : List Byte)
  /-- one call of `arm_receive` with length 1 -/
  | armRx
  /-- one call of `gpio_write`; level `true` is `SET = 1` -/
  | gpio (pin : BitVec 16) (level : Bool)
  /-- a transport fault surfaced upward -/
  | faultUp (dir : Dir)
  deriving DecidableEq, Repr

/-- What the FEED sequence answers (R141): no message, a completed message, or a line overflow. -/
inductive FeedResult
  | none
  | msg (bytes : List Byte)
  | overflow
  deriving DecidableEq, Repr

/-- The local values of a POLL in progress (R193): `d`, `g` and `e`. -/
structure PollLocals where
  drained : Nat
  dispatched : Nat
  errors : Byte
  deriving DecidableEq, Repr

/-- Which operation runs the action sequence of R123. -/
inductive PopCaller
  | pop
  | poll (l : PollLocals)
  deriving DecidableEq, Repr

/-- Which operation runs the action sequence `enqueue(s)` of R161. -/
inductive EnqCaller
  | enq
  | tick (now : Word32)
  | poll (l : PollLocals)
  deriving DecidableEq, Repr

/-- The operation sequencer of port I (R38). An operation of port I runs from start to end as one action (R251), so it
is `executing` only inside a step. -/
inductive SeqI
  | idle
  | executing
  deriving DecidableEq, Repr

/-- The operation sequencer of port M (R38): idle, or the next action of the operation in progress, with the local values
it keeps across preemption points (R252). The positions are the places a rule marks as preemption points, and the start
of each operation. -/
inductive SeqM
  | idle
  /-- ISEMPTY (R125) before action (a) -/
  | isEmptyA
  /-- ISEMPTY before action (b), with the sampled `w` -/
  | isEmptyB (w : Nat)
  /-- ISFULL (R126) before action (a) -/
  | isFullA
  /-- ISFULL before action (b), with the sampled `w` -/
  | isFullB (w : Nat)
  /-- `pop()` (R123) before action (a); for POLL, the top of its loop (R193) -/
  | popA (c : PopCaller)
  /-- `pop()` before action (b), with the sampled `w` -/
  | popB (c : PopCaller) (w : Nat)
  /-- `pop()` before action (c), with the byte read -/
  | popC (c : PopCaller) (v : Byte)
  /-- POLL (R193) before `feed(v)` -/
  | pollFeed (l : PollLocals) (v : Byte)
  /-- TICK (R203) before its test -/
  | tickA (now : Word32)
  /-- `enqueue(bytes)` (R161) before step (0) -/
  | enq0 (c : EnqCaller) (bytes : List Byte)
  /-- `enqueue` at the top of its loop: `len` bytes in all, `count` written and published, `rest` to go -/
  | enqA (c : EnqCaller) (len count : Nat) (rest : List Byte)
  /-- `enqueue` before step (b): a byte is written and not yet published; `next` is the index to publish -/
  | enqB (c : EnqCaller) (len count next : Nat) (rest : List Byte)
  /-- `enqueue` before step (d), with the sampled `t` -/
  | enqD (c : EnqCaller) (len count : Nat) (t : Bool)
  deriving DecidableEq, Repr

/-- Something from outside that arrives at one scheduling point: before a step, or at a preemption point. -/
inductive Input
  /-- nothing arrives -/
  | quiet
  /-- bytes presented on port I -/
  | onI (bytes : List Byte)
  /-- bytes presented on port M -/
  | onM (bytes : List Byte)
  /-- the hardware reset input is raised (R280) -/
  | resetLine
  deriving DecidableEq, Repr

structure State where
  /-- the construction parameters (R7, R8); read through CSR 0x10 to 0x15 (R40) -/
  cfg : Config
  /-- `rx_store` (R20) -/
  rxStore : Memory
  /-- `lf_buf` (R20) -/
  lfBuf : Memory
  /-- `tx_store` (R20) -/
  txStore : Memory
  /-- `rx_w` (R22) -/
  rxW : Nat
  /-- `rx_r` (R22) -/
  rxR : Nat
  /-- `lf_fill` (R26) -/
  lfFill : Nat
  /-- `lf_state` (R27) -/
  lfState : LfState
  /-- `tx_w` (R28) -/
  txW : Nat
  /-- `tx_r` (R28) -/
  txR : Nat
  /-- `tip`, transmission in progress (R29) -/
  tip : Bool
  /-- `tx_ulen`, bytes of the unit in flight (R30) -/
  txUlen : Nat
  /-- `rx_armed` (R31) -/
  rxArmed : Bool
  /-- `errflags` (R32, R42) -/
  errflags : Byte
  /-- `rxovf_cnt` (R33) -/
  rxovfCnt : Word32
  /-- `last_sent` (R34) -/
  lastSent : Word32
  /-- the operation sequencer of port I (R38) -/
  seqI : SeqI
  /-- the operation sequencer of port M (R38) -/
  seqM : SeqM
  /-- bytes received on port I that no executed command has consumed (R96) -/
  portI : List Byte
  /-- bytes received on port M that no executed command has consumed (R96) -/
  portM : List Byte
  /-- the responses given on port I, oldest first (R99) -/
  respI : List (List Byte)
  /-- the responses given on port M, oldest first (R99) -/
  respM : List (List Byte)
  /-- the output trace, oldest event first (R36) -/
  trace : List Event
  /-- what arrives from outside at the next scheduling points, one entry each; nothing when the list is used up -/
  inputs : List Input
  /-- the hardware reset input is raised (R280) -/
  resetIn : Bool
  deriving DecidableEq, Repr

/-- What a step does next (R38, R252, R253): selected by `selectNext`. -/
inductive Selected
  /-- port I's sequencer is mid-operation: no run reaches this -/
  | busy
  /-- the hardware reset input acts -/
  | hardReset (s : State)
  /-- a complete command is begun -/
  | run (i : Instr) (s : State)
  /-- an unassigned opcode was presented -/
  | illegal (s : State)
  /-- the suspended operation of port M goes on -/
  | resume (s : State)
  /-- no command is complete: the block waits -/
  | wait (s : State)
  deriving DecidableEq, Repr

/-- The block constructed with parameters `c` and reset (R45): every register at the value R45 gives, no slot written,
both sequencers idle, nothing received, no output yet. -/
def State.resetWith (c : Config) : State where
  cfg := c
  rxStore := []
  lfBuf := []
  txStore := []
  rxW := 0
  rxR := 0
  lfFill := 0
  lfState := .idle
  txW := 0
  txR := 0
  tip := false
  txUlen := 0
  rxArmed := false
  errflags := 0#8
  rxovfCnt := 0#32
  lastSent := 0#32
  seqI := .idle
  seqM := .idle
  portI := []
  portM := []
  respI := []
  respM := []
  trace := []
  inputs := []
  resetIn := false

/-- The block right after reset, constructed with `Config.default` (log entry 1). -/
def State.reset : State := State.resetWith Config.default

end Sys2Proof.Machine
end

