-- ==== Sys2Proof/Machine/Operands.lean ====
section
/-!
DEFINITION. The operand forms of the block (`20_memory.md` R67): a slot index taken from an index register, and the runs
of slots a transmit unit and a message are read from; and the fields of responses (`30_encoding.md` R100, R101).
-/

namespace Sys2Proof.Machine

/-- Status codes (R100). -/
def stOk : Byte := 0x00#8
def stNone : Byte := 0x01#8
def stMsg : Byte := 0x02#8
def stRxOverflow : Byte := 0x81#8
def stLineOverflow : Byte := 0x82#8
def stTxPartial : Byte := 0x83#8
def stTxBusy : Byte := 0x84#8
def stTransportFault : Byte := 0x85#8
def stSpuriousDone : Byte := 0x86#8
def stNotArmed : Byte := 0x87#8
def stBadCsr : Byte := 0x8D#8
def stIllegalCtx : Byte := 0x8E#8
def stIllegalOp : Byte := 0x8F#8

/-- The one-byte truth value of ISEMPTY and ISFULL (R101). -/
def boolByte (b : Bool) : Byte := if b then 0x01#8 else 0x00#8

/-- The response of an enqueue: status and 16-bit count (R101). -/
def respEnqueue (status : Byte) (count : Nat) : List Byte := status :: le16Bytes count

/-- The response of a FEED that completed the message `m` (R101). -/
def respMessage (m : List Byte) : List Byte := stMsg :: (le16Bytes m.length ++ m)

/-- The response of POLL (R101, R193): `d` and `g` modulo 65536, and `e`. -/
def respPoll (l : PollLocals) : List Byte :=
  stOk :: (le16Bytes l.drained ++ le16Bytes l.dispatched ++ [l.errors])

/-- The response of RDCSR of an assigned number (R101). -/
def respCsr (v : Word32) : List Byte := stOk :: le32Bytes v

/-- The bit of POLL's `e` byte that an enqueue's status sets (R193): bit 2 for a partial write, bit 3 for busy. -/
def pollErrBit (status : Byte) : Byte :=
  if status = stTxPartial then 0x04#8 else if status = stTxBusy then 0x08#8 else 0x00#8

/-- The slots a run of `n` bytes is read from, oldest first: `add_X(r, 0), ..., add_X(r, n-1)` (R67, R160). -/
def ringSlots (X r n : Nat) : List Nat := (List.range n).map (addIdx X r)

/-- The slots of a message of `n` bytes: `0, ..., n-1` (R145). -/
def lineSlots (n : Nat) : List Nat := List.range n

end Sys2Proof.Machine
end

