-- ==== Sys2Proof/Machine/Flags.lean ====
section
/-!
DEFINITION. The flags of the block (`10_state.md` R24, R35, R41 to R43): the derived empty and full predicates, the sticky
error flags, the STATUS and CFG_MODE registers, and the control and status register map of R40.
-/

namespace Sys2Proof.Machine

/-- `empty(w, r)` (R24). -/
def ringEmpty (w r : Nat) : Bool := decide (w = r)

/-- `full_X(w, r)` (R24). -/
def ringFull (X w r : Nat) : Bool := decide (incIdx X w = r)

/-- The bit of each error flag (R32, R42). -/
def ErrFlag.mask : ErrFlag → Byte
  | .rxovf => 0x01#8
  | .lineovf => 0x02#8
  | .txpartial => 0x04#8
  | .txbusy => 0x08#8
  | .rxfault => 0x10#8
  | .txfault => 0x20#8
  | .illegal => 0x40#8
  | .spurious => 0x80#8

/-- `flag(F)` (R13): `errflags[F] <- 1`; it never clears a bit (R32). -/
def State.flag (s : State) (f : ErrFlag) : State := { s with errflags := s.errflags ||| f.mask }

/-- The saturating increment of `rxovf_cnt` (R33, R121). -/
def satInc (c : Word32) : Word32 := if c = 0xFFFFFFFF#32 then 0xFFFFFFFF#32 else c + 1#32

/-- The occupancy of the RX ring (R24). -/
def State.rxCount (s : State) : Nat := distIdx s.cfg.N s.rxW s.rxR

/-- The occupancy of the TX queue (R24). -/
def State.txCount (s : State) : Nat := distIdx s.cfg.T s.txW s.txR

/-- Bit `k` of a byte, set when `b` holds. -/
def bitIf (k : Nat) (b : Bool) : Byte := if b then 1#8 <<< k else 0#8

/-- `STATUS` (R41): all bits derived, none stored. -/
def State.status (s : State) : Byte :=
  bitIf 0 (ringEmpty s.rxW s.rxR) ||| bitIf 1 (ringFull s.cfg.N s.rxW s.rxR) |||
  bitIf 2 (ringEmpty s.txW s.txR) ||| bitIf 3 (ringFull s.cfg.T s.txW s.txR) |||
  bitIf 4 s.tip ||| bitIf 5 s.rxArmed ||| bitIf 6 (decide (s.lfState = .overflowed)) |||
  bitIf 7 (decide (0 < s.lfFill))

/-- `CFG_MODE` (R43): bit 0 `TX_MODE`, bit 1 `DISPATCH_MODE`. -/
def cfgMode (c : Config) : Byte :=
  bitIf 0 (decide (c.txMode = .bulk)) ||| bitIf 1 (decide (c.dispatchMode = .command))

/-- `csr[a]` (R40): the value of an assigned control and status register, zero-extended to 32 bits; none for an
unassigned number (R227). -/
def State.csr (s : State) (a : Byte) : Option Word32 :=
  match a.toNat with
  | 0x00 => some (BitVec.ofNat 32 s.rxW)
  | 0x01 => some (BitVec.ofNat 32 s.rxR)
  | 0x02 => some (BitVec.ofNat 32 s.lfFill)
  | 0x03 => some (BitVec.ofNat 32 (if s.lfState = .overflowed then 1 else 0))
  | 0x04 => some (BitVec.ofNat 32 s.txW)
  | 0x05 => some (BitVec.ofNat 32 s.txR)
  | 0x06 => some (BitVec.ofNat 32 s.tip.toNat)
  | 0x07 => some (s.status.setWidth 32)
  | 0x08 => some (s.errflags.setWidth 32)
  | 0x09 => some s.rxovfCnt
  | 0x0A => some s.lastSent
  | 0x0B => some (BitVec.ofNat 32 s.txUlen)
  | 0x0C => some (BitVec.ofNat 32 s.rxArmed.toNat)
  | 0x10 => some (BitVec.ofNat 32 s.cfg.N)
  | 0x11 => some (BitVec.ofNat 32 s.cfg.M)
  | 0x12 => some (BitVec.ofNat 32 s.cfg.T)
  | 0x13 => some s.cfg.interval
  | 0x14 => some ((cfgMode s.cfg).setWidth 32)
  | 0x15 => some (s.cfg.ledPin.setWidth 32)
  | _ => none

end Sys2Proof.Machine
end

