-- ==== Sys2Proof/Machine/Ops.lean ====
section
/-!
DEFINITION. The named operations over storage, registers and outputs that every meaning is built from: reading and
writing a storage slot (`20_memory.md` R60, R68), emitting an event, responding, raising an error result
(`60_exceptions.md` R240), the port check (R105), reset (R220, R280), what arrives from outside, and preemption (R252).
-/

namespace Sys2Proof.Machine

/-- The outcome of a whole step. -/
abbrev Result := Host.Outcome State Fault Refusal

/-- One action after another: the second runs on what the first answers. -/
def andThen {α β : Type} (x : Host.Outcome α Fault Refusal) (f : α → Host.Outcome β Fault Refusal) :
    Host.Outcome β Fault Refusal :=
  match x with
  | .next a => f a
  | .fault r => .fault r
  | .refused r => .refused r

/-! ### Storage -/

/-- The byte last written to slot `i`, if any. -/
def Memory.read (m : Memory) (i : Nat) : Option Byte :=
  match m with
  | [] => none
  | (a, v) :: rest => if i = a then some v else Memory.read rest i

/-- Replace slot `i` (R68); the slots stay strictly rising. -/
def Memory.write (m : Memory) (i : Nat) (v : Byte) : Memory :=
  match m with
  | [] => [(i, v)]
  | (a, u) :: rest =>
    if i < a then (i, v) :: (a, u) :: rest
    else if i = a then (i, v) :: rest
    else (a, u) :: Memory.write rest i v

/-- The canonical form of a storage array: strictly rising slots. An unlisted slot reads as "not written", so no entry
can equal what an unlisted slot reads as. -/
abbrev Memory.wf (m : Memory) : Prop := m.Pairwise (fun a b => a.1 < b.1)

/-- Every listed slot exists: it is below the capacity `X` (R60). -/
abbrev Memory.below (X : Nat) (m : Memory) : Prop := ∀ c ∈ m, c.1 < X

/-- The size of a space (R60). -/
def State.capacity (s : State) (sp : Space) : Nat :=
  match sp with
  | .rxs => s.cfg.N
  | .lfb => s.cfg.M
  | .txs => s.cfg.T

/-- The storage array behind a space (R60). -/
def State.store (s : State) (sp : Space) : Memory :=
  match sp with
  | .rxs => s.rxStore
  | .lfb => s.lfBuf
  | .txs => s.txStore

/-- The state with the storage array of a space replaced. -/
def State.setStore (s : State) (sp : Space) (m : Memory) : State :=
  match sp with
  | .rxs => { s with rxStore := m }
  | .lfb => { s with lfBuf := m }
  | .txs => { s with txStore := m }

/-- The byte in slot `i` of a space: what was last written there, or the slot's unspecified content (R45, R68). -/
def State.slot (s : State) (sp : Space) (i : Nat) : Byte :=
  ((s.store sp).read i).getD (Config.freeByte sp i)

/-- `MemRead(space, i)` (R13, R68); a slot that does not exist stops the model. -/
def memRead (sp : Space) (i : Nat) (s : State) : Host.Outcome Byte Fault Refusal :=
  if i < s.capacity sp then .next (s.slot sp i) else .fault (.noSuchSlot sp i)

/-- `MemWrite(space, i, v)` (R13, R68); a slot that does not exist stops the model. -/
def memWrite (sp : Space) (i : Nat) (v : Byte) (s : State) : Result :=
  if i < s.capacity sp then .next (s.setStore sp ((s.store sp).write i v)) else .fault (.noSuchSlot sp i)

/-- `[MemRead(space, i), ...]` for a run of slots, in the order given. -/
def memReadAll (sp : Space) (is : List Nat) (s : State) : Host.Outcome (List Byte) Fault Refusal :=
  match is with
  | [] => .next []
  | i :: rest => andThen (memRead sp i s) fun v => andThen (memReadAll sp rest s) fun vs => .next (v :: vs)

/-- The bytes stored in the RX ring, oldest first (R24). -/
def State.rxContents (s : State) : List Byte := (ringSlots s.cfg.N s.rxR s.rxCount).map (s.slot .rxs)

/-- The bytes in the TX queue, oldest first (R24, R28). -/
def State.txContents (s : State) : List Byte := (ringSlots s.cfg.T s.txR s.txCount).map (s.slot .txs)

/-- The bytes of the message in progress (R26). -/
def State.lineContents (s : State) : List Byte := (lineSlots s.lfFill).map (s.slot .lfb)

/-! ### Contexts, outputs, error results -/

/-- The execution context of the operation being executed (R250): port I's sequencer executes only while an operation of
port I runs, and port M's advances only while port I's is idle (R38). -/
def State.context (s : State) : Port :=
  match s.seqI with
  | .executing => .I
  | .idle => .M

/-- `emit E` (R13, R36): append to the output trace. -/
def State.emit (s : State) (e : Event) : State := { s with trace := s.trace ++ [e] }

/-- The response of an operation of port I; its sequencer goes back to idle (R38, R99). -/
def State.respondI (s : State) (r : List Byte) : State := { s with respI := s.respI ++ [r], seqI := .idle }

/-- The response of an operation of port M; its sequencer goes back to idle (R38, R99). -/
def State.respondM (s : State) (r : List Byte) : State := { s with respM := s.respM ++ [r], seqM := .idle }

/-- `respond(status, payload...)` (R13, R100): the response goes to the port the command came from (R99). -/
def State.respond (s : State) (r : List Byte) : State :=
  match s.context with
  | .I => s.respondI r
  | .M => s.respondM r

/-- `raise <Error>(info)` (R13, R240): set the error's sticky flag and respond with its status code. This is all that
taking an error result is: nothing is saved, no mode changes, no handler runs, and the operation completes. -/
def State.raise (s : State) (f : ErrFlag) (status : Byte) (info : List Byte) : State :=
  (s.flag f).respond (status :: info)

/-- The sequencer of port M moves to a position (R38). -/
def State.goto (s : State) (p : SeqM) : State := { s with seqM := p }

/-- Is the sequencer of port M idle? -/
def SeqM.isIdle : SeqM → Bool
  | .idle => true
  | .isEmptyA | .isEmptyB _ | .isFullA | .isFullB _ | .popA _ | .popB _ _ | .popC _ _ | .pollFeed _ _ | .tickA _
  | .enq0 _ _ | .enqA _ _ _ _ | .enqB _ _ _ _ _ | .enqD _ _ _ _ => false

/-- An operation on a port that does not allow it is not executed (R105): `ILLEGAL_CTX`. -/
def illegalCtx (s : State) : State := s.raise .illegal stIllegalCtx []

/-- An unassigned opcode (R104): `ILLEGAL_OP`. -/
def illegalOp (s : State) : State := s.raise .illegal stIllegalOp []

/-- The checks made before an operation's own body, in the order of R243: a port executes one command at a time (R297),
and the operation must be allowed on the port it came from (R105). -/
def accept (o : Opcode) (body : State → Result) (s : State) : Result :=
  if s.context = .M ∧ s.seqM.isIdle = false then .refused (.portBusy .M)
  else if o.allowedOn s.context then body s
  else .next (illegalCtx s)

/-! ### Reset -/

/-- Every register at its reset value (R45, R220); storage keeps what it held, the parameters are unchanged, no event is
emitted. -/
def State.resetRegisters (s : State) : State :=
  { s with
    rxW := 0, rxR := 0, lfFill := 0, lfState := .idle, txW := 0, txR := 0, tip := false, txUlen := 0,
    rxArmed := false, errflags := 0#8, rxovfCnt := 0#32, lastSent := 0#32 }

/-- The hardware reset input (R220, R280): the effect of RESET, both sequencers idle, partly received commands
discarded; the input is then low again. [log entries 6, 7] -/
def State.hardwareReset (s : State) : State :=
  { s.resetRegisters with
    seqI := .idle, seqM := .idle, portI := wholeCommands s.portI, portM := wholeCommands s.portM, resetIn := false }

/-! ### What arrives from outside, and preemption -/

/-- One input arrives. -/
def State.receive (s : State) (x : Input) : State :=
  match x with
  | .quiet => s
  | .onI bs => { s with portI := s.portI ++ bs }
  | .onM bs => { s with portM := s.portM ++ bs }
  | .resetLine => { s with resetIn := true }

/-- A scheduling point: the next input, if any is left, arrives. -/
def State.arrive (s : State) : State :=
  match s.inputs with
  | [] => s
  | x :: rest => State.receive { s with inputs := rest } x

/-- Must the operation of port M give way: a complete command waits on port I (R252), or the reset input is raised? -/
def State.preempted (s : State) : Bool := s.resetIn || commandReady s.portI

/-- A command of port I is begun: its bytes are consumed and its sequencer executes (R38, R96). -/
def State.beginI (s : State) (rest : List Byte) : State := { s with portI := rest, seqI := .executing }

/-- A command of port M is begun: its bytes are consumed (R38, R96). -/
def State.beginM (s : State) (rest : List Byte) : State := { s with portM := rest }

/-- What a step does next. An input arrives; then the reset input acts; else a complete command of port I runs (R252); else
the suspended operation of port M goes on (R253: "and no further port-I command is waiting"); else a complete command of
port M is begun; else the block waits (R96, R304). -/
def selectNext (s : State) : Selected :=
  if s.seqI = .executing then .busy
  else
    let s := s.arrive
    if s.resetIn then .hardReset s
    else
      match decode s.portI with
      | .command i rest => .run i (s.beginI rest)
      | .illegal _ rest => .illegal (s.beginI rest)
      | .incomplete =>
        if s.seqM.isIdle then
          match decode s.portM with
          | .command i rest => .run i (s.beginM rest)
          | .illegal _ rest => .illegal (s.beginM rest)
          | .incomplete => .wait s
        else .resume s

/-- The state in which the very next step fetches and runs the command whose low `nbits` bits are `w`: the command stands
at the head of a port that allows it (port M for an unassigned opcode), nothing arrives before it, and nothing goes before
it. -/
def placeCommand (s : State) (nbits w : Nat) : State :=
  let bytes := commandBytes nbits w
  let onM : Bool :=
    match Opcode.ofByte (BitVec.ofNat 8 w) with
    | some o => o.allowedOn .M
    | none => true
  if onM then
    { s with
      portM := bytes ++ s.portM, portI := [], seqM := .idle, seqI := .idle, inputs := .quiet :: s.inputs,
      resetIn := false }
  else { s with portI := bytes ++ s.portI, seqI := .idle, inputs := .quiet :: s.inputs, resetIn := false }

end Sys2Proof.Machine
end

