-- ==== Sys2Proof/Machine/Queues.lean ====
section
/-!
DEFINITION. The component sequences the operations share: the push and the pop of the RX ring (`40_ring_buffer.md` R121,
R123), the transmit unit, the completion and the enqueue of the TX queue (`42_transmit_queue.md` R160, R161, R170), and
the FEED and dispatch of the session (`41_line_framer.md` R141, `43_session.md` R196).
-/

namespace Sys2Proof.Machine

/-! ### RX ring -/

/-- A push that finds the ring full (R121): the byte is dropped, the failure recorded. -/
def pushDrop (s : State) : State := { s.flag .rxovf with rxovfCnt := satInc s.rxovfCnt }

/-- A push with room (R121): data first, index second (R73). -/
def pushStore (b : Byte) (s : State) : Result :=
  andThen (memWrite .rxs s.rxW b s) fun s' => .next { s' with rxW := incIdx s.cfg.N s.rxW }

/-- The state changes of PUSH (R121), without the response. -/
def push (b : Byte) (s : State) : Result :=
  if ringFull s.cfg.N s.rxW s.rxR then .next (pushDrop s) else pushStore b s

/-- The status a push answers (R121). -/
def pushStatus (s : State) : Byte := if ringFull s.cfg.N s.rxW s.rxR then stRxOverflow else stOk

/-- Action (b) of `pop()` when it finds the ring empty (R123, R193). -/
def popNone (c : PopCaller) (s : State) : State :=
  match c with
  | .pop => s.respond [stNone]
  | .poll l => s.respond (respPoll l)

/-- Action (b) of `pop()` (R123): compare the sampled `w` with `rx_r`; data first. -/
def popRead (c : PopCaller) (w : Nat) (s : State) : Result :=
  if ringEmpty w s.rxR then .next (popNone c s)
  else andThen (memRead .rxs s.rxR s) fun v => .next (s.goto (.popC c v))

/-- Action (c) of `pop()` (R123): index second. -/
def popAdvance (c : PopCaller) (v : Byte) (s : State) : State :=
  let s' := { s with rxR := incIdx s.cfg.N s.rxR }
  match c with
  | .pop => s'.respond [stOk, v]
  | .poll l => s'.goto (.pollFeed { l with drained := l.drained + 1 } v)

/-! ### Line framer -/

/-- FEED of `\n` (R145, R146). -/
def feedNewline (s : State) : Host.Outcome (State × FeedResult) Fault Refusal :=
  if 0 < s.lfFill then
    andThen (memWrite .lfb s.lfFill 0x00#8 s) fun s' =>
      andThen (memReadAll .lfb (lineSlots s.lfFill) s') fun m =>
        .next ({ s' with lfFill := 0, lfState := .idle }, .msg m)
  else .next ({ s with lfState := .idle }, .none)

/-- FEED of an ordinary byte (R143, R144). -/
def feedOrdinary (b : Byte) (s : State) : Host.Outcome (State × FeedResult) Fault Refusal :=
  if s.lfFill < s.cfg.M - 1 then
    andThen (memWrite .lfb s.lfFill b s) fun s' => .next ({ s' with lfFill := s.lfFill + 1 }, .none)
  else .next ({ s.flag .lineovf with lfFill := 0, lfState := .overflowed }, .overflow)

/-- The state changes and the result of FEED (R141), without the response. -/
def feed (b : Byte) (s : State) : Host.Outcome (State × FeedResult) Fault Refusal :=
  if b = charCR then .next (s, .none)
  else if b = charLF then feedNewline s
  else feedOrdinary b s

/-! ### TX queue -/

/-- The length of the unit to issue (R160): one byte, or the whole queued content. -/
def unitLength (s : State) : Nat :=
  match s.cfg.txMode with
  | .byte => 1
  | .bulk => s.txCount

/-- `issue_unit()` (R160): `tx_ulen` and `tip` are written, then the event is emitted; the bytes are read oldest first. -/
def issueUnit (s : State) : Result :=
  andThen (memReadAll .txs (ringSlots s.cfg.T s.txR (unitLength s)) s) fun bytes =>
    .next (State.emit { s with txUlen := unitLength s, tip := true } (.txUnit bytes))

/-- The unit in flight leaves the queue and the chain goes on or ends (R170, R231), without the response. -/
def completeUnit (s : State) : Result :=
  let s' := { s with txR := addIdx s.cfg.T s.txR s.txUlen }
  if ringEmpty s'.txW s'.txR then .next { s' with tip := false, txUlen := 0 } else issueUnit s'

/-- How an enqueue ends for the operation that runs it (R161 (e), R193, R203). -/
def enqueueEnd (c : EnqCaller) (status : Byte) (count : Nat) (s : State) : State :=
  match c with
  | .enq => s.respond (respEnqueue status count)
  | .tick now => State.respond { s with lastSent := now } (respEnqueue status count)
  | .poll l => s.goto (.popA (.poll { l with errors := l.errors ||| pollErrBit status }))

/-- Step (c) of an enqueue (R161, R164): `tip` is sampled after the append. -/
def enqueueSample (c : EnqCaller) (len count : Nat) (s : State) : State := s.goto (.enqD c len count s.tip)

/-- The top of the append loop (R161, R162): step (a) for the next byte, `tx_r` read afresh, data first; at the end of the
string, or when the queue is full, step (c) follows with no preemption point between. -/
def enqueueTop (c : EnqCaller) (len count : Nat) (rest : List Byte) (s : State) : Result :=
  match rest with
  | [] => .next (enqueueSample c len count s)
  | b :: rest' =>
    if ringFull s.cfg.T s.txW s.txR then .next (enqueueSample c len count s)
    else andThen (memWrite .txs s.txW b s) fun s' => .next (s'.goto (.enqB c len count (incIdx s.cfg.T s.txW) rest'))

/-- Step (b) of an enqueue (R161): index second; the byte is published. -/
def enqueuePublish (c : EnqCaller) (len count next : Nat) (rest : List Byte) (s : State) : State :=
  State.goto { s with txW := next } (.enqA c len (count + 1) rest)

/-- Step (e) of an enqueue (R161, R165). -/
def enqueueFinish (c : EnqCaller) (len count : Nat) (s : State) : State :=
  if count = len then enqueueEnd c stOk count s else enqueueEnd c stTxPartial count (s.flag .txpartial)

/-- Steps (d) and (e) of an enqueue (R161, R164). -/
def enqueueStart (c : EnqCaller) (len count : Nat) (t : Bool) (s : State) : Result :=
  if t = false ∧ ringEmpty s.txW s.txR = false then
    andThen (issueUnit s) fun s' => .next (enqueueFinish c len count s')
  else .next (enqueueFinish c len count s)

/-- Step (0) of an enqueue (R161, R175), and what follows it up to the first preemption point. -/
def enqueue (c : EnqCaller) (bytes : List Byte) (s : State) : Result :=
  if s.cfg.txMode = .bulk ∧ s.tip = true then .next (enqueueEnd c stTxBusy 0 (s.flag .txbusy))
  else enqueueTop c bytes.length 0 bytes s

/-! ### Dispatch -/

/-- The reply to a completed message (R196). -/
def replyFor (c : Config) (msg : List Byte) : List Byte :=
  if msg = textHeartbeat then textHeartbeatReply
  else
    match c.dispatchMode with
    | .echo => textEcho
    | .command =>
      if msg = textHelp then c.replyHelp
      else if msg = textLedOn then c.replyLedOn
      else if msg = textLedOff then c.replyLedOff
      else if msg = textPing then c.replyPing
      else if msg = textVersion then c.replyVersion
      else textUnknown

/-- The GPIO event of a completed message, if it has one (R196, R199). -/
def gpioFor (c : Config) (msg : List Byte) : Option Event :=
  match c.dispatchMode with
  | .echo => none
  | .command =>
    if msg = textLedOn then some (.gpio c.ledPin true)
    else if msg = textLedOff then some (.gpio c.ledPin false)
    else none

/-- The GPIO event, if any, is emitted before the reply is enqueued (R199). -/
def emitGpio (msg : List Byte) (s : State) : State :=
  match gpioFor s.cfg msg with
  | some e => s.emit e
  | none => s

/-- `dispatch(msg)` (R196): the reply is enqueued; exactly one per message. -/
def dispatch (l : PollLocals) (msg : List Byte) (s : State) : Result :=
  enqueue (.poll { l with dispatched := l.dispatched + 1 }) (replyFor s.cfg msg) (emitGpio msg s)

/-- POLL's use of a popped byte (R193 to R196): feed it, then dispatch the message or enqueue the diagnostic. -/
def pollByte (l : PollLocals) (v : Byte) (s : State) : Result :=
  andThen (feed v s) fun r =>
    match r.2 with
    | .none => .next (r.1.goto (.popA (.poll l)))
    | .msg m => dispatch l m r.1
    | .overflow => enqueue (.poll { l with errors := l.errors ||| 0x02#8 }) textTooLong r.1

/-- TICK's test (R203): due iff `sub32(now, last_sent) >= INTERVAL`, unsigned. -/
def tickDue (now : Word32) (s : State) : Bool := decide (s.cfg.interval.toNat ≤ (now - s.lastSent).toNat)

/-- The first action of TICK (R203). -/
def tickStart (now : Word32) (s : State) : Result :=
  if tickDue now s then enqueue (.tick now) s.cfg.statusMsg s else .next (s.respond [stNone])

end Sys2Proof.Machine
end

