-- ==== Sys2Proof/Machine/Sequencer.lean ====
section
/-!
DEFINITION. The operation sequencer of port M (`10_state.md` R38): one atomic action of the operation in progress, and the
run of its actions up to the response or to the preemption point at which it must give way (`60_exceptions.md` R252). A
suspended operation stands in `seqM` with its local values, and goes on from there (R253).
-/

namespace Sys2Proof.Machine

/-- The next atomic action of the operation in progress on port M: what lies between two marked preemption points of its
rule (R38, R252). [log entry 4] -/
def mainAction (s : State) : Result :=
  match s.seqM with
  | .idle => .next s
  | .isEmptyA => .next (s.goto (.isEmptyB s.rxW))
  | .isEmptyB w => .next (s.respond [stOk, boolByte (ringEmpty w s.rxR)])
  | .isFullA => .next (s.goto (.isFullB s.rxW))
  | .isFullB w => .next (s.respond [stOk, boolByte (ringFull s.cfg.N w s.rxR)])
  | .popA c => .next (s.goto (.popB c s.rxW))
  | .popB c w => popRead c w s
  | .popC c v => .next (popAdvance c v s)
  | .pollFeed l v => pollByte l v s
  | .tickA now => tickStart now s
  | .enq0 c bytes => enqueue c bytes s
  | .enqA c len count rest => enqueueTop c len count rest s
  | .enqB c len count next rest => .next (enqueuePublish c len count next rest s)
  | .enqD c len count t => enqueueStart c len count t s

/-- The length of the longest text the block enqueues by itself (R8, R197). -/
def maxText (c : Config) : Nat :=
  [textHeartbeatReply.length, textEcho.length, textUnknown.length, textTooLong.length, c.statusMsg.length,
    c.replyHelp.length, c.replyLedOn.length, c.replyLedOff.length, c.replyPing.length, c.replyVersion.length].foldr max 0

/-- A bound on the actions a POLL at the top of its loop still takes, with `n` bytes in the ring. -/
def pollCost (c : Config) (n : Nat) : Nat := n * (2 * maxText c + 8) + 2

/-- A bound on the actions of the operation that called `pop()`, after it. -/
def EnqCaller.cost (c : EnqCaller) (s : State) : Nat :=
  match c with
  | .enq => 0
  | .tick _ => 0
  | .poll _ => pollCost s.cfg s.rxCount

/-- A bound on the actions the operation in progress on port M still takes when it is left alone (R304). -/
def mainCost (s : State) : Nat :=
  match s.seqM with
  | .idle => 0
  | .isEmptyA => 2
  | .isEmptyB _ => 1
  | .isFullA => 2
  | .isFullB _ => 1
  | .popA .pop => 3
  | .popB .pop _ => 2
  | .popC .pop _ => 1
  | .popA (.poll _) => pollCost s.cfg s.rxCount
  | .popB (.poll _) _ => pollCost s.cfg s.rxCount - 1
  | .popC (.poll _) _ => pollCost s.cfg s.rxCount - 2
  | .pollFeed _ _ => pollCost s.cfg s.rxCount + 2 * maxText s.cfg + 4
  | .tickA _ => 2 * s.cfg.statusMsg.length + 4
  | .enq0 c bytes => 2 * bytes.length + 3 + c.cost s
  | .enqA c _ _ rest => 2 * rest.length + 2 + c.cost s
  | .enqB c _ _ _ rest => 2 * rest.length + 3 + c.cost s
  | .enqD c _ _ _ => 1 + c.cost s

/-- Run the operation in progress on port M for at most `fuel` actions. After each action that does not end it comes a
preemption point: an input may arrive, and the operation gives way if a port-I command is complete or the reset input is
raised; it is then left in `seqM`. Running out of `fuel` leaves it there too, which a later step takes up. -/
def runMain (fuel : Nat) (s : State) : Result :=
  match fuel with
  | 0 => .next s
  | fuel + 1 =>
    andThen (mainAction s) fun s1 =>
      if s1.seqM.isIdle then .next s1
      else if s1.arrive.preempted then .next s1.arrive
      else runMain fuel s1.arrive

/-- The suspended operation of port M goes on with its local values as they were (R253). -/
def resumeMain (s : State) : Result := runMain (mainCost s) s

/-- An operation of port M is begun at its first action (R38). -/
def startMain (p : SeqM) (s : State) : Result := resumeMain (s.goto p)

end Sys2Proof.Machine
end

