-- ==== Sys2Proof/Machine/LineFramer.lean ====
section
/-!
DEFINITION. The LineFramer operation FEED (`41_line_framer.md` R141 to R146).
-/

namespace Sys2Proof.Machine

/-- The response of FEED (R101, R141). -/
def feedResponse : FeedResult → List Byte
  | .none => [stNone]
  | .msg m => respMessage m
  | .overflow => [stLineOverflow]

/-- FEED `b` (R141): its preemption points are unobservable, so it is one action. -/
def execFeed (b : Byte) (s : State) : Result :=
  accept .feed (fun s => andThen (feed b s) fun r => .next (r.1.respond (feedResponse r.2))) s

end Sys2Proof.Machine
end

