-- ==== Sys2Proof/Machine/RingBuffer.lean ====
section
/-!
DEFINITION. The ByteRingBuffer operations PUSH, POP, ISEMPTY and ISFULL (`40_ring_buffer.md` R121, R123, R125, R126).
-/

namespace Sys2Proof.Machine

/-- PUSH `b` (R121). -/
def execPush (b : Byte) (s : State) : Result :=
  accept .push (fun s => andThen (push b s) fun s' => .next (s'.respond [pushStatus s])) s

/-- POP (R123): three actions with a preemption point between each. -/
def execPop (s : State) : Result := accept .pop (startMain (.popA .pop)) s

/-- ISEMPTY (R125): one action on port I, two on port M. -/
def execIsempty (s : State) : Result :=
  accept .isempty
    (fun s =>
      match s.context with
      | .I => .next (s.respond [stOk, boolByte (ringEmpty s.rxW s.rxR)])
      | .M => startMain .isEmptyA s) s

/-- ISFULL (R126): one action on port I, two on port M. -/
def execIsfull (s : State) : Result :=
  accept .isfull
    (fun s =>
      match s.context with
      | .I => .next (s.respond [stOk, boolByte (ringFull s.cfg.N s.rxW s.rxR)])
      | .M => startMain .isFullA s) s

end Sys2Proof.Machine
end

