-- ==== Sys2Proof/Machine/Session.lean ====
section
/-!
DEFINITION. The SerialSession operations RXBYTE, POLL and TICK (`43_session.md` R191, R193, R203).
-/

namespace Sys2Proof.Machine

/-- RXBYTE `b` on an armed receiver (R191): the armed receive has completed, the byte is pushed, the receiver is armed
again. -/
def rxStore (b : Byte) (s : State) : Result :=
  andThen (push b { s with rxArmed := false }) fun s' =>
    .next ((State.emit { s' with rxArmed := true } .armRx).respond [pushStatus s])

/-- RXBYTE `b` (R191). -/
def execRxbyte (b : Byte) (s : State) : Result :=
  accept .rxbyte (fun s => if s.rxArmed = false then .next (s.respond [stNotArmed]) else rxStore b s) s

/-- POLL (R193), begun with `d = 0`, `g = 0`, `e = 0`. -/
def execPoll (s : State) : Result := accept .poll (startMain (.popA (.poll ⟨0, 0, 0#8⟩))) s

/-- TICK `now` (R203). -/
def execTick (now : Word32) (s : State) : Result := accept .tick (startMain (.tickA now)) s

end Sys2Proof.Machine
end

