-- ==== Sys2Proof/Machine/System.lean ====
section
/-!
DEFINITION. The system operations RESET, START, RDCSR, RXFAULT and TXFAULT (`44_system.md` R220 to R231).
-/

namespace Sys2Proof.Machine

/-- RESET (R220): one atomic operation; it is the one operation that writes registers of both owners (R221). -/
def execReset (s : State) : Result := accept .reset (fun s => .next (s.resetRegisters.respond [stOk])) s

/-- Arm the receiver (R223): nothing happens when it is armed already. -/
def armReceiver (s : State) : State :=
  if s.rxArmed = false then State.emit { s with rxArmed := true } .armRx else s

/-- START (R223). -/
def execStart (s : State) : Result := accept .start (fun s => .next ((armReceiver s).respond [stOk])) s

/-- The response of RDCSR (R226, R227). -/
def csrResponse (s : State) (a : Byte) : List Byte :=
  match s.csr a with
  | some v => respCsr v
  | none => [stBadCsr]

/-- RDCSR `a` (R226, R227): one atomic action that changes no state. -/
def execRdcsr (a : Byte) (s : State) : Result := accept .rdcsr (fun s => .next (s.respond (csrResponse s a))) s

/-- RXFAULT on an armed receiver (R229): the byte in the landing buffer is discarded, reception re-armed once. -/
def rxFault (s : State) : State :=
  State.emit { (s.flag .rxfault).emit (.faultUp .rx) with rxArmed := true } .armRx

/-- RXFAULT (R229). -/
def execRxfault (s : State) : Result :=
  accept .rxfault
    (fun s =>
      if s.rxArmed = false then .next (s.respond [stNotArmed])
      else .next ((rxFault s).respond [stTransportFault])) s

/-- TXFAULT (R231): the faulted unit is discarded, not retried, and the chain goes on with the bytes behind it. -/
def execTxfault (s : State) : Result :=
  accept .txfault
    (fun s =>
      if s.tip = false then .next (s.raise .spurious stSpuriousDone [])
      else andThen (completeUnit ((s.flag .txfault).emit (.faultUp .tx))) fun s' =>
        .next (s'.respond [stTransportFault])) s

end Sys2Proof.Machine
end

