-- ==== Sys2Proof/Machine/TransmitQueue.lean ====
section
/-!
DEFINITION. The TransmitQueue operations ENQ and TXDONE (`42_transmit_queue.md` R161, R170, R171).
-/

namespace Sys2Proof.Machine

/-- ENQ `bytes` (R161). -/
def execEnq (bytes : List Byte) (s : State) : Result := accept .enq (startMain (.enq0 .enq bytes)) s

/-- TXDONE (R170, R171). -/
def execTxdone (s : State) : Result :=
  accept .txdone
    (fun s =>
      if s.tip = false then .next (s.raise .spurious stSpuriousDone [])
      else andThen (completeUnit s) fun s' => .next (s'.respond [stOk])) s

end Sys2Proof.Machine
end

