-- ==== Sys2Proof/Machine/Dispatch.lean ====
section
/-!
DEFINITION. The meaning of each operation: one arm per constructor of `Instr`.
-/

namespace Sys2Proof.Machine

def exec (i : Instr) (s : State) : Host.Outcome State Fault Refusal :=
  match i with
  | .push b => Sys2Proof.Machine.execPush b s
  | .pop => Sys2Proof.Machine.execPop s
  | .isempty => Sys2Proof.Machine.execIsempty s
  | .isfull => Sys2Proof.Machine.execIsfull s
  | .feed b => Sys2Proof.Machine.execFeed b s
  | .enq bytes => Sys2Proof.Machine.execEnq bytes s
  | .txdone => Sys2Proof.Machine.execTxdone s
  | .rxbyte b => Sys2Proof.Machine.execRxbyte b s
  | .poll => Sys2Proof.Machine.execPoll s
  | .tick now => Sys2Proof.Machine.execTick now s
  | .rxfault => Sys2Proof.Machine.execRxfault s
  | .txfault => Sys2Proof.Machine.execTxfault s
  | .rdcsr a => Sys2Proof.Machine.execRdcsr a s
  | .reset => Sys2Proof.Machine.execReset s
  | .start => Sys2Proof.Machine.execStart s

end Sys2Proof.Machine
end

