-- ==== Sys2Proof/Machine/Step.lean ====
section
/-!
DEFINITION. One step of the block: `selectNext` says what is to be done, and it is done.
-/

namespace Sys2Proof.Machine

/-- One step: a whole command of port I (R251), a command of port M up to its response or to the preemption point where it
gives way (R252), the resumption of one (R253), the hardware reset (R280), or waiting (R96). -/
def step (s : State) : Host.Outcome State Fault Refusal :=
  match selectNext s with
  | .busy => .refused (.portBusy .I)
  | .hardReset s1 => .next s1.hardwareReset
  | .run i s1 => exec i s1
  | .illegal s1 => .next (illegalOp s1)
  | .resume s1 => resumeMain s1
  | .wait s1 => .next s1

/-- The state in which the very next step fetches and runs the command whose low `nbits` bits are `w`, the further bits
being 0 (log entry 8). -/
def State.withFetchWord (s : State) (nbits w : Nat) : State := placeCommand s nbits w

end Sys2Proof.Machine
end

