-- ==== Sys2Proof/WellFormed.lean ====
section
/-!
DEFINITION. Which operations have an encoding, and which parameters a block may be constructed with.
-/

namespace Sys2Proof

/-- An operation is well formed when its operands fit its format: the length field of ENQ has 16 bits (R94, R97). Every
value of the other operands is legal (R94, R102). -/
def Instr.wf : Instr → Bool
  | .enq bytes => decide (bytes.length ≤ 65535)
  | .push _ | .pop | .isempty | .isfull | .feed _ | .txdone | .rxbyte _ | .poll | .tick _ | .rxfault | .txfault
  | .rdcsr _ | .reset | .start => true

/-- A capacity is legal (R7, R284): `2 <= X <= 65536`. -/
abbrev legalCapacity (X : Nat) : Prop := 2 ≤ X ∧ X ≤ 65536

/-- A reply or status text is legal: at most 65535 bytes (R8), ending in `0D 0A` (R197, R284). -/
abbrev legalText (t : List Byte) : Prop := t.length ≤ 65535 ∧ t.drop (t.length - 2) = [charCR, charLF]

/-- The construction requirements of R284: what U17 refuses at construction. -/
abbrev Config.wf (c : Config) : Prop :=
  legalCapacity c.N ∧ legalCapacity c.M ∧ legalCapacity c.T ∧ legalText c.statusMsg ∧ legalText c.replyHelp ∧
    legalText c.replyLedOn ∧ legalText c.replyLedOff ∧ legalText c.replyPing ∧ legalText c.replyVersion

end Sys2Proof
end

