-- ==== Sys2Proof/Safety.lean ====
section
/-!
DEFINITION. What a safe run of the block is, in the terms the statements use: the invariants of `10_state.md` R25, R26, R46
and R47, a main context that is left alone, which registers a context owns (R23, R28, R250), and the transmit chain driven
by its completions (`42_transmit_queue.md` R172).
-/

namespace Sys2Proof.Machine

/-- Is the operation of port M inside an enqueue, between its first append and the start of transmission? There alone the
queue may hold bytes while no unit is in flight (R46 (g), R163). -/
def SeqM.inEnqueue : SeqM → Bool
  | .enqA _ _ _ _ | .enqB _ _ _ _ _ | .enqD _ _ _ _ => true
  | .idle | .isEmptyA | .isEmptyB _ | .isFullA | .isFullB _ | .popA _ | .popB _ _ | .popC _ _ | .pollFeed _ _ | .tickA _
  | .enq0 _ _ => false

/-- In `BULK` mode an enqueue that has passed its busy test goes on with no unit in flight (R174, R176). -/
def BulkIdle (s : State) : Prop := s.cfg.txMode = .bulk → s.tip = false

/-- What the local values of a suspended operation of port M still mean (R124, R163, R164, R252): a sampled write index may
be old but only shows fewer bytes than there are (R76); a byte read is the one in the slot being released; a byte written
and not yet published leaves the queue not full; a `tip` sampled as 0 is still 0, and if it was 1 and is now 0 then the
completion that cleared it left the queue empty. -/
def SeqM.ok (p : SeqM) (s : State) : Prop :=
  match p with
  | .idle | .isEmptyA | .isEmptyB _ | .isFullA | .isFullB _ | .popA _ | .pollFeed _ _ | .tickA _ | .enq0 _ _ => True
  | .popB _ w => w < s.cfg.N ∧ distIdx s.cfg.N w s.rxR ≤ s.rxCount
  | .popC _ v => s.rxW ≠ s.rxR ∧ v = s.slot .rxs s.rxR
  | .enqA _ len count rest => BulkIdle s ∧ count + rest.length = len
  | .enqB _ len count next rest =>
    BulkIdle s ∧ next = incIdx s.cfg.T s.txW ∧ next ≠ s.txR ∧ count + 1 + rest.length = len
  | .enqD _ len count t =>
    BulkIdle s ∧ count ≤ len ∧ (t = false → s.tip = false) ∧ (t = true → s.tip = false → s.txW = s.txR)

/-- The invariants of the block's state (R25, R26, R46), with the storage arrays in canonical form and inside their
capacities, at every instant at which port I is idle and port M is idle or at a preemption point. -/
structure Consistent (s : State) : Prop where
  /-- the block was constructed with legal parameters (R284) -/
  cfg_wf : s.cfg.wf
  /-- R25 -/
  rxW_lt : s.rxW < s.cfg.N
  /-- R25 -/
  rxR_lt : s.rxR < s.cfg.N
  /-- R25 -/
  txW_lt : s.txW < s.cfg.T
  /-- R25 -/
  txR_lt : s.txR < s.cfg.T
  /-- R26, R46 (b) -/
  lfFill_lt : s.lfFill < s.cfg.M
  /-- canonical form and range of `rx_store` -/
  rx_mem : s.rxStore.wf ∧ s.rxStore.below s.cfg.N
  /-- canonical form and range of `lf_buf` -/
  lf_mem : s.lfBuf.wf ∧ s.lfBuf.below s.cfg.M
  /-- canonical form and range of `tx_store` -/
  tx_mem : s.txStore.wf ∧ s.txStore.below s.cfg.T
  /-- R46 (c) -/
  tip_iff : s.tip = true ↔ 1 ≤ s.txUlen
  /-- R46 (d) -/
  unit_le : s.txUlen ≤ s.txCount
  /-- R46 (e) -/
  byte_unit : s.cfg.txMode = .byte → s.txUlen ≤ 1
  /-- R46 (f) -/
  bulk_unit : s.cfg.txMode = .bulk → s.tip = true → s.txUlen = s.txCount
  /-- R46 (g): no byte is stranded -/
  idle_empty : s.tip = false → s.seqM.inEnqueue = false → s.txW = s.txR
  /-- the local values of the operation in progress on port M -/
  seq_ok : s.seqM.ok s

/-- The invariant of a run: `Consistent`, and port I's sequencer is idle between steps (R38, R251). -/
def Inv (s : State) : Prop := Consistent s ∧ s.seqI = .idle

/-- No slot that a rule may read is unwritten (R47): the slots between the indices of each ring, the message in progress,
and the slot an enqueue is about to publish. -/
structure Written (s : State) : Prop where
  rx : ∀ k < s.rxCount, (s.rxStore.read (addIdx s.cfg.N s.rxR k)).isSome = true
  line : ∀ k < s.lfFill, (s.lfBuf.read k).isSome = true
  tx : ∀ k < s.txCount, (s.txStore.read (addIdx s.cfg.T s.txR k)).isSome = true
  pending : ∀ c len count next rest, s.seqM = .enqB c len count next rest → (s.txStore.read s.txW).isSome = true

/-- Nothing from outside lands in the operation of port M: no input is to come, the reset input is low, and no complete
command waits on port I. -/
def Undisturbed (s : State) : Prop := s.inputs = [] ∧ s.resetIn = false ∧ commandReady s.portI = false

/-- The state in which port M begins a command: port I idle, port M idle. -/
def AtMain (s : State) : Prop := s.seqI = .idle ∧ s.seqM = .idle

/-- The state in which port I executes a command. -/
def AtInterrupt (s : State) : Prop := s.seqI = .executing

/-- The registers and arrays the interrupt context may not write (R23, R26, R28, R250) are the same in both states: `rx_r`,
the framer, `tx_store`, `tx_w`, `last_sent`, the operation in progress on port M and its responses. -/
def SameMainOwned (s t : State) : Prop :=
  t.rxR = s.rxR ∧ t.lfBuf = s.lfBuf ∧ t.lfFill = s.lfFill ∧ t.lfState = s.lfState ∧ t.txStore = s.txStore ∧
    t.txW = s.txW ∧ t.lastSent = s.lastSent ∧ t.seqM = s.seqM ∧ t.respM = s.respM

/-- The registers and arrays the main context may not write (R23, R28, R250) are the same in both states: `rx_store`, `rx_w`,
`tx_r`, `rxovf_cnt`, and the responses of port I. -/
def SameInterruptOwned (s t : State) : Prop :=
  t.rxStore = s.rxStore ∧ t.rxW = s.rxW ∧ t.txR = s.txR ∧ t.rxovfCnt = s.rxovfCnt ∧ t.respI = s.respI

/-- The slots of `tx_store` that no queued byte holds and an enqueue may use: from `tx_w` on, one slot short of `tx_r` (R24,
R69, R162). -/
def State.txFree (s : State) : List Nat := ringSlots s.cfg.T s.txW (s.cfg.T - 1 - s.txCount)

/-- Is the operation of port M a POLL, at any of its positions? -/
def SeqM.inPoll : SeqM → Bool
  | .popA (.poll _) | .popB (.poll _) _ | .popC (.poll _) _ | .pollFeed _ _ => true
  | .enq0 (.poll _) _ | .enqA (.poll _) _ _ _ | .enqB (.poll _) _ _ _ _ | .enqD (.poll _) _ _ _ => true
  | .idle | .isEmptyA | .isEmptyB _ | .isFullA | .isFullB _ | .tickA _ => false
  | .popA .pop | .popB .pop _ | .popC .pop _ => false
  | .enq0 .enq _ | .enqA .enq _ _ _ | .enqB .enq _ _ _ _ | .enqD .enq _ _ _ => false
  | .enq0 (.tick _) _ | .enqA (.tick _) _ _ _ | .enqB (.tick _) _ _ _ _ | .enqD (.tick _) _ _ _ => false

/-- May operation `i`, begun in state `s`, store in slot `k` of space `sp` (R20, R67)? -/
def MayStore (i : Instr) (s : State) (sp : Space) (k : Nat) : Prop :=
  match i with
  | .push _ | .rxbyte _ => sp = .rxs ∧ k = s.rxW
  | .feed _ => sp = .lfb ∧ k = s.lfFill
  | .enq _ | .tick _ => sp = .txs ∧ k ∈ s.txFree
  | .poll => (sp = .txs ∧ k ∈ s.txFree) ∨ sp = .lfb
  | .pop | .isempty | .isfull | .txdone | .rxfault | .txfault | .rdcsr _ | .reset | .start => False

/-! ### An enqueue and a POLL as one action each

What the action sequences of R141, R161 and R193 amount to when nothing from outside lands in them, written without the
sequencer: the reference the statements about undisturbed operations refine. -/

/-- The append loop of R161 run whole: the state after it and the count. -/
def appendWhole (bytes : List Byte) (s : State) : State × Nat :=
  match bytes with
  | [] => (s, 0)
  | b :: rest =>
    if ringFull s.cfg.T s.txW s.txR then (s, 0)
    else
      let r := appendWhole rest { s with txStore := s.txStore.write s.txW b, txW := incIdx s.cfg.T s.txW }
      (r.1, r.2 + 1)

/-- Step (d) of R161: the chain is started iff nothing is in flight and the queue is not empty. -/
def startWhole (s : State) : State :=
  if s.tip = false ∧ s.txW ≠ s.txR then
    State.emit { s with txUlen := unitLength s, tip := true } (.txUnit (s.txContents.take (unitLength s)))
  else s

/-- `enqueue(bytes)` (R161) run whole: the state after it, the status and the count. -/
def enqueueWhole (bytes : List Byte) (s : State) : State × Byte × Nat :=
  if s.cfg.txMode = .bulk ∧ s.tip = true then (s.flag .txbusy, stTxBusy, 0)
  else
    let r := appendWhole bytes s
    if r.2 = bytes.length then (startWhole r.1, stOk, r.2)
    else ((startWhole r.1).flag .txpartial, stTxPartial, r.2)

/-- FEED (R141) without storage checks. -/
def feedWhole (b : Byte) (s : State) : State × FeedResult :=
  if b = charCR then (s, .none)
  else if b = charLF then
    if 0 < s.lfFill then
      ({ s with lfBuf := s.lfBuf.write s.lfFill 0x00#8, lfFill := 0, lfState := .idle }, .msg s.lineContents)
    else ({ s with lfState := .idle }, .none)
  else if s.lfFill < s.cfg.M - 1 then
    ({ s with lfBuf := s.lfBuf.write s.lfFill b, lfFill := s.lfFill + 1 }, .none)
  else ({ s.flag .lineovf with lfFill := 0, lfState := .overflowed }, .overflow)

/-- What POLL does with one popped byte (R193 to R196), run whole. -/
def pollByteWhole (v : Byte) (r : State × PollLocals) : State × PollLocals :=
  let s := { r.1 with rxR := incIdx r.1.cfg.N r.1.rxR }
  let l := { r.2 with drained := r.2.drained + 1 }
  let f := feedWhole v s
  match f.2 with
  | .none => (f.1, l)
  | .msg m =>
    let q := enqueueWhole (replyFor f.1.cfg m) (emitGpio m f.1)
    (q.1, { l with dispatched := l.dispatched + 1, errors := l.errors ||| pollErrBit q.2.1 })
  | .overflow =>
    let q := enqueueWhole textTooLong f.1
    (q.1, { l with errors := (l.errors ||| 0x02#8) ||| pollErrBit q.2.1 })

/-- The drain loop of POLL (R193) over the bytes in the ring, run whole. -/
def pollWhole (bytes : List Byte) (r : State × PollLocals) : State × PollLocals :=
  match bytes with
  | [] => r
  | v :: rest => pollWhole rest (pollByteWhole v r)

/-- The states differ at most in what an enqueue may write (R161): `tx_store`, `tx_w`, `tip`, `tx_ulen`, `errflags`,
the output trace, the sequencer and responses of port M, and (for TICK) `last_sent`. -/
def SameButEnqueue (s t : State) : Prop :=
  t = { s with
    txStore := t.txStore, txW := t.txW, tip := t.tip, txUlen := t.txUlen, errflags := t.errflags, trace := t.trace,
    seqM := t.seqM, respM := t.respM, lastSent := t.lastSent }

/-- How many of `n` bytes fit the TX queue now (R162, R176). -/
def State.txRoom (s : State) (n : Nat) : Nat := min n (s.cfg.T - 1 - s.txCount)

/-- The effect of an accepted enqueue of `bytes` that is left alone (R161, R162, R164, R165): a prefix is appended; if
nothing was in flight and the queue is then not empty, one unit is issued, oldest bytes first; a short count sets
`TXPARTIAL`; every slot not appended to reads as before. -/
def Enqueued (bytes : List Byte) (s t : State) : Prop :=
  t.txContents = s.txContents ++ bytes.take (s.txRoom bytes.length) ∧
  t.txW = addIdx s.cfg.T s.txW (s.txRoom bytes.length) ∧
  (s.tip = true → t.tip = true ∧ t.txUlen = s.txUlen ∧ t.trace = s.trace) ∧
  (s.tip = false → t.txContents = [] → t.tip = false ∧ t.txUlen = s.txUlen ∧ t.trace = s.trace) ∧
  (s.tip = false → t.txContents ≠ [] →
    t.tip = true ∧ t.txUlen = (if s.cfg.txMode = .byte then 1 else t.txContents.length) ∧
      t.trace = s.trace ++ [.txUnit (t.txContents.take t.txUlen)]) ∧
  t.errflags = (if s.txRoom bytes.length = bytes.length then s.errflags else s.errflags ||| 0x04#8) ∧
  (∀ k, k ∉ ringSlots s.cfg.T s.txW (s.txRoom bytes.length) → t.txStore.read k = s.txStore.read k) ∧
  SameButEnqueue s t

/-- The response of an accepted enqueue of `n` bytes (R101, R165). -/
def enqueuedResponse (n : Nat) (s : State) : List Byte :=
  respEnqueue (if s.txRoom n = n then 0x00#8 else 0x83#8) (s.txRoom n)

/-! ### The transmit chain -/

/-- `k` completions delivered one after another (R172): each is a TXDONE executed on port I. -/
def completions (k : Nat) (s : State) : Result :=
  match k with
  | 0 => .next s
  | k + 1 => andThen (exec .txdone { s with seqI := .executing }) (completions k)

/-- The events of a chain of one-byte units (R172). -/
def byteUnits (bs : List Byte) : List Event := bs.map (fun b => Event.txUnit [b])

end Sys2Proof.Machine
end

