-- ==== Sys2Proof/Certificates/Slice0/Obligations.lean ====
section
/-!
DEFINITION. The statements for the provers. Each docstring names the rules of `spec/` it formalises, and the log entry of
a choice of the model where it rests on one.
-/

open Sys2Proof Sys2Proof.Machine

/-! ### Encoding -/

/-- Decoding the bytes of a well-formed operation gives the operation back, whatever follows on the port (R91, R92, R94,
R95, R108). -/
def Obligations.DecodeOfEncode : Prop :=
  ∀ (i : Instr) (rest : List Byte), i.wf = true → decode (encode i ++ rest) = .command i rest

/-- Every command the decoder reads is the encoding of the well-formed operation it answers: each byte sequence has one
meaning (R91 to R95). -/
def Obligations.EncodeOfDecode : Prop :=
  ∀ (bs : List Byte) (i : Instr) (rest : List Byte),
    decode bs = .command i rest → i.wf = true ∧ encode i ++ rest = bs

/-- Words of the opcode map, written out from R93 and R106, decode to the operations they stand for. -/
def Obligations.SpecWordsDecode : Prop :=
  decode [0x10#8, 0x41#8] = .command (.push 0x41#8) [] ∧
  decode [0x11#8] = .command .pop [] ∧
  decode [0x20#8, 0x70#8] = .command (.feed 0x70#8) [] ∧
  decode [0x30#8, 0x04#8, 0x00#8, 0x48#8, 0x69#8, 0x0D#8, 0x0A#8] =
    .command (.enq [0x48#8, 0x69#8, 0x0D#8, 0x0A#8]) [] ∧
  decode [0x31#8] = .command .txdone [] ∧
  decode [0x40#8, 0x48#8] = .command (.rxbyte 0x48#8) [] ∧
  decode [0x42#8, 0xE8#8, 0x03#8, 0x00#8, 0x00#8] = .command (.tick 1000#32) [] ∧
  decode [0x60#8, 0x07#8] = .command (.rdcsr 0x07#8) [] ∧
  decode [0xF0#8] = .command .reset [] ∧
  decode [0xF1#8] = .command .start []

/-- Operands are assembled as R94 says: the byte operand is byte 1; the time operand is `{t3, t2, t1, t0}`; the length of
ENQ is `{l1, l0}` and its string the bytes after it. -/
def Obligations.OperandAssembly : Prop :=
  (∀ (b : Byte) (rest : List Byte),
    decode (0x10#8 :: b :: rest) = .command (.push b) rest ∧ decode (0x20#8 :: b :: rest) = .command (.feed b) rest ∧
    decode (0x40#8 :: b :: rest) = .command (.rxbyte b) rest ∧ decode (0x60#8 :: b :: rest) = .command (.rdcsr b) rest) ∧
  (∀ (t0 t1 t2 t3 : Byte) (rest : List Byte), ∃ now : Word32,
    decode (0x42#8 :: t0 :: t1 :: t2 :: t3 :: rest) = .command (.tick now) rest ∧
    now.toNat = t0.toNat + 2 ^ 8 * t1.toNat + 2 ^ 16 * t2.toNat + 2 ^ 24 * t3.toNat) ∧
  (∀ (l0 l1 : Byte) (payload rest : List Byte), payload.length = l0.toNat + 2 ^ 8 * l1.toNat →
    decode (0x30#8 :: l0 :: l1 :: (payload ++ rest)) = .command (.enq payload) rest)

/-- Exactly the fifteen opcodes of R93 are assigned; a byte that is none of them is rejected as one byte, and decoding
resumes at the next (R95, R102, R104). -/
def Obligations.OnlyFifteenOpcodes : Prop :=
  ∀ (op : Byte) (rest : List Byte),
    (decode (op :: rest) = .illegal op rest ↔
      op.toNat ∉ [0x10, 0x11, 0x12, 0x13, 0x20, 0x30, 0x31, 0x40, 0x41, 0x42, 0x50, 0x51, 0x60, 0xF0, 0xF1])

/-! ### A step -/

/-- A step runs the operation decoded at the head of port I, whatever port M is doing: the arrival of the next input, the
command's bytes consumed, then `exec` in the interrupt context (R38, R90, R96, R252). That a waiting port-I command goes
first is the model's scheduling (log entry 3). -/
def Obligations.StepRunsPortI : Prop :=
  ∀ (s : State) (i : Instr) (rest : List Byte), s.seqI = .idle → i.wf = true → s.arrive.resetIn = false →
    s.arrive.portI = encode i ++ rest →
    step s = exec i { s.arrive with portI := rest, seqI := .executing }

/-- A step runs the operation decoded at the head of port M when port M is idle and no command is complete on port I (R38,
R90, R96, R253; the order between the ports is log entry 3). -/
def Obligations.StepRunsPortM : Prop :=
  ∀ (s : State) (i : Instr) (rest : List Byte), s.seqI = .idle → s.seqM = .idle → i.wf = true →
    s.arrive.resetIn = false → commandReady s.arrive.portI = false → s.arrive.portM = encode i ++ rest →
    step s = exec i { s.arrive with portM := rest }

/-- A suspended operation of port M goes on where it stands, with its local values, once no port-I command is waiting (R253):
the step performs its next atomic action, and then, unless the operation has ended or must give way, all its further actions
up to the count of log entry 14, `mainCost` less the one just taken. Left alone, the resumed operation reaches its one
response within that step (R99, R304). What arrives at each preemption point is log entry 3. -/
def Obligations.StepResumes : Prop :=
  ∀ (s : State), Inv s → s.seqM.isIdle = false →
    (s.arrive.resetIn = false → commandReady s.arrive.portI = false →
      ∃ t, mainAction s.arrive = .next t ∧
        step s = if t.seqM.isIdle then .next t
          else if t.arrive.preempted then .next t.arrive
          else runMain (mainCost s.arrive - 1) t.arrive) ∧
    (Undisturbed s → ∃ t r, step s = .next t ∧ t.seqM = .idle ∧ t.respM = s.respM ++ [r] ∧ t.respI = s.respI)

/-- R104: an unassigned opcode at the head of a port is a command of one byte; `ILLEGAL` is set, nothing else changes, no
event is emitted, and the response `[8F]` goes to that port. -/
def Obligations.UnassignedOpcodeAnswersIllegalOp : Prop :=
  ∀ (s : State) (op : Byte) (rest : List Byte), s.seqI = .idle → s.arrive.resetIn = false →
    Opcode.ofByte op = none →
    (s.arrive.portI = op :: rest →
      step s = .next { s.arrive with
        portI := rest, errflags := s.errflags ||| 0x40#8, respI := s.respI ++ [[0x8F#8]] }) ∧
    (commandReady s.arrive.portI = false → s.seqM = .idle → s.arrive.portM = op :: rest →
      step s = .next { s.arrive with
        portM := rest, errflags := s.errflags ||| 0x40#8, respM := s.respM ++ [[0x8F#8]] })

/-- R105: an assigned opcode on a port that does not allow it: the whole command is consumed, the operation is not
executed, `ILLEGAL` is set, nothing else changes, and the response is `[8E]`. -/
def Obligations.WrongPortAnswersIllegalCtx : Prop :=
  ∀ (s : State) (i : Instr) (rest : List Byte), s.seqI = .idle → s.arrive.resetIn = false → i.wf = true →
    (i.opcode.allowedOn .I = false → s.arrive.portI = encode i ++ rest →
      step s = .next { s.arrive with
        portI := rest, errflags := s.errflags ||| 0x40#8, respI := s.respI ++ [[0x8E#8]] }) ∧
    (i.opcode.allowedOn .M = false → commandReady s.arrive.portI = false → s.seqM = .idle →
      s.arrive.portM = encode i ++ rest →
      step s = .next { s.arrive with
        portM := rest, errflags := s.errflags ||| 0x40#8, respM := s.respM ++ [[0x8E#8]] })

/-- R96: with no complete command on either port and no operation in progress the block holds the received bytes and
executes nothing; that such a step is a next state is the model's choice (log entry 15). -/
def Obligations.IncompleteCommandWaits : Prop :=
  ∀ (s : State), s.seqI = .idle → s.seqM = .idle → s.arrive.resetIn = false → decode s.arrive.portI = .incomplete →
    decode s.arrive.portM = .incomplete → step s = .next s.arrive

/-! ### Reset -/

/-- The reset values of R45, for every construction: indices, fill, flags, counters 0, framer Idle, both sequencers idle,
nothing in the output trace; no slot of the storage arrays is assumed to hold any value; `STATUS` reads 0x05. -/
def Obligations.ResetValues : Prop :=
  ∀ (c : Config), c.wf →
    let s := State.resetWith c
    s.cfg = c ∧ s.rxW = 0 ∧ s.rxR = 0 ∧ s.txW = 0 ∧ s.txR = 0 ∧ s.lfFill = 0 ∧ s.lfState = .idle ∧ s.tip = false ∧
      s.txUlen = 0 ∧ s.rxArmed = false ∧ s.errflags = 0#8 ∧ s.rxovfCnt = 0#32 ∧ s.lastSent = 0#32 ∧
      s.seqI = .idle ∧ s.seqM = .idle ∧ s.trace = [] ∧ s.status = 0x05#8 ∧
      (∀ sp k, (s.store sp).read k = none) ∧ (∀ sp k, s.slot sp k = Config.freeByte sp k)

/-- RESET on port M (R220): every register at its reset value, the storage arrays and the parameters as they were, no event,
response `[00]`. That the output trace and the responses so far are kept is the model's reading (log entry 5). -/
def Obligations.ResetOperation : Prop :=
  ∀ (s : State), AtMain s →
    exec .reset s = .next { s with
      rxW := 0, rxR := 0, lfFill := 0, lfState := .idle, txW := 0, txR := 0, tip := false, txUlen := 0, rxArmed := false,
      errflags := 0#8, rxovfCnt := 0#32, lastSent := 0#32, respM := s.respM ++ [[0x00#8]] }

/-- The hardware reset input (R220, R280, R281): the same register values, storage and parameters kept, both sequencers idle,
partly received commands discarded (each port keeps the whole commands it has received), no response. What becomes of whole
commands not yet begun is the model's reading (log entry 6); that the input acts at the next scheduling point and is then low
is log entry 7; that the output trace and the responses given so far are kept is log entry 5. -/
def Obligations.HardwareResetInput : Prop :=
  ∀ (s : State), s.seqI = .idle → s.arrive.resetIn = true →
    step s = .next { s.arrive with
      rxW := 0, rxR := 0, lfFill := 0, lfState := .idle, txW := 0, txR := 0, tip := false, txUlen := 0, rxArmed := false,
      errflags := 0#8, rxovfCnt := 0#32, lastSent := 0#32, seqI := .idle, seqM := .idle,
      portI := wholeCommands s.arrive.portI, portM := wholeCommands s.arrive.portM, resetIn := false }

/-- What follows a run of whole commands on a port, when it is not itself a whole command, is the partly received command that
the reset input discards (R96, R220). The whole commands are those of R92 to R95 and the one-byte commands of R104; that
exactly they are kept is the model's choice (log entry 6). -/
def Obligations.PartialCommandDiscarded : Prop :=
  ∀ (cs : List (List Byte)) (tail : List Byte),
    (∀ c ∈ cs, (∃ i : Instr, i.wf = true ∧ c = encode i) ∨ (∃ op, Opcode.ofByte op = none ∧ c = [op])) →
    decode tail = .incomplete → wholeCommands (cs.flatten ++ tail) = cs.flatten

/-! ### RX ring -/

/-- PUSH on port I (R121): when the ring is full the byte is dropped, `RXOVF` set, `rxovf_cnt` incremented with saturation,
response `[81]`; otherwise the byte is written at `rx_w`, `rx_w` advances, response `[00]`. Nothing else changes. -/
def Obligations.PushResult : Prop :=
  ∀ (s : State) (b : Byte), AtInterrupt s → s.rxW < s.cfg.N →
    exec (.push b) s = .next
      (if incIdx s.cfg.N s.rxW = s.rxR then
        { s with
          errflags := s.errflags ||| 0x01#8,
          rxovfCnt := if s.rxovfCnt = 0xFFFFFFFF#32 then 0xFFFFFFFF#32 else s.rxovfCnt + 1#32,
          seqI := .idle, respI := s.respI ++ [[0x81#8]] }
      else
        { s with
          rxStore := s.rxStore.write s.rxW b, rxW := incIdx s.cfg.N s.rxW, seqI := .idle,
          respI := s.respI ++ [[0x00#8]] })

/-- POP left alone (R123): of a ring that is not empty, the oldest byte is answered and `rx_r` advances; of an empty ring,
`NONE`. Nothing else changes. -/
def Obligations.PopResult : Prop :=
  ∀ (s : State), AtMain s → Undisturbed s → s.rxR < s.cfg.N →
    exec .pop s = .next
      (if s.rxW = s.rxR then { s with respM := s.respM ++ [[0x01#8]] }
      else { s with rxR := incIdx s.cfg.N s.rxR, respM := s.respM ++ [[0x00#8, s.slot .rxs s.rxR]] })

/-- ISEMPTY (R125) on port I, and on port M left alone: the answer is the truth, and nothing else changes. -/
def Obligations.IsEmptyAnswers : Prop :=
  ∀ (s : State),
    (AtInterrupt s → exec .isempty s = .next { s with
      seqI := .idle, respI := s.respI ++ [[0x00#8, if s.rxW = s.rxR then 0x01#8 else 0x00#8]] }) ∧
    (AtMain s → Undisturbed s → exec .isempty s = .next { s with
      respM := s.respM ++ [[0x00#8, if s.rxW = s.rxR then 0x01#8 else 0x00#8]] })

/-- ISFULL (R126) on port I, and on port M left alone: the answer is the truth, and nothing else changes. -/
def Obligations.IsFullAnswers : Prop :=
  ∀ (s : State),
    (AtInterrupt s → exec .isfull s = .next { s with
      seqI := .idle, respI := s.respI ++ [[0x00#8, if incIdx s.cfg.N s.rxW = s.rxR then 0x01#8 else 0x00#8]] }) ∧
    (AtMain s → Undisturbed s → exec .isfull s = .next { s with
      respM := s.respM ++ [[0x00#8, if incIdx s.cfg.N s.rxW = s.rxR then 0x01#8 else 0x00#8]] })

/-- R252, R38 on POP: if a port-I command is complete (or the reset input raised) at the first preemption point, POP gives
way exactly there, its local value `w` kept, and nothing else has happened. That it gives way then is the model's scheduling
(log entries 3 and 7). -/
def Obligations.PopGivesWay : Prop :=
  ∀ (s : State), AtMain s → s.arrive.preempted = true →
    exec .pop s = .next { s.arrive with seqM := .popB .pop s.rxW }

/-- R124: a command of port I that runs while POP or POLL is about to release a slot leaves that slot, the read index and the
byte taken as they were: the byte answered later is the byte in the slot released. -/
def Obligations.SlotBeingPoppedIsSafe : Prop :=
  ∀ (s t : State) (i : Instr) (c : PopCaller) (v : Byte), Consistent s → AtInterrupt s → s.seqM = .popC c v →
    exec i s = .next t → t.seqM = .popC c v ∧ t.rxR = s.rxR ∧ t.rxW ≠ t.rxR ∧ t.slot .rxs t.rxR = v

/-! ### Line framer -/

/-- R142: FEED of `\r` changes nothing; the response is `NONE`. -/
def Obligations.FeedCarriageReturn : Prop :=
  ∀ (s : State), AtMain s → exec (.feed 0x0D#8) s = .next { s with respM := s.respM ++ [[0x01#8]] }

/-- R143: FEED of an ordinary byte with room: written at slot `lf_fill`, `lf_fill` incremented, response `NONE`. -/
def Obligations.FeedAppends : Prop :=
  ∀ (s : State) (b : Byte), AtMain s → b ≠ 0x0D#8 → b ≠ 0x0A#8 → s.lfFill < s.cfg.M - 1 →
    exec (.feed b) s = .next { s with
      lfBuf := s.lfBuf.write s.lfFill b, lfFill := s.lfFill + 1, respM := s.respM ++ [[0x01#8]] }

/-- R144: FEED of an ordinary byte at `lf_fill == M-1`: the whole line is discarded with the byte, `lf_state` Overflowed,
`LINEOVF` set, `lf_buf` kept, response `LINE_OVERFLOW`; nothing is enqueued. -/
def Obligations.FeedOverflows : Prop :=
  ∀ (s : State) (b : Byte), AtMain s → b ≠ 0x0D#8 → b ≠ 0x0A#8 → s.lfFill = s.cfg.M - 1 →
    exec (.feed b) s = .next { s with
      lfFill := 0, lfState := .overflowed, errflags := s.errflags ||| 0x02#8, respM := s.respM ++ [[0x82#8]] }

/-- R145: FEED of `\n` with a message in progress: 0x00 written at slot `n`, the `n` bytes answered with their length,
`lf_fill` 0, `lf_state` Idle. -/
def Obligations.FeedCompletesMessage : Prop :=
  ∀ (s : State), AtMain s → 0 < s.lfFill → s.lfFill < s.cfg.M →
    exec (.feed 0x0A#8) s = .next { s with
      lfBuf := s.lfBuf.write s.lfFill 0x00#8, lfFill := 0, lfState := .idle,
      respM := s.respM ++ [[0x02#8, BitVec.ofNat 8 s.lfFill, BitVec.ofNat 8 (s.lfFill / 256)] ++
        (List.range s.lfFill).map (s.slot .lfb)] }

/-- R146: FEED of `\n` with nothing in progress: `lf_state` Idle, nothing written, response `NONE`. -/
def Obligations.FeedBlankLine : Prop :=
  ∀ (s : State), AtMain s → s.lfFill = 0 →
    exec (.feed 0x0A#8) s = .next { s with lfState := .idle, respM := s.respM ++ [[0x01#8]] }

/-! ### TX queue -/

/-- ENQ that is not rejected and is left alone (R161, R162, R164, R165, R176): a prefix is appended, as long as the free space
allows; the chain is started iff nothing was in flight; the response carries the count. -/
def Obligations.EnqAppendsAndStarts : Prop :=
  ∀ (s : State) (bytes : List Byte), Inv s → AtMain s → Undisturbed s → ¬ (s.cfg.txMode = .bulk ∧ s.tip = true) →
    ∃ t, exec (.enq bytes) s = .next t ∧ Enqueued bytes s t ∧ t.seqM = .idle ∧ t.lastSent = s.lastSent ∧
      t.respM = s.respM ++ [enqueuedResponse bytes.length s]

/-- R175: in bulk mode an enqueue with a transfer in flight is rejected: nothing is written, `TXBUSY` is set, response
`[84 00 00]`, also for the empty string. -/
def Obligations.EnqRejectedBusy : Prop :=
  ∀ (s : State) (bytes : List Byte), AtMain s → s.cfg.txMode = .bulk → s.tip = true →
    exec (.enq bytes) s = .next { s with
      errflags := s.errflags ||| 0x08#8, respM := s.respM ++ [[0x84#8, 0x00#8, 0x00#8]] }

/-- TXDONE of a genuine completion (R170): the unit in flight leaves the queue; if the queue is now empty transmission ends,
else the next unit (one byte, or all that is queued in bulk mode) is issued and `tip` stays 1. -/
def Obligations.TxdoneContinuesOrEnds : Prop :=
  ∀ (s : State), AtInterrupt s → 0 < s.cfg.T → s.tip = true →
    exec .txdone s = .next
      (let r := (s.txR + s.txUlen) % s.cfg.T
       if s.txW = r then
         { s with txR := r, tip := false, txUlen := 0, seqI := .idle, respI := s.respI ++ [[0x00#8]] }
       else
         let u := if s.cfg.txMode = .byte then 1 else distIdx s.cfg.T s.txW r
         { s with
           txR := r, tip := true, txUlen := u,
           trace := s.trace ++ [.txUnit ((List.range u).map fun k => s.slot .txs ((r + k) % s.cfg.T))],
           seqI := .idle, respI := s.respI ++ [[0x00#8]] })

/-- R171: TXDONE with nothing in flight sets `SPURIOUS`, changes nothing else, emits nothing, and responds
`SPURIOUS_DONE`. -/
def Obligations.TxdoneSpurious : Prop :=
  ∀ (s : State), AtInterrupt s → s.tip = false →
    exec .txdone s = .next { s with
      errflags := s.errflags ||| 0x80#8, seqI := .idle, respI := s.respI ++ [[0x86#8]] }

/-- The chain property in byte mode (R172): with `k` bytes queued and the oldest in flight, `k` completions issue the other
bytes one by one, in order, and leave `tip` 0 and the queue empty, whatever operation stands suspended on port M, an enqueue
in the middle of its append included. -/
def Obligations.ByteChainDrainsInOrder : Prop :=
  ∀ (s : State) (k : Nat), Inv s → s.cfg.txMode = .byte → s.tip = true → s.txCount = k →
    ∃ t, completions k s = .next t ∧ t.tip = false ∧ t.txUlen = 0 ∧ t.txContents = [] ∧ t.txW = s.txW ∧
      t.trace = s.trace ++ byteUnits (s.txContents.drop 1)

/-- In bulk mode a genuine completion always empties the queue and ends transmission (R174, R176): the next unit of R170's
else-branch is never issued. -/
def Obligations.BulkCompletionEmpties : Prop :=
  ∀ (s : State), Consistent s → AtInterrupt s → s.cfg.txMode = .bulk → s.tip = true →
    ∃ t, exec .txdone s = .next t ∧ t.tip = false ∧ t.txUlen = 0 ∧ t.txContents = [] ∧ t.trace = s.trace

/-! ### Session -/

/-- RXBYTE (R191): not armed, `NOT_ARMED` and nothing changes; armed, the state changes and status of PUSH, one `ARM_RX`
event, and `rx_armed` stays 1. -/
def Obligations.RxbyteResult : Prop :=
  ∀ (s : State) (b : Byte), AtInterrupt s → s.rxW < s.cfg.N →
    exec (.rxbyte b) s = .next
      (if s.rxArmed = false then { s with seqI := .idle, respI := s.respI ++ [[0x87#8]] }
      else if incIdx s.cfg.N s.rxW = s.rxR then
        { s with
          errflags := s.errflags ||| 0x01#8,
          rxovfCnt := if s.rxovfCnt = 0xFFFFFFFF#32 then 0xFFFFFFFF#32 else s.rxovfCnt + 1#32,
          trace := s.trace ++ [.armRx], seqI := .idle, respI := s.respI ++ [[0x81#8]] }
      else
        { s with
          rxStore := s.rxStore.write s.rxW b, rxW := incIdx s.cfg.N s.rxW, trace := s.trace ++ [.armRx],
          seqI := .idle, respI := s.respI ++ [[0x00#8]] })

/-- POLL left alone (R193 to R196, R200) is the loop "pop the oldest byte, feed it, dispatch the message or enqueue the
diagnostic" over exactly the bytes in the ring, each step with its state changes whole, answered with the counts and the
error byte. That an overflowing byte is dropped (D8) and that a cut or rejected reply is not retried (D15) are decisions of
the spec's own (log entry 16). -/
def Obligations.PollDrainsFramesDispatches : Prop :=
  ∀ (s : State), Inv s → AtMain s → Undisturbed s →
    exec .poll s = .next
      (let r := pollWhole s.rxContents (s, ⟨0, 0, 0#8⟩)
       { r.1 with
         respM := s.respM ++ [[0x00#8, BitVec.ofNat 8 r.2.drained, BitVec.ofNat 8 (r.2.drained / 256),
           BitVec.ofNat 8 r.2.dispatched, BitVec.ofNat 8 (r.2.dispatched / 256), r.2.errors]] })

/-- What POLL leaves behind (R193, R194, R201): the ring empty, `rx_r` moved up to `rx_w`, as many bytes counted as the ring
held, and every register and array that is not a consumer's or the framer's or the transmit side's as before. -/
def Obligations.PollEmptiesRing : Prop :=
  ∀ (s : State), Inv s → AtMain s → Undisturbed s →
    ∃ t g e, exec .poll s = .next t ∧ t.rxR = s.rxW ∧ t.rxContents = [] ∧
      t.respM = s.respM ++ [[0x00#8, BitVec.ofNat 8 s.rxCount, BitVec.ofNat 8 (s.rxCount / 256),
        BitVec.ofNat 8 g, BitVec.ofNat 8 (g / 256), e]] ∧
      t = { s with
        rxR := t.rxR, lfBuf := t.lfBuf, lfFill := t.lfFill, lfState := t.lfState, txStore := t.txStore, txW := t.txW,
        tip := t.tip, txUlen := t.txUlen, errflags := t.errflags, trace := t.trace, respM := t.respM }

/-- The replies of R196 and R199, seen through POLL: the ring holds one `\n`, the line in progress is `msg`, the queue is idle
and the reply fits. POLL then enqueues exactly the reply (preceded by the GPIO event for `led on` and `led off` in command
mode), issues its first unit and answers one byte drained, one message, no error. -/
def Obligations.PollAnswersEachLine : Prop :=
  ∀ (s : State), Inv s → AtMain s → Undisturbed s → s.rxContents = [0x0A#8] → 0 < s.lfFill → s.tip = false →
    let answers := fun (reply : List Byte) (ev : List Event) =>
      reply.length ≤ s.cfg.T - 1 →
        ∃ t, exec .poll s = .next t ∧ t.txContents = reply ∧ t.tip = true ∧ t.lfFill = 0 ∧ t.errflags = s.errflags ∧
          t.trace = s.trace ++ ev ++ [.txUnit (reply.take (if s.cfg.txMode = .byte then 1 else reply.length))] ∧
          t.respM = s.respM ++ [[0x00#8, 0x01#8, 0x00#8, 0x01#8, 0x00#8, 0x00#8]]
    (s.lineContents = textHeartbeat → answers textHeartbeatReply []) ∧
    (s.lineContents ≠ textHeartbeat → s.cfg.dispatchMode = .echo → answers textEcho []) ∧
    (s.cfg.dispatchMode = .command →
      (s.lineContents = textHelp → answers s.cfg.replyHelp []) ∧
      (s.lineContents = textLedOn → answers s.cfg.replyLedOn [.gpio s.cfg.ledPin true]) ∧
      (s.lineContents = textLedOff → answers s.cfg.replyLedOff [.gpio s.cfg.ledPin false]) ∧
      (s.lineContents = textPing → answers s.cfg.replyPing []) ∧
      (s.lineContents = textVersion → answers s.cfg.replyVersion []) ∧
      (s.lineContents ∉ [textHeartbeat, textHelp, textLedOn, textLedOff, textPing, textVersion] →
        answers textUnknown []))

/-- R195: a line overflow in POLL enqueues the 21-byte diagnostic, sets bit 1 of the error byte, and dispatches no
message. That the overflowing byte is dropped is the spec's decision D8 (log entry 16). -/
def Obligations.PollReportsLineOverflow : Prop :=
  ∀ (s : State) (b : Byte), Inv s → AtMain s → Undisturbed s → s.rxContents = [b] → b ≠ 0x0D#8 → b ≠ 0x0A#8 →
    s.lfFill = s.cfg.M - 1 → s.tip = false → 21 ≤ s.cfg.T - 1 →
    ∃ t, exec .poll s = .next t ∧ t.txContents = textTooLong ∧ t.lfFill = 0 ∧ t.lfState = .overflowed ∧
      t.errflags = s.errflags ||| 0x02#8 ∧
      t.respM = s.respM ++ [[0x00#8, 0x01#8, 0x00#8, 0x00#8, 0x00#8, 0x02#8]]

/-- TICK that is due and not rejected, left alone (R203, R204): the effect and response of an enqueue of `STATUS_MSG`, and
`last_sent` becomes `now`. Due: `(now - last_sent) mod 2^32 >= INTERVAL`. -/
def Obligations.TickDueSendsStatus : Prop :=
  ∀ (s : State) (now : Word32), Inv s → AtMain s → Undisturbed s → ¬ (s.cfg.txMode = .bulk ∧ s.tip = true) →
    s.cfg.interval.toNat ≤ (now.toNat + (2 ^ 32 - s.lastSent.toNat)) % 2 ^ 32 →
    ∃ t, exec (.tick now) s = .next t ∧ Enqueued s.cfg.statusMsg s t ∧ t.seqM = .idle ∧ t.lastSent = now ∧
      t.respM = s.respM ++ [enqueuedResponse s.cfg.statusMsg.length s]

/-- TICK that is not due (R203): `NONE`, and nothing changes. TICK that is due while a bulk transfer is in flight: `TX_BUSY`,
and `last_sent` becomes `now` all the same. -/
def Obligations.TickNotDueOrBusy : Prop :=
  ∀ (s : State) (now : Word32), AtMain s →
    ((now.toNat + (2 ^ 32 - s.lastSent.toNat)) % 2 ^ 32 < s.cfg.interval.toNat →
      exec (.tick now) s = .next { s with respM := s.respM ++ [[0x01#8]] }) ∧
    (s.cfg.interval.toNat ≤ (now.toNat + (2 ^ 32 - s.lastSent.toNat)) % 2 ^ 32 → s.cfg.txMode = .bulk → s.tip = true →
      exec (.tick now) s = .next { s with
        errflags := s.errflags ||| 0x08#8, lastSent := now, respM := s.respM ++ [[0x84#8, 0x00#8, 0x00#8]] })

/-! ### System -/

/-- START (R223): arms the receiver and emits `ARM_RX` iff it was not armed; response `[00]`; nothing else changes. -/
def Obligations.StartArmsOnce : Prop :=
  ∀ (s : State), AtMain s →
    exec .start s = .next
      (if s.rxArmed = false then
        { s with rxArmed := true, trace := s.trace ++ [.armRx], respM := s.respM ++ [[0x00#8]] }
      else { s with respM := s.respM ++ [[0x00#8]] })

/-- RDCSR (R40, R226) of each assigned number, on either port: the value of that register, zero-extended, least significant
byte first; no state changes. -/
def Obligations.RdcsrReadsEachRegister : Prop :=
  ∀ (s : State) (a : Byte) (v : Word32),
    (a, v) ∈ ([(0x00#8, BitVec.ofNat 32 s.rxW), (0x01#8, BitVec.ofNat 32 s.rxR), (0x02#8, BitVec.ofNat 32 s.lfFill),
      (0x03#8, if s.lfState = .overflowed then 1#32 else 0#32), (0x04#8, BitVec.ofNat 32 s.txW),
      (0x05#8, BitVec.ofNat 32 s.txR), (0x06#8, if s.tip then 1#32 else 0#32), (0x07#8, s.status.setWidth 32),
      (0x08#8, s.errflags.setWidth 32), (0x09#8, s.rxovfCnt), (0x0A#8, s.lastSent),
      (0x0B#8, BitVec.ofNat 32 s.txUlen), (0x0C#8, if s.rxArmed then 1#32 else 0#32),
      (0x10#8, BitVec.ofNat 32 s.cfg.N), (0x11#8, BitVec.ofNat 32 s.cfg.M), (0x12#8, BitVec.ofNat 32 s.cfg.T),
      (0x13#8, s.cfg.interval),
      (0x14#8, (if s.cfg.txMode = .bulk then 1#32 else 0#32) + (if s.cfg.dispatchMode = .command then 2#32 else 0#32)),
      (0x15#8, s.cfg.ledPin.setWidth 32)] : List (Byte × Word32)) →
    let r := [0x00#8, v.extractLsb' 0 8, v.extractLsb' 8 8, v.extractLsb' 16 8, v.extractLsb' 24 8]
    (AtInterrupt s → exec (.rdcsr a) s = .next { s with seqI := .idle, respI := s.respI ++ [r] }) ∧
    (AtMain s → exec (.rdcsr a) s = .next { s with respM := s.respM ++ [r] })

/-- R227: RDCSR of an unassigned number (0x0D to 0x0F, 0x16 to 0xFF) responds `[8D]`, changes no state and sets no flag. -/
def Obligations.RdcsrUnassigned : Prop :=
  ∀ (s : State) (a : Byte), (0x0D ≤ a.toNat ∧ a.toNat ≤ 0x0F ∨ 0x16 ≤ a.toNat) →
    (AtInterrupt s → exec (.rdcsr a) s = .next { s with seqI := .idle, respI := s.respI ++ [[0x8D#8]] }) ∧
    (AtMain s → exec (.rdcsr a) s = .next { s with respM := s.respM ++ [[0x8D#8]] })

/-- R41: the bits of `STATUS`, in every state, and its value after reset. -/
def Obligations.StatusBits : Prop :=
  (∀ c : Config, c.wf → (State.resetWith c).status = 0x05#8) ∧
  ∀ (s : State),
    s.status.getLsbD 0 = decide (s.rxW = s.rxR) ∧ s.status.getLsbD 1 = decide (incIdx s.cfg.N s.rxW = s.rxR) ∧
    s.status.getLsbD 2 = decide (s.txW = s.txR) ∧ s.status.getLsbD 3 = decide (incIdx s.cfg.T s.txW = s.txR) ∧
    s.status.getLsbD 4 = s.tip ∧ s.status.getLsbD 5 = s.rxArmed ∧
    s.status.getLsbD 6 = decide (s.lfState = .overflowed) ∧ s.status.getLsbD 7 = decide (0 < s.lfFill)

/-- RXFAULT (R229): not armed, `NOT_ARMED` and nothing changes; armed, `RXFAULT` set, `FAULT_UP(RX)` then `ARM_RX` emitted,
the receiver stays armed, response `[85]`; the ring and the framer are not touched. -/
def Obligations.RxfaultResult : Prop :=
  ∀ (s : State), AtInterrupt s →
    exec .rxfault s = .next
      (if s.rxArmed = false then { s with seqI := .idle, respI := s.respI ++ [[0x87#8]] }
      else
        { s with
          errflags := s.errflags ||| 0x10#8, rxArmed := true, trace := s.trace ++ [.faultUp .rx, .armRx], seqI := .idle,
          respI := s.respI ++ [[0x85#8]] })

/-- TXFAULT (R231): with nothing in flight, as a spurious TXDONE; else `TXFAULT` set, `FAULT_UP(TX)` emitted, the unit in flight
discarded and not retried, and the chain ends or goes on with the bytes behind it; response `[85]`. -/
def Obligations.TxfaultResult : Prop :=
  ∀ (s : State), AtInterrupt s → 0 < s.cfg.T →
    exec .txfault s = .next
      (let r := (s.txR + s.txUlen) % s.cfg.T
       if s.tip = false then
         { s with errflags := s.errflags ||| 0x80#8, seqI := .idle, respI := s.respI ++ [[0x86#8]] }
       else if s.txW = r then
         { s with
           errflags := s.errflags ||| 0x20#8, trace := s.trace ++ [.faultUp .tx], txR := r, tip := false, txUlen := 0,
           seqI := .idle, respI := s.respI ++ [[0x85#8]] }
       else
         let u := if s.cfg.txMode = .byte then 1 else distIdx s.cfg.T s.txW r
         { s with
           errflags := s.errflags ||| 0x20#8,
           trace := s.trace ++
             [.faultUp .tx, .txUnit ((List.range u).map fun k => s.slot .txs ((r + k) % s.cfg.T))],
           txR := r, tip := true, txUlen := u, seqI := .idle, respI := s.respI ++ [[0x85#8]] })

/-! ### The whole machine -/

/-- Reset of a legally constructed block meets the invariant, and reads no slot that was not written (R45 to R47). -/
def Obligations.ResetMeetsInvariant : Prop :=
  (∀ c : Config, c.wf → Inv (State.resetWith c) ∧ Written (State.resetWith c)) ∧ Inv State.reset ∧ Written State.reset

/-- Every step keeps the invariant (R25, R26, R46): index ranges, fill, the tie between `tip`, `tx_ulen` and the queue, no
stranded byte when both sequencers are idle, at every instant a step ends, suspended operations included. -/
def Obligations.StepKeepsInvariant : Prop :=
  ∀ s t : State, Inv s → step s = .next t → Inv t

/-- No step from a state that meets the invariant stops: no storage access is ever out of range (R64, R68), and no error stops
the block (R240, R242). -/
def Obligations.StepNeverStops : Prop :=
  ∀ s : State, Inv s → ∃ t, step s = .next t

/-- No slot is read before it is written (R47): every step keeps the slots a rule may read written. -/
def Obligations.StepKeepsWritten : Prop :=
  ∀ s t : State, Inv s → Written s → step s = .next t → Written t

/-- FIFO and at-most-once on the RX ring (R77, R128), at every step: the bytes in the ring afterwards are those before less
some of the oldest, or those before with one byte added at the end. -/
def Obligations.RxFifoAtEveryStep : Prop :=
  ∀ s t : State, Inv s → step s = .next t →
    (∃ k, t.rxContents = s.rxContents.drop k) ∨ (∃ b, t.rxContents = s.rxContents ++ [b])

/-- FIFO on the TX queue (R69, R77, R162), at every step: the bytes queued afterwards are those before less some of the oldest,
or those before with bytes added at the end; no queued byte, in flight or not, is overwritten. -/
def Obligations.TxFifoAtEveryStep : Prop :=
  ∀ s t : State, Inv s → step s = .next t →
    (∃ k, t.txContents = s.txContents.drop k) ∨ (∃ bs, t.txContents = s.txContents ++ bs)

/-- A command executed on port I writes nothing the main context owns, and leaves the operation in progress on port M where it
is (R23, R28, R250, R253, R291). -/
def Obligations.InterruptContextOwnership : Prop :=
  ∀ (i : Instr) (s t : State), AtInterrupt s → exec i s = .next t → SameMainOwned s t

/-- A command begun or resumed on port M writes nothing the interrupt context owns, never clears `tip`, never changes `tx_ulen`
while a unit is in flight, and changes `rx_armed` only by START; RESET is the one exception (R23, R28, R29, R250, R291). -/
def Obligations.MainContextOwnership : Prop :=
  ∀ (s t : State), Inv s →
    (∀ i : Instr, AtMain s → i ≠ .reset → exec i s = .next t →
      SameInterruptOwned s t ∧ (s.tip = true → t.tip = true ∧ t.txUlen = s.txUlen) ∧
        (i ≠ .start → t.rxArmed = s.rxArmed)) ∧
    (s.seqM.isIdle = false → resumeMain s = .next t →
      SameInterruptOwned s t ∧ (s.tip = true → t.tip = true ∧ t.txUlen = s.txUlen) ∧ t.rxArmed = s.rxArmed)

/-- The error flags are sticky (R32, R42): no operation but RESET clears one, on either port, and neither does an operation of
port M that is resumed. -/
def Obligations.ErrorFlagsAreSticky : Prop :=
  ∀ (s t : State),
    (∀ i : Instr, Consistent s → AtMain s ∨ AtInterrupt s → i ≠ .reset → exec i s = .next t →
      s.errflags ||| t.errflags = t.errflags) ∧
    (Inv s → s.seqM.isIdle = false → resumeMain s = .next t → s.errflags ||| t.errflags = t.errflags)

/-- The parameters are fixed at construction (R6, R281): no step changes them. -/
def Obligations.ParametersAreFixed : Prop :=
  ∀ s t : State, Inv s → step s = .next t → t.cfg = s.cfg

/-- Every command gives exactly one response, on its own port (R99): a command of port I within its step (R251), and a command
of port M that is left alone within its step (R304), after which its sequencer is idle. -/
def Obligations.EveryCommandAnswersOnce : Prop :=
  ∀ (i : Instr) (s : State), Consistent s →
    (AtInterrupt s → ∃ t r, exec i s = .next t ∧ t.seqI = .idle ∧ t.respI = s.respI ++ [r] ∧ t.respM = s.respM) ∧
    (AtMain s → Undisturbed s →
      ∃ t r, exec i s = .next t ∧ t.seqM = .idle ∧ t.respM = s.respM ++ [r] ∧ t.respI = s.respI)

/-- Simultaneous events commute (R247): a receive event and a transmit event executed in either order leave the same state but
for the order of their output events and responses; each event's own output events and response are the same in both orders,
and stand in the order of execution. -/
def Obligations.SimultaneousEventsCommute : Prop :=
  ∀ (s a ab b ba : State) (x y : Instr), Consistent s → AtInterrupt s → (∃ c, x = .rxbyte c) ∨ x = .rxfault →
    y = .txdone ∨ y = .txfault →
    exec x s = .next a → exec y { a with seqI := .executing } = .next ab →
    exec y s = .next b → exec x { b with seqI := .executing } = .next ba →
    ba = { ab with trace := ba.trace, respI := ba.respI } ∧
    ∃ ex ey rx ry,
      a.trace = s.trace ++ ex ∧ ab.trace = s.trace ++ (ex ++ ey) ∧
      b.trace = s.trace ++ ey ∧ ba.trace = s.trace ++ (ey ++ ex) ∧
      a.respI = s.respI ++ [rx] ∧ ab.respI = s.respI ++ [rx, ry] ∧
      b.respI = s.respI ++ [ry] ∧ ba.respI = s.respI ++ [ry, rx]

/-! ### Storage and arithmetic -/

/-- Reading and writing a storage slot (R68): the slot written reads as the byte written, every other slot as before; the
canonical form is kept, and in it arrays that read alike are equal. -/
def Obligations.StorageLaws : Prop :=
  ∀ (m m' : Memory) (i : Nat) (v : Byte),
    (m.write i v).read i = some v ∧ (∀ j, j ≠ i → (m.write i v).read j = m.read j) ∧
    (m.wf → (m.write i v).wf) ∧ (m.wf → m'.wf → (∀ j, m.read j = m'.read j) → m = m')

/-- Where each operation may store (R20, R67, R69), as `MayStore` lists it: PUSH and RXBYTE in slot `rx_w` of `rx_store`, FEED
in slot `lf_fill` of `lf_buf`, ENQ, TICK and POLL in the free slots of `tx_store` from `tx_w` on, POLL also in `lf_buf`, which
it feeds; every other slot of every array reads as before, and POP, ISEMPTY, ISFULL, TXDONE, RXFAULT, TXFAULT, RDCSR, RESET
and START store nothing. An operation of port M that is resumed stores in the free slots of `tx_store` alone, and in `lf_buf`
only if it is a POLL. -/
def Obligations.StoresOnlyTheirSlot : Prop :=
  ∀ (s t : State),
    (∀ i : Instr, Consistent s → AtMain s ∨ AtInterrupt s → exec i s = .next t →
      ∀ (sp : Space) (k : Nat), ¬ MayStore i s sp k → (t.store sp).read k = (s.store sp).read k) ∧
    (Inv s → s.seqM.isIdle = false → resumeMain s = .next t →
      ∀ (sp : Space) (k : Nat), ¬ (sp = .txs ∧ k ∈ s.txFree) → ¬ (sp = .lfb ∧ s.seqM.inPoll = true) →
        (t.store sp).read k = (s.store sp).read k)

/-- The index arithmetic of R12 and the predicates of R24: increments, sums and distances modulo the capacity; empty is occupancy
0, full is occupancy `X - 1`; a write lengthens the occupancy by one when not full, a read shortens it when not empty. -/
def Obligations.RingArithmetic : Prop :=
  ∀ X w r k : Nat, w < X → r < X → k < X →
    incIdx X w = (w + 1) % X ∧ addIdx X w k = (w + k) % X ∧ distIdx X w r = (w + (X - r)) % X ∧
    (ringEmpty w r = true ↔ distIdx X w r = 0) ∧ (ringFull X w r = true ↔ distIdx X w r = X - 1) ∧
    (ringFull X w r = false → distIdx X (incIdx X w) r = distIdx X w r + 1) ∧
    (ringEmpty w r = false → distIdx X w (incIdx X r) = distIdx X w r - 1)
end

