-- ==== Sys2Proof/Laws/Index.lean ====
section
/-!
SUPPORT. The index arithmetic of R12: ranges, and how the occupancy of a ring changes when an index advances.
-/

namespace Sys2Proof

variable {X w r i k : Nat}

theorem incIdx_lt (h : i < X) : incIdx X i < X := by unfold incIdx; split <;> omega

theorem addIdx_lt (hX : 0 < X) : addIdx X i k < X := Nat.mod_lt _ hX

theorem distIdx_lt (hw : w < X) (hr : r < X) : distIdx X w r < X := by unfold distIdx; split <;> omega

theorem incIdx_eq_addIdx (h : i < X) : incIdx X i = addIdx X i 1 := by
  unfold incIdx addIdx
  split
  · next h' => rw [show i + 1 = X by omega, Nat.mod_self]
  · rw [Nat.mod_eq_of_lt (by omega)]

theorem addIdx_eq (hi : i < X) (hk : k < X) : addIdx X i k = if i + k < X then i + k else i + k - X := by
  unfold addIdx
  split
  · exact Nat.mod_eq_of_lt ‹_›
  · rw [Nat.mod_eq_sub_mod (by omega), Nat.mod_eq_of_lt (by omega)]

@[simp] theorem addIdx_zero (hi : i < X) : addIdx X i 0 = i := by simp [addIdx, Nat.mod_eq_of_lt hi]

theorem distIdx_eq_zero (hr : r < X) : distIdx X w r = 0 ↔ w = r := by
  unfold distIdx; split <;> omega

/-- Full is occupancy `X - 1` (R24). -/
theorem incIdx_eq_iff (hw : w < X) (hr : r < X) : incIdx X w = r ↔ distIdx X w r = X - 1 := by
  unfold incIdx distIdx; split <;> split <;> omega

theorem distIdx_inc_write (hw : w < X) (hr : r < X) (h : incIdx X w ≠ r) :
    distIdx X (incIdx X w) r = distIdx X w r + 1 := by
  revert h; unfold incIdx distIdx; split <;> split <;> split <;> omega

theorem distIdx_inc_read (hw : w < X) (hr : r < X) (h : w ≠ r) :
    distIdx X w (incIdx X r) = distIdx X w r - 1 := by
  unfold incIdx distIdx; split <;> split <;> split <;> omega

theorem distIdx_add_read (hw : w < X) (hr : r < X) (hk : k ≤ distIdx X w r) :
    distIdx X w (addIdx X r k) = distIdx X w r - k := by
  have hd := distIdx_lt hw hr
  rw [addIdx_eq hr (by omega)]
  unfold distIdx at *
  split <;> split at hk <;> split <;> omega

theorem addIdx_addIdx (j : Nat) : addIdx X (addIdx X i k) j = addIdx X i (k + j) := by
  simp [addIdx, Nat.add_assoc]

/-- The slot after the stored bytes is the one the write index names. -/
theorem addIdx_dist (hw : w < X) (hr : r < X) : addIdx X r (distIdx X w r) = w := by
  rw [addIdx_eq hr (distIdx_lt hw hr)]
  unfold distIdx
  split <;> split <;> omega

theorem addIdx_ne_write (hw : w < X) (hr : r < X) (hk : k < distIdx X w r) : addIdx X r k ≠ w := by
  have hd := distIdx_lt hw hr
  rw [addIdx_eq hr (by omega)]
  unfold distIdx at *
  split <;> split at hk <;> omega

end Sys2Proof
end

