-- ==== Sys2Proof/Laws/Memory.lean ====
section
/-!
SUPPORT. The laws of a storage array: read after write, the canonical form kept, and equal reads make equal arrays.
-/

namespace Sys2Proof.Machine

variable {m m' : Memory} {i j X : Nat} {v : Byte}

@[simp] theorem Memory.read_write_same : (m.write i v).read i = some v := by
  induction m with
  | nil => simp [Memory.write, Memory.read]
  | cons c m ih =>
    obtain ⟨a, u⟩ := c
    simp only [Memory.write]
    split
    · simp [Memory.read]
    · split
      · simp [Memory.read]
      · simp [Memory.read, *]

theorem Memory.read_write_other (h : j ≠ i) : (m.write i v).read j = m.read j := by
  induction m with
  | nil => simp [Memory.write, Memory.read, h]
  | cons c m ih =>
    obtain ⟨a, u⟩ := c
    simp only [Memory.write]
    split
    · simp [Memory.read, h]
    · split
      · next h' => subst h'; simp [Memory.read, h]
      · simp [Memory.read, ih]

theorem Memory.read_write : (m.write i v).read j = if j = i then some v else m.read j := by
  split
  · subst_vars; simp
  · exact Memory.read_write_other ‹_›

/-- The slots listed after a write. -/
theorem Memory.mem_write {c : Host.Cell} (h : c ∈ m.write i v) : c = (i, v) ∨ c ∈ m := by
  induction m with
  | nil => simpa [Memory.write] using h
  | cons d m ih =>
    obtain ⟨a, u⟩ := d
    simp only [Memory.write] at h
    split at h
    · simpa using h
    · split at h <;> simp at h ⊢
      · tauto
      · rcases h with h | h
        · tauto
        · rcases ih h with h | h <;> tauto

theorem Memory.wf_write (h : m.wf) : (m.write i v).wf := by
  induction m with
  | nil => simp [Memory.write, Memory.wf]
  | cons d m ih =>
    obtain ⟨a, u⟩ := d
    have ⟨ha, hm⟩ := List.pairwise_cons.mp h
    simp only [Memory.write]
    split
    · refine List.pairwise_cons.mpr ⟨fun c hc => ?_, h⟩
      rcases List.mem_cons.mp hc with rfl | hc
      · assumption
      · have := ha c hc; simp at this ⊢; omega
    · split
      · next h' => subst h'; exact List.pairwise_cons.mpr ⟨ha, hm⟩
      · refine List.pairwise_cons.mpr ⟨fun c hc => ?_, ih hm⟩
        rcases Memory.mem_write hc with rfl | hc
        · simp; omega
        · exact ha c hc

theorem Memory.below_write (h : m.below X) (hi : i < X) : (m.write i v).below X := fun _ hc => by
  rcases Memory.mem_write hc with rfl | hc
  · exact hi
  · exact h _ hc

theorem Memory.read_none_of_below (h : ∀ c ∈ m, i < c.1) : m.read i = none := by
  induction m with
  | nil => rfl
  | cons d m ih =>
    obtain ⟨a, u⟩ := d
    have h0 := h (a, u) (by simp)
    simp only [Memory.read]
    rw [if_neg (by simp at h0; omega)]
    exact ih fun c hc => h c (by simp [hc])

/-- Equal reads make equal arrays: the form is canonical. -/
theorem Memory.ext_of_read (hm : m.wf) (hm' : m'.wf) (h : ∀ i, m.read i = m'.read i) : m = m' := by
  induction m generalizing m' with
  | nil =>
    cases m' with
    | nil => rfl
    | cons d m' => obtain ⟨a, u⟩ := d; simpa [Memory.read] using h a
  | cons c m ih =>
    obtain ⟨a, u⟩ := c
    cases m' with
    | nil => simpa [Memory.read] using h a
    | cons d m' =>
      obtain ⟨b, w⟩ := d
      have ⟨hc, hmt⟩ := List.pairwise_cons.mp hm
      have ⟨hd, hmt'⟩ := List.pairwise_cons.mp hm'
      have hab : a = b := by
        rcases Nat.lt_trichotomy a b with hlt | rfl | hlt
        · have := h a
          rw [Memory.read_none_of_below (m := (b, w) :: m')] at this
          · simp [Memory.read] at this
          · intro c hc; rcases List.mem_cons.mp hc with rfl | hc
            · exact hlt
            · exact hlt.trans (hd c hc)
        · rfl
        · have := h b
          rw [Memory.read_none_of_below (m := (a, u) :: m)] at this
          · simp [Memory.read] at this
          · intro c hc'; rcases List.mem_cons.mp hc' with rfl | hc'
            · exact hlt
            · exact hlt.trans (hc c hc')
      subst hab
      have huw : u = w := by simpa [Memory.read] using h a
      subst huw
      congr 1
      refine ih hmt hmt' fun i => ?_
      by_cases hi : i = a
      · subst hi
        rw [Memory.read_none_of_below hc, Memory.read_none_of_below hd]
      · simpa [Memory.read, hi] using h i

end Sys2Proof.Machine
end

