-- ==== Sys2Proof/Laws/State.lean ====
section
/-!
SUPPORT. One lemma per field per named update of the state, each true by `rfl`.
-/

namespace Sys2Proof.Machine

variable (s : State)

/-! ### `State.flag` -/

@[simp] theorem State.flag_cfg (f : ErrFlag) : (s.flag f).cfg = s.cfg := rfl
@[simp] theorem State.flag_rxStore (f : ErrFlag) : (s.flag f).rxStore = s.rxStore := rfl
@[simp] theorem State.flag_lfBuf (f : ErrFlag) : (s.flag f).lfBuf = s.lfBuf := rfl
@[simp] theorem State.flag_txStore (f : ErrFlag) : (s.flag f).txStore = s.txStore := rfl
@[simp] theorem State.flag_rxW (f : ErrFlag) : (s.flag f).rxW = s.rxW := rfl
@[simp] theorem State.flag_rxR (f : ErrFlag) : (s.flag f).rxR = s.rxR := rfl
@[simp] theorem State.flag_lfFill (f : ErrFlag) : (s.flag f).lfFill = s.lfFill := rfl
@[simp] theorem State.flag_lfState (f : ErrFlag) : (s.flag f).lfState = s.lfState := rfl
@[simp] theorem State.flag_txW (f : ErrFlag) : (s.flag f).txW = s.txW := rfl
@[simp] theorem State.flag_txR (f : ErrFlag) : (s.flag f).txR = s.txR := rfl
@[simp] theorem State.flag_tip (f : ErrFlag) : (s.flag f).tip = s.tip := rfl
@[simp] theorem State.flag_txUlen (f : ErrFlag) : (s.flag f).txUlen = s.txUlen := rfl
@[simp] theorem State.flag_rxArmed (f : ErrFlag) : (s.flag f).rxArmed = s.rxArmed := rfl
@[simp] theorem State.flag_errflags (f : ErrFlag) : (s.flag f).errflags = s.errflags ||| f.mask := rfl
@[simp] theorem State.flag_rxovfCnt (f : ErrFlag) : (s.flag f).rxovfCnt = s.rxovfCnt := rfl
@[simp] theorem State.flag_lastSent (f : ErrFlag) : (s.flag f).lastSent = s.lastSent := rfl
@[simp] theorem State.flag_seqI (f : ErrFlag) : (s.flag f).seqI = s.seqI := rfl
@[simp] theorem State.flag_seqM (f : ErrFlag) : (s.flag f).seqM = s.seqM := rfl
@[simp] theorem State.flag_portI (f : ErrFlag) : (s.flag f).portI = s.portI := rfl
@[simp] theorem State.flag_portM (f : ErrFlag) : (s.flag f).portM = s.portM := rfl
@[simp] theorem State.flag_respI (f : ErrFlag) : (s.flag f).respI = s.respI := rfl
@[simp] theorem State.flag_respM (f : ErrFlag) : (s.flag f).respM = s.respM := rfl
@[simp] theorem State.flag_trace (f : ErrFlag) : (s.flag f).trace = s.trace := rfl
@[simp] theorem State.flag_inputs (f : ErrFlag) : (s.flag f).inputs = s.inputs := rfl
@[simp] theorem State.flag_resetIn (f : ErrFlag) : (s.flag f).resetIn = s.resetIn := rfl

/-! ### `State.emit` -/

@[simp] theorem State.emit_cfg (e : Event) : (s.emit e).cfg = s.cfg := rfl
@[simp] theorem State.emit_rxStore (e : Event) : (s.emit e).rxStore = s.rxStore := rfl
@[simp] theorem State.emit_lfBuf (e : Event) : (s.emit e).lfBuf = s.lfBuf := rfl
@[simp] theorem State.emit_txStore (e : Event) : (s.emit e).txStore = s.txStore := rfl
@[simp] theorem State.emit_rxW (e : Event) : (s.emit e).rxW = s.rxW := rfl
@[simp] theorem State.emit_rxR (e : Event) : (s.emit e).rxR = s.rxR := rfl
@[simp] theorem State.emit_lfFill (e : Event) : (s.emit e).lfFill = s.lfFill := rfl
@[simp] theorem State.emit_lfState (e : Event) : (s.emit e).lfState = s.lfState := rfl
@[simp] theorem State.emit_txW (e : Event) : (s.emit e).txW = s.txW := rfl
@[simp] theorem State.emit_txR (e : Event) : (s.emit e).txR = s.txR := rfl
@[simp] theorem State.emit_tip (e : Event) : (s.emit e).tip = s.tip := rfl
@[simp] theorem State.emit_txUlen (e : Event) : (s.emit e).txUlen = s.txUlen := rfl
@[simp] theorem State.emit_rxArmed (e : Event) : (s.emit e).rxArmed = s.rxArmed := rfl
@[simp] theorem State.emit_errflags (e : Event) : (s.emit e).errflags = s.errflags := rfl
@[simp] theorem State.emit_rxovfCnt (e : Event) : (s.emit e).rxovfCnt = s.rxovfCnt := rfl
@[simp] theorem State.emit_lastSent (e : Event) : (s.emit e).lastSent = s.lastSent := rfl
@[simp] theorem State.emit_seqI (e : Event) : (s.emit e).seqI = s.seqI := rfl
@[simp] theorem State.emit_seqM (e : Event) : (s.emit e).seqM = s.seqM := rfl
@[simp] theorem State.emit_portI (e : Event) : (s.emit e).portI = s.portI := rfl
@[simp] theorem State.emit_portM (e : Event) : (s.emit e).portM = s.portM := rfl
@[simp] theorem State.emit_respI (e : Event) : (s.emit e).respI = s.respI := rfl
@[simp] theorem State.emit_respM (e : Event) : (s.emit e).respM = s.respM := rfl
@[simp] theorem State.emit_trace (e : Event) : (s.emit e).trace = s.trace ++ [e] := rfl
@[simp] theorem State.emit_inputs (e : Event) : (s.emit e).inputs = s.inputs := rfl
@[simp] theorem State.emit_resetIn (e : Event) : (s.emit e).resetIn = s.resetIn := rfl

/-! ### `State.respondI` -/

@[simp] theorem State.respondI_cfg (r : List Byte) : (s.respondI r).cfg = s.cfg := rfl
@[simp] theorem State.respondI_rxStore (r : List Byte) : (s.respondI r).rxStore = s.rxStore := rfl
@[simp] theorem State.respondI_lfBuf (r : List Byte) : (s.respondI r).lfBuf = s.lfBuf := rfl
@[simp] theorem State.respondI_txStore (r : List Byte) : (s.respondI r).txStore = s.txStore := rfl
@[simp] theorem State.respondI_rxW (r : List Byte) : (s.respondI r).rxW = s.rxW := rfl
@[simp] theorem State.respondI_rxR (r : List Byte) : (s.respondI r).rxR = s.rxR := rfl
@[simp] theorem State.respondI_lfFill (r : List Byte) : (s.respondI r).lfFill = s.lfFill := rfl
@[simp] theorem State.respondI_lfState (r : List Byte) : (s.respondI r).lfState = s.lfState := rfl
@[simp] theorem State.respondI_txW (r : List Byte) : (s.respondI r).txW = s.txW := rfl
@[simp] theorem State.respondI_txR (r : List Byte) : (s.respondI r).txR = s.txR := rfl
@[simp] theorem State.respondI_tip (r : List Byte) : (s.respondI r).tip = s.tip := rfl
@[simp] theorem State.respondI_txUlen (r : List Byte) : (s.respondI r).txUlen = s.txUlen := rfl
@[simp] theorem State.respondI_rxArmed (r : List Byte) : (s.respondI r).rxArmed = s.rxArmed := rfl
@[simp] theorem State.respondI_errflags (r : List Byte) : (s.respondI r).errflags = s.errflags := rfl
@[simp] theorem State.respondI_rxovfCnt (r : List Byte) : (s.respondI r).rxovfCnt = s.rxovfCnt := rfl
@[simp] theorem State.respondI_lastSent (r : List Byte) : (s.respondI r).lastSent = s.lastSent := rfl
@[simp] theorem State.respondI_seqI (r : List Byte) : (s.respondI r).seqI = SeqI.idle := rfl
@[simp] theorem State.respondI_seqM (r : List Byte) : (s.respondI r).seqM = s.seqM := rfl
@[simp] theorem State.respondI_portI (r : List Byte) : (s.respondI r).portI = s.portI := rfl
@[simp] theorem State.respondI_portM (r : List Byte) : (s.respondI r).portM = s.portM := rfl
@[simp] theorem State.respondI_respI (r : List Byte) : (s.respondI r).respI = s.respI ++ [r] := rfl
@[simp] theorem State.respondI_respM (r : List Byte) : (s.respondI r).respM = s.respM := rfl
@[simp] theorem State.respondI_trace (r : List Byte) : (s.respondI r).trace = s.trace := rfl
@[simp] theorem State.respondI_inputs (r : List Byte) : (s.respondI r).inputs = s.inputs := rfl
@[simp] theorem State.respondI_resetIn (r : List Byte) : (s.respondI r).resetIn = s.resetIn := rfl

/-! ### `State.respondM` -/

@[simp] theorem State.respondM_cfg (r : List Byte) : (s.respondM r).cfg = s.cfg := rfl
@[simp] theorem State.respondM_rxStore (r : List Byte) : (s.respondM r).rxStore = s.rxStore := rfl
@[simp] theorem State.respondM_lfBuf (r : List Byte) : (s.respondM r).lfBuf = s.lfBuf := rfl
@[simp] theorem State.respondM_txStore (r : List Byte) : (s.respondM r).txStore = s.txStore := rfl
@[simp] theorem State.respondM_rxW (r : List Byte) : (s.respondM r).rxW = s.rxW := rfl
@[simp] theorem State.respondM_rxR (r : List Byte) : (s.respondM r).rxR = s.rxR := rfl
@[simp] theorem State.respondM_lfFill (r : List Byte) : (s.respondM r).lfFill = s.lfFill := rfl
@[simp] theorem State.respondM_lfState (r : List Byte) : (s.respondM r).lfState = s.lfState := rfl
@[simp] theorem State.respondM_txW (r : List Byte) : (s.respondM r).txW = s.txW := rfl
@[simp] theorem State.respondM_txR (r : List Byte) : (s.respondM r).txR = s.txR := rfl
@[simp] theorem State.respondM_tip (r : List Byte) : (s.respondM r).tip = s.tip := rfl
@[simp] theorem State.respondM_txUlen (r : List Byte) : (s.respondM r).txUlen = s.txUlen := rfl
@[simp] theorem State.respondM_rxArmed (r : List Byte) : (s.respondM r).rxArmed = s.rxArmed := rfl
@[simp] theorem State.respondM_errflags (r : List Byte) : (s.respondM r).errflags = s.errflags := rfl
@[simp] theorem State.respondM_rxovfCnt (r : List Byte) : (s.respondM r).rxovfCnt = s.rxovfCnt := rfl
@[simp] theorem State.respondM_lastSent (r : List Byte) : (s.respondM r).lastSent = s.lastSent := rfl
@[simp] theorem State.respondM_seqI (r : List Byte) : (s.respondM r).seqI = s.seqI := rfl
@[simp] theorem State.respondM_seqM (r : List Byte) : (s.respondM r).seqM = SeqM.idle := rfl
@[simp] theorem State.respondM_portI (r : List Byte) : (s.respondM r).portI = s.portI := rfl
@[simp] theorem State.respondM_portM (r : List Byte) : (s.respondM r).portM = s.portM := rfl
@[simp] theorem State.respondM_respI (r : List Byte) : (s.respondM r).respI = s.respI := rfl
@[simp] theorem State.respondM_respM (r : List Byte) : (s.respondM r).respM = s.respM ++ [r] := rfl
@[simp] theorem State.respondM_trace (r : List Byte) : (s.respondM r).trace = s.trace := rfl
@[simp] theorem State.respondM_inputs (r : List Byte) : (s.respondM r).inputs = s.inputs := rfl
@[simp] theorem State.respondM_resetIn (r : List Byte) : (s.respondM r).resetIn = s.resetIn := rfl

/-! ### `State.goto` -/

@[simp] theorem State.goto_cfg (p : SeqM) : (s.goto p).cfg = s.cfg := rfl
@[simp] theorem State.goto_rxStore (p : SeqM) : (s.goto p).rxStore = s.rxStore := rfl
@[simp] theorem State.goto_lfBuf (p : SeqM) : (s.goto p).lfBuf = s.lfBuf := rfl
@[simp] theorem State.goto_txStore (p : SeqM) : (s.goto p).txStore = s.txStore := rfl
@[simp] theorem State.goto_rxW (p : SeqM) : (s.goto p).rxW = s.rxW := rfl
@[simp] theorem State.goto_rxR (p : SeqM) : (s.goto p).rxR = s.rxR := rfl
@[simp] theorem State.goto_lfFill (p : SeqM) : (s.goto p).lfFill = s.lfFill := rfl
@[simp] theorem State.goto_lfState (p : SeqM) : (s.goto p).lfState = s.lfState := rfl
@[simp] theorem State.goto_txW (p : SeqM) : (s.goto p).txW = s.txW := rfl
@[simp] theorem State.goto_txR (p : SeqM) : (s.goto p).txR = s.txR := rfl
@[simp] theorem State.goto_tip (p : SeqM) : (s.goto p).tip = s.tip := rfl
@[simp] theorem State.goto_txUlen (p : SeqM) : (s.goto p).txUlen = s.txUlen := rfl
@[simp] theorem State.goto_rxArmed (p : SeqM) : (s.goto p).rxArmed = s.rxArmed := rfl
@[simp] theorem State.goto_errflags (p : SeqM) : (s.goto p).errflags = s.errflags := rfl
@[simp] theorem State.goto_rxovfCnt (p : SeqM) : (s.goto p).rxovfCnt = s.rxovfCnt := rfl
@[simp] theorem State.goto_lastSent (p : SeqM) : (s.goto p).lastSent = s.lastSent := rfl
@[simp] theorem State.goto_seqI (p : SeqM) : (s.goto p).seqI = s.seqI := rfl
@[simp] theorem State.goto_seqM (p : SeqM) : (s.goto p).seqM = p := rfl
@[simp] theorem State.goto_portI (p : SeqM) : (s.goto p).portI = s.portI := rfl
@[simp] theorem State.goto_portM (p : SeqM) : (s.goto p).portM = s.portM := rfl
@[simp] theorem State.goto_respI (p : SeqM) : (s.goto p).respI = s.respI := rfl
@[simp] theorem State.goto_respM (p : SeqM) : (s.goto p).respM = s.respM := rfl
@[simp] theorem State.goto_trace (p : SeqM) : (s.goto p).trace = s.trace := rfl
@[simp] theorem State.goto_inputs (p : SeqM) : (s.goto p).inputs = s.inputs := rfl
@[simp] theorem State.goto_resetIn (p : SeqM) : (s.goto p).resetIn = s.resetIn := rfl

/-! ### `State.beginI` -/

@[simp] theorem State.beginI_cfg (bs : List Byte) : (s.beginI bs).cfg = s.cfg := rfl
@[simp] theorem State.beginI_rxStore (bs : List Byte) : (s.beginI bs).rxStore = s.rxStore := rfl
@[simp] theorem State.beginI_lfBuf (bs : List Byte) : (s.beginI bs).lfBuf = s.lfBuf := rfl
@[simp] theorem State.beginI_txStore (bs : List Byte) : (s.beginI bs).txStore = s.txStore := rfl
@[simp] theorem State.beginI_rxW (bs : List Byte) : (s.beginI bs).rxW = s.rxW := rfl
@[simp] theorem State.beginI_rxR (bs : List Byte) : (s.beginI bs).rxR = s.rxR := rfl
@[simp] theorem State.beginI_lfFill (bs : List Byte) : (s.beginI bs).lfFill = s.lfFill := rfl
@[simp] theorem State.beginI_lfState (bs : List Byte) : (s.beginI bs).lfState = s.lfState := rfl
@[simp] theorem State.beginI_txW (bs : List Byte) : (s.beginI bs).txW = s.txW := rfl
@[simp] theorem State.beginI_txR (bs : List Byte) : (s.beginI bs).txR = s.txR := rfl
@[simp] theorem State.beginI_tip (bs : List Byte) : (s.beginI bs).tip = s.tip := rfl
@[simp] theorem State.beginI_txUlen (bs : List Byte) : (s.beginI bs).txUlen = s.txUlen := rfl
@[simp] theorem State.beginI_rxArmed (bs : List Byte) : (s.beginI bs).rxArmed = s.rxArmed := rfl
@[simp] theorem State.beginI_errflags (bs : List Byte) : (s.beginI bs).errflags = s.errflags := rfl
@[simp] theorem State.beginI_rxovfCnt (bs : List Byte) : (s.beginI bs).rxovfCnt = s.rxovfCnt := rfl
@[simp] theorem State.beginI_lastSent (bs : List Byte) : (s.beginI bs).lastSent = s.lastSent := rfl
@[simp] theorem State.beginI_seqI (bs : List Byte) : (s.beginI bs).seqI = SeqI.executing := rfl
@[simp] theorem State.beginI_seqM (bs : List Byte) : (s.beginI bs).seqM = s.seqM := rfl
@[simp] theorem State.beginI_portI (bs : List Byte) : (s.beginI bs).portI = bs := rfl
@[simp] theorem State.beginI_portM (bs : List Byte) : (s.beginI bs).portM = s.portM := rfl
@[simp] theorem State.beginI_respI (bs : List Byte) : (s.beginI bs).respI = s.respI := rfl
@[simp] theorem State.beginI_respM (bs : List Byte) : (s.beginI bs).respM = s.respM := rfl
@[simp] theorem State.beginI_trace (bs : List Byte) : (s.beginI bs).trace = s.trace := rfl
@[simp] theorem State.beginI_inputs (bs : List Byte) : (s.beginI bs).inputs = s.inputs := rfl
@[simp] theorem State.beginI_resetIn (bs : List Byte) : (s.beginI bs).resetIn = s.resetIn := rfl

/-! ### `State.beginM` -/

@[simp] theorem State.beginM_cfg (bs : List Byte) : (s.beginM bs).cfg = s.cfg := rfl
@[simp] theorem State.beginM_rxStore (bs : List Byte) : (s.beginM bs).rxStore = s.rxStore := rfl
@[simp] theorem State.beginM_lfBuf (bs : List Byte) : (s.beginM bs).lfBuf = s.lfBuf := rfl
@[simp] theorem State.beginM_txStore (bs : List Byte) : (s.beginM bs).txStore = s.txStore := rfl
@[simp] theorem State.beginM_rxW (bs : List Byte) : (s.beginM bs).rxW = s.rxW := rfl
@[simp] theorem State.beginM_rxR (bs : List Byte) : (s.beginM bs).rxR = s.rxR := rfl
@[simp] theorem State.beginM_lfFill (bs : List Byte) : (s.beginM bs).lfFill = s.lfFill := rfl
@[simp] theorem State.beginM_lfState (bs : List Byte) : (s.beginM bs).lfState = s.lfState := rfl
@[simp] theorem State.beginM_txW (bs : List Byte) : (s.beginM bs).txW = s.txW := rfl
@[simp] theorem State.beginM_txR (bs : List Byte) : (s.beginM bs).txR = s.txR := rfl
@[simp] theorem State.beginM_tip (bs : List Byte) : (s.beginM bs).tip = s.tip := rfl
@[simp] theorem State.beginM_txUlen (bs : List Byte) : (s.beginM bs).txUlen = s.txUlen := rfl
@[simp] theorem State.beginM_rxArmed (bs : List Byte) : (s.beginM bs).rxArmed = s.rxArmed := rfl
@[simp] theorem State.beginM_errflags (bs : List Byte) : (s.beginM bs).errflags = s.errflags := rfl
@[simp] theorem State.beginM_rxovfCnt (bs : List Byte) : (s.beginM bs).rxovfCnt = s.rxovfCnt := rfl
@[simp] theorem State.beginM_lastSent (bs : List Byte) : (s.beginM bs).lastSent = s.lastSent := rfl
@[simp] theorem State.beginM_seqI (bs : List Byte) : (s.beginM bs).seqI = s.seqI := rfl
@[simp] theorem State.beginM_seqM (bs : List Byte) : (s.beginM bs).seqM = s.seqM := rfl
@[simp] theorem State.beginM_portI (bs : List Byte) : (s.beginM bs).portI = s.portI := rfl
@[simp] theorem State.beginM_portM (bs : List Byte) : (s.beginM bs).portM = bs := rfl
@[simp] theorem State.beginM_respI (bs : List Byte) : (s.beginM bs).respI = s.respI := rfl
@[simp] theorem State.beginM_respM (bs : List Byte) : (s.beginM bs).respM = s.respM := rfl
@[simp] theorem State.beginM_trace (bs : List Byte) : (s.beginM bs).trace = s.trace := rfl
@[simp] theorem State.beginM_inputs (bs : List Byte) : (s.beginM bs).inputs = s.inputs := rfl
@[simp] theorem State.beginM_resetIn (bs : List Byte) : (s.beginM bs).resetIn = s.resetIn := rfl

/-! ### `State.setStore` -/

@[simp] theorem State.setStore_rxs (m : Memory) : s.setStore .rxs m = { s with rxStore := m } := rfl
@[simp] theorem State.store_rxs : s.store .rxs = s.rxStore := rfl
@[simp] theorem State.capacity_rxs : s.capacity .rxs = s.cfg.N := rfl
@[simp] theorem State.setStore_lfb (m : Memory) : s.setStore .lfb m = { s with lfBuf := m } := rfl
@[simp] theorem State.store_lfb : s.store .lfb = s.lfBuf := rfl
@[simp] theorem State.capacity_lfb : s.capacity .lfb = s.cfg.M := rfl
@[simp] theorem State.setStore_txs (m : Memory) : s.setStore .txs m = { s with txStore := m } := rfl
@[simp] theorem State.store_txs : s.store .txs = s.txStore := rfl
@[simp] theorem State.capacity_txs : s.capacity .txs = s.cfg.T := rfl

/-! ### `State.respond` on each port -/

@[simp] theorem State.context_idle (h : s.seqI = .idle) : s.context = .M := by simp [State.context, h]
@[simp] theorem State.context_executing (h : s.seqI = .executing) : s.context = .I := by simp [State.context, h]

theorem State.respond_idle (h : s.seqI = .idle) (r : List Byte) : s.respond r = s.respondM r := by
  simp [State.respond, State.context, h]

theorem State.respond_executing (h : s.seqI = .executing) (r : List Byte) : s.respond r = s.respondI r := by
  simp [State.respond, State.context, h]

end Sys2Proof.Machine
end

