-- ==== Sys2Proof/Laws/Ops.lean ====
section
/-!
SUPPORT. What the shared operations can do, once: chaining, storage accesses, and each component sequence. Each equation
holds where the slot addressed exists; each inversion lemma says everything a sequence that answers a next state has done.
-/

namespace Sys2Proof.Machine

/-! ### Chaining -/

section Chain
variable {α β : Type} {x : Host.Outcome α Fault Refusal} {f : α → Host.Outcome β Fault Refusal} {a : α} {b : β}

@[simp] theorem andThen_next : andThen (.next a) f = f a := rfl

theorem andThen_eq_next : andThen x f = .next b ↔ ∃ a, x = .next a ∧ f a = .next b := by
  cases x <;> simp [andThen]

end Chain

variable {s t : State} {sp : Space} {i : Nat} {v b : Byte}

/-! ### Storage accesses -/

theorem memRead_of_lt (h : i < s.capacity sp) : memRead sp i s = .next (s.slot sp i) := if_pos h

theorem memRead_eq_next : memRead sp i s = .next v ↔ i < s.capacity sp ∧ v = s.slot sp i := by
  unfold memRead; split <;> simp_all [eq_comm]

theorem memWrite_of_lt (h : i < s.capacity sp) :
    memWrite sp i v s = .next (s.setStore sp ((s.store sp).write i v)) := if_pos h

theorem memWrite_eq_next :
    memWrite sp i v s = .next t ↔ i < s.capacity sp ∧ t = s.setStore sp ((s.store sp).write i v) := by
  unfold memWrite; split <;> simp_all [eq_comm]

theorem memReadAll_of_lt {is : List Nat} (h : ∀ i ∈ is, i < s.capacity sp) :
    memReadAll sp is s = .next (is.map (s.slot sp)) := by
  induction is with
  | nil => rfl
  | cons i is ih =>
    simp only [memReadAll, memRead_of_lt (h i (by simp)), andThen_next, ih fun j hj => h j (by simp [hj]),
      List.map_cons]

theorem memReadAll_eq_next {is : List Nat} {vs : List Byte} (h : memReadAll sp is s = .next vs) :
    vs = is.map (s.slot sp) := by
  induction is generalizing vs with
  | nil => simpa [memReadAll, eq_comm] using h
  | cons i is ih =>
    obtain ⟨v, hv, h⟩ := andThen_eq_next.mp h
    obtain ⟨vs', hvs, h⟩ := andThen_eq_next.mp h
    obtain rfl := (memRead_eq_next.mp hv).2
    obtain rfl := ih hvs
    simpa [eq_comm] using h

/-! ### RX ring -/

theorem push_full (h : ringFull s.cfg.N s.rxW s.rxR = true) : push b s = .next (pushDrop s) := if_pos h

theorem push_room (h : ringFull s.cfg.N s.rxW s.rxR = false) (hw : s.rxW < s.cfg.N) :
    push b s = .next { s with rxStore := s.rxStore.write s.rxW b, rxW := incIdx s.cfg.N s.rxW } := by
  simp [push, h, pushStore, memWrite, hw]

theorem push_cases (h : push b s = .next t) :
    (ringFull s.cfg.N s.rxW s.rxR = true ∧ t = pushDrop s) ∨
    (ringFull s.cfg.N s.rxW s.rxR = false ∧ s.rxW < s.cfg.N ∧
      t = { s with rxStore := s.rxStore.write s.rxW b, rxW := incIdx s.cfg.N s.rxW }) := by
  unfold push at h
  split at h
  · exact .inl ⟨‹_›, by simpa [eq_comm] using h⟩
  next hf =>
    obtain ⟨u, hu, h⟩ := andThen_eq_next.mp h
    obtain ⟨hw, rfl⟩ := memWrite_eq_next.mp hu
    exact .inr ⟨by simpa using hf, hw, by simpa [eq_comm] using h⟩

/-! ### Line framer -/

theorem feed_cr : feed charCR s = .next (s, .none) := if_pos rfl

theorem feed_lf_message (h0 : 0 < s.lfFill) (h : s.lfFill < s.cfg.M) :
    feed charLF s =
      .next ({ s with lfBuf := s.lfBuf.write s.lfFill 0x00#8, lfFill := 0, lfState := .idle },
        .msg s.lineContents) := by
  have hc : ∀ i ∈ lineSlots s.lfFill, i < State.capacity { s with lfBuf := s.lfBuf.write s.lfFill 0x00#8 } .lfb := by
    intro i hi
    have := List.mem_range.mp hi
    simp; omega
  have hw : memWrite .lfb s.lfFill 0x00#8 s = .next { s with lfBuf := s.lfBuf.write s.lfFill 0x00#8 } :=
    memWrite_of_lt (sp := .lfb) h
  have hm : (lineSlots s.lfFill).map (State.slot { s with lfBuf := s.lfBuf.write s.lfFill 0x00#8 } .lfb) =
      s.lineContents := by
    refine List.map_congr_left fun i hi => ?_
    have := List.mem_range.mp hi
    simp [State.slot, Memory.read_write_other (show i ≠ s.lfFill by omega)]
  simp [feed, charCR, charLF, feedNewline, h0, hw, memReadAll_of_lt hc, hm]

theorem feed_lf_blank (h : s.lfFill = 0) : feed charLF s = .next ({ s with lfState := .idle }, .none) := by
  simp [feed, charCR, charLF, feedNewline, h]

theorem feed_append (hr : b ≠ charCR) (hn : b ≠ charLF) (h : s.lfFill < s.cfg.M - 1) :
    feed b s = .next ({ s with lfBuf := s.lfBuf.write s.lfFill b, lfFill := s.lfFill + 1 }, .none) := by
  simp [feed, hr, hn, feedOrdinary, h, memWrite, show s.lfFill < s.cfg.M by omega]

theorem feed_overflow (hr : b ≠ charCR) (hn : b ≠ charLF) (h : ¬ s.lfFill < s.cfg.M - 1) :
    feed b s = .next ({ s.flag .lineovf with lfFill := 0, lfState := .overflowed }, .overflow) := by
  simp [feed, hr, hn, feedOrdinary, h]

/-- Everything FEED can do to a framer whose fill is in range (R141). -/
theorem feed_cases (h : s.lfFill < s.cfg.M) :
    (b = charCR ∧ feed b s = .next (s, .none)) ∨
    (b = charLF ∧ 0 < s.lfFill ∧
      feed b s = .next ({ s with lfBuf := s.lfBuf.write s.lfFill 0x00#8, lfFill := 0, lfState := .idle },
        .msg s.lineContents)) ∨
    (b = charLF ∧ s.lfFill = 0 ∧ feed b s = .next ({ s with lfState := .idle }, .none)) ∨
    (b ≠ charCR ∧ b ≠ charLF ∧ s.lfFill < s.cfg.M - 1 ∧
      feed b s = .next ({ s with lfBuf := s.lfBuf.write s.lfFill b, lfFill := s.lfFill + 1 }, .none)) ∨
    (b ≠ charCR ∧ b ≠ charLF ∧ s.lfFill = s.cfg.M - 1 ∧
      feed b s = .next ({ s.flag .lineovf with lfFill := 0, lfState := .overflowed }, .overflow)) := by
  by_cases hr : b = charCR
  · exact .inl ⟨hr, hr ▸ feed_cr⟩
  by_cases hn : b = charLF
  · subst hn
    rcases Nat.eq_zero_or_pos s.lfFill with h0 | h0
    · exact .inr (.inr (.inl ⟨rfl, h0, feed_lf_blank h0⟩))
    · exact .inr (.inl ⟨rfl, h0, feed_lf_message h0 h⟩)
  by_cases hM : s.lfFill < s.cfg.M - 1
  · exact .inr (.inr (.inr (.inl ⟨hr, hn, hM, feed_append hr hn hM⟩)))
  · exact .inr (.inr (.inr (.inr ⟨hr, hn, by omega, feed_overflow hr hn hM⟩)))

/-! ### TX queue -/

theorem issueUnit_eq (hT : 0 < s.cfg.T) :
    issueUnit s = .next (State.emit { s with txUlen := unitLength s, tip := true }
      (.txUnit ((ringSlots s.cfg.T s.txR (unitLength s)).map (s.slot .txs)))) := by
  have h : ∀ i ∈ ringSlots s.cfg.T s.txR (unitLength s), i < s.capacity .txs := by
    intro i hi
    obtain ⟨k, -, rfl⟩ := List.mem_map.mp hi
    exact Nat.mod_lt _ hT
  simp [issueUnit, memReadAll_of_lt h]

theorem issueUnit_next (h : issueUnit s = .next t) :
    t = State.emit { s with txUlen := unitLength s, tip := true }
      (.txUnit ((ringSlots s.cfg.T s.txR (unitLength s)).map (s.slot .txs))) := by
  obtain ⟨vs, hv, h⟩ := andThen_eq_next.mp h
  obtain rfl := memReadAll_eq_next hv
  simpa [eq_comm] using h

/-- The state after a unit has left the queue, before the chain goes on (R170, R231). -/
def State.released (s : State) : State := { s with txR := addIdx s.cfg.T s.txR s.txUlen }

theorem completeUnit_last (h : s.txW = addIdx s.cfg.T s.txR s.txUlen) :
    completeUnit s = .next { s.released with tip := false, txUlen := 0 } := by
  simp [completeUnit, State.released, ringEmpty, h]

theorem completeUnit_more (h : s.txW ≠ addIdx s.cfg.T s.txR s.txUlen) : completeUnit s = issueUnit s.released := by
  simp [completeUnit, State.released, ringEmpty, h]

theorem enqueueTop_full {c : EnqCaller} {len count : Nat} {rest : List Byte}
    (h : ringFull s.cfg.T s.txW s.txR = true) :
    enqueueTop c len count rest s = .next (enqueueSample c len count s) := by
  cases rest <;> simp [enqueueTop, h]

theorem enqueueTop_room {c : EnqCaller} {len count : Nat} {rest : List Byte}
    (h : ringFull s.cfg.T s.txW s.txR = false) (hw : s.txW < s.cfg.T) :
    enqueueTop c len count (b :: rest) s =
      .next (State.goto { s with txStore := s.txStore.write s.txW b }
        (.enqB c len count (incIdx s.cfg.T s.txW) rest)) := by
  simp [enqueueTop, h, memWrite, hw]

end Sys2Proof.Machine
end

