-- ==== Sys2Proof/Laws/Invariant.lean ====
section
/-!
SUPPORT. `Consistent` is kept by each shared operation: the small updates first, then the component sequences, each with
the next state it answers.
-/

namespace Sys2Proof.Machine

variable {s t : State} {b v : Byte}

/-! ### What the legal parameters give -/

theorem Consistent.N_ge (h : Consistent s) : 2 ≤ s.cfg.N := h.cfg_wf.1.1
theorem Consistent.M_ge (h : Consistent s) : 2 ≤ s.cfg.M := h.cfg_wf.2.1.1
theorem Consistent.T_ge (h : Consistent s) : 2 ≤ s.cfg.T := h.cfg_wf.2.2.1.1

theorem Consistent.rxCount_lt (h : Consistent s) : s.rxCount < s.cfg.N := distIdx_lt h.rxW_lt h.rxR_lt
theorem Consistent.txCount_lt (h : Consistent s) : s.txCount < s.cfg.T := distIdx_lt h.txW_lt h.txR_lt

theorem Consistent.txUlen_lt (h : Consistent s) : s.txUlen < s.cfg.T := h.unit_le.trans_lt h.txCount_lt

theorem Consistent.rxCount_eq_zero (h : Consistent s) : s.rxCount = 0 ↔ s.rxW = s.rxR := distIdx_eq_zero h.rxR_lt
theorem Consistent.txCount_eq_zero (h : Consistent s) : s.txCount = 0 ↔ s.txW = s.txR := distIdx_eq_zero h.txR_lt

theorem ringFull_iff {X w r : Nat} (hw : w < X) (hr : r < X) :
    ringFull X w r = true ↔ distIdx X w r = X - 1 := by simp [ringFull, incIdx_eq_iff hw hr]

/-! ### Updates of state `Consistent` does not read -/

theorem Consistent.update (h : Consistent s) (errflags : Byte) (rxovfCnt lastSent : Word32) (rxArmed resetIn : Bool)
    (seqI : SeqI) (portI portM : List Byte) (respI respM : List (List Byte)) (trace : List Event) (inputs : List Input)
    (lfState : LfState) :
    Consistent { s with
      errflags := errflags, rxovfCnt := rxovfCnt, lastSent := lastSent, rxArmed := rxArmed, resetIn := resetIn,
      seqI := seqI, portI := portI, portM := portM, respI := respI, respM := respM, trace := trace, inputs := inputs,
      lfState := lfState } := by
  obtain ⟨h1, h2, h3, h4, h5, h6, h7, h8, h9, h10, h11, h12, h13, h14, h15⟩ := h
  refine ⟨h1, h2, h3, h4, h5, h6, h7, h8, h9, h10, h11, h12, h13, h14, ?_⟩
  revert h15
  cases s.seqM <;> exact id

theorem Consistent.flag (h : Consistent s) (f : ErrFlag) : Consistent (s.flag f) := h.update ..
theorem Consistent.emit (h : Consistent s) (e : Event) : Consistent (s.emit e) := h.update ..
theorem Consistent.respondI (h : Consistent s) (r : List Byte) : Consistent (s.respondI r) := h.update ..
theorem Consistent.beginI (h : Consistent s) (bs : List Byte) : Consistent (s.beginI bs) := h.update ..
theorem Consistent.beginM (h : Consistent s) (bs : List Byte) : Consistent (s.beginM bs) := h.update ..

theorem Consistent.receive (h : Consistent s) (x : Input) : Consistent (s.receive x) := by
  cases x <;> first | exact h | exact h.update ..

theorem Consistent.arrive (h : Consistent s) : Consistent s.arrive := by
  unfold State.arrive
  split
  · exact h
  · exact Consistent.receive (h.update ..) _

/-! ### The sequencer of port M moves -/

theorem SeqM.ok_goto {p q : SeqM} : q.ok (s.goto p) ↔ q.ok s := by cases q <;> exact Iff.rfl

theorem Consistent.goto (h : Consistent s) {p : SeqM} (hok : p.ok s)
    (he : p.inEnqueue = false → s.tip = false → s.txW = s.txR) : Consistent (s.goto p) :=
  ⟨h.1, h.2, h.3, h.4, h.5, h.6, h.7, h.8, h.9, h.10, h.11, h.12, h.13, fun ht hp => he hp ht, SeqM.ok_goto.mpr hok⟩

theorem Consistent.respondM (h : Consistent s) (he : s.tip = false → s.txW = s.txR) (r : List Byte) :
    Consistent (s.respondM r) :=
  (h.goto (p := .idle) trivial fun _ => he).update ..

/-- Outside an enqueue the queue is empty when nothing is in flight (R46 (g)). -/
theorem Consistent.empty_of (h : Consistent s) (hp : s.seqM.inEnqueue = false) (ht : s.tip = false) :
    s.txW = s.txR := h.idle_empty ht hp

/-! ### Registers at their reset values -/

theorem Consistent.resetRegisters (h : Consistent s) (hm : s.seqM = .idle) : Consistent s.resetRegisters := by
  have hN := h.N_ge
  have hM := h.M_ge
  have hT := h.T_ge
  refine ⟨h.1, ?_, ?_, ?_, ?_, ?_, h.7, h.8, h.9, ?_, ?_, ?_, ?_, ?_, ?_⟩ <;>
    simp [State.resetRegisters, State.txCount, distIdx, SeqM.ok, hm] <;> omega

theorem Consistent.hardwareReset (h : Consistent s) : Consistent s.hardwareReset := by
  have hN := h.N_ge
  have hM := h.M_ge
  have hT := h.T_ge
  refine ⟨h.1, ?_, ?_, ?_, ?_, ?_, h.7, h.8, h.9, ?_, ?_, ?_, ?_, ?_, ?_⟩ <;>
    simp [State.hardwareReset, State.resetRegisters, State.txCount, distIdx, SeqM.ok] <;> omega

/-! ### RX ring -/

theorem Consistent.pushDrop (h : Consistent s) : Consistent (pushDrop s) := h.update ..

theorem State.slot_write_rx {i j : Nat} (hij : j ≠ i) (x : Nat) :
    State.slot { s with rxStore := s.rxStore.write i v, rxW := x } .rxs j = s.slot .rxs j := by
  simp [State.slot, Memory.read_write_other hij]

/-- A push keeps `Consistent` and what an operation suspended on port M has read (R124). -/
theorem Consistent.pushStore (h : Consistent s) (hf : ringFull s.cfg.N s.rxW s.rxR = false) :
    Consistent { s with rxStore := s.rxStore.write s.rxW b, rxW := incIdx s.cfg.N s.rxW } := by
  have hne : incIdx s.cfg.N s.rxW ≠ s.rxR := by simpa [ringFull] using hf
  have hc := distIdx_inc_write h.rxW_lt h.rxR_lt hne
  have hok := h.seq_ok
  refine ⟨h.1, incIdx_lt h.rxW_lt, h.3, h.4, h.5, h.6, ⟨Memory.wf_write h.7.1, Memory.below_write h.7.2 h.rxW_lt⟩, h.8,
    h.9, h.10, h.11, h.12, h.13, h.14, ?_⟩
  revert hok
  dsimp only
  cases s.seqM with
  | popB c w => exact fun hk => ⟨hk.1, hk.2.trans (by simp [State.rxCount]; omega)⟩
  | popC c v => exact fun hk => ⟨hne, hk.2.trans (State.slot_write_rx (v := b) hk.1.symm (incIdx s.cfg.N s.rxW)).symm⟩
  | _ => exact id

theorem Consistent.push (h : Consistent s) : ∃ t, push b s = .next t ∧ Consistent t := by
  by_cases hf : ringFull s.cfg.N s.rxW s.rxR = true
  · exact ⟨_, push_full hf, h.pushDrop⟩
  · have hf : ringFull s.cfg.N s.rxW s.rxR = false := by simpa using hf
    exact ⟨_, push_room hf h.rxW_lt, h.pushStore hf⟩

/-- Releasing a slot (R123 (c)). -/
theorem Consistent.advance (h : Consistent s) (hm : s.seqM.inEnqueue = false) {p : SeqM}
    (hok : p.ok { s with rxR := incIdx s.cfg.N s.rxR }) :
    Consistent (State.goto { s with rxR := incIdx s.cfg.N s.rxR } p) :=
  ⟨h.1, h.2, incIdx_lt h.3, h.4, h.5, h.6, h.7, h.8, h.9, h.10, h.11, h.12, h.13, fun ht _ => h.14 ht hm,
    SeqM.ok_goto.mpr hok⟩

/-! ### Line framer -/

/-- FEED keeps `Consistent` and answers. -/
theorem Consistent.feed (h : Consistent s) : ∃ t r, feed b s = .next (t, r) ∧ Consistent t := by
  have hM := h.M_ge
  have hok := h.seq_ok
  have key : ∀ (m : Memory) (n : Nat) (ls : LfState), m.wf ∧ m.below s.cfg.M → n < s.cfg.M →
      Consistent { s with lfBuf := m, lfFill := n, lfState := ls } := by
    intro m n ls hm hn
    refine ⟨h.1, h.2, h.3, h.4, h.5, hn, h.7, hm, h.9, h.10, h.11, h.12, h.13, h.14, ?_⟩
    revert hok
    dsimp only
    cases s.seqM <;> exact id
  have hw : ∀ v, (s.lfBuf.write s.lfFill v).wf ∧ (s.lfBuf.write s.lfFill v).below s.cfg.M := fun v =>
    ⟨Memory.wf_write h.8.1, Memory.below_write h.8.2 h.lfFill_lt⟩
  rcases feed_cases h.lfFill_lt (b := b) with ⟨-, he⟩ | ⟨-, -, he⟩ | ⟨-, -, he⟩ | ⟨-, -, hM', he⟩ | ⟨-, -, -, he⟩
  · exact ⟨_, _, he, h⟩
  · exact ⟨_, _, he, key _ _ _ (hw _) (by omega)⟩
  · exact ⟨_, _, he, h.update ..⟩
  · exact ⟨_, _, he, key _ _ _ (hw _) (by omega)⟩
  · exact ⟨_, _, he, (key s.lfBuf 0 .overflowed h.8 (by omega)).update ..⟩

/-! ### TX queue -/

theorem Consistent.unitLength_pos (h : Consistent s) (hne : s.txW ≠ s.txR) :
    1 ≤ unitLength s ∧ unitLength s ≤ s.txCount := by
  have : s.txCount ≠ 0 := fun h0 => hne (h.txCount_eq_zero.mp h0)
  unfold unitLength
  split <;> omega

/-- Issuing a unit from a queue that is not empty (R160), by a completion (`tip` was 1) or by an enqueue that has sampled
`tip` as 0. -/
theorem Consistent.issueUnit (h : Consistent s) (hne : s.txW ≠ s.txR)
    (hm : s.tip = true ∧ (s.cfg.txMode = .bulk → s.seqM.inEnqueue = false) ∨ s.seqM.inEnqueue = false) :
    ∃ t, issueUnit s = .next t ∧ Consistent t := by
  have hT := h.T_ge
  obtain ⟨h1, h2⟩ := h.unitLength_pos hne
  have hok := h.seq_ok
  refine ⟨_, issueUnit_eq (by omega), Consistent.emit ?_ _⟩
  refine ⟨h.1, h.2, h.3, h.4, h.5, h.6, h.7, h.8, h.9, by simpa using h1, h2, ?_, ?_, by simp, ?_⟩
  · intro hb; simp only at hb; simp [unitLength, hb]
  · intro hb; simp only at hb; simp [unitLength, hb, State.txCount]
  · revert hok hm
    dsimp only
    cases s.seqM with
    | enqA c len count rest =>
      rintro hm ⟨hk, hl⟩
      exact ⟨fun hb => by rcases hm with ⟨ht, hi⟩ | hm <;> simp_all [SeqM.inEnqueue], hl⟩
    | enqB c len count next rest =>
      rintro hm ⟨hk, hl⟩
      exact ⟨fun hb => by rcases hm with ⟨ht, hi⟩ | hm <;> simp_all [SeqM.inEnqueue], hl⟩
    | enqD c len count t =>
      rintro hm ⟨hk, hl, hf, ht⟩
      refine ⟨fun hb => ?_, hl, fun h0 => ?_, by simp⟩ <;>
        rcases hm with ⟨ht, hi⟩ | hm <;> simp_all [SeqM.inEnqueue]
    | popB c w => exact fun _ => id
    | popC c v => exact fun _ => id
    | _ => exact fun _ _ => trivial

theorem Consistent.released_count (h : Consistent s) : s.released.txCount = s.txCount - s.txUlen :=
  distIdx_add_read h.txW_lt h.txR_lt h.unit_le

/-- The slot after the queued bytes stays free while completions release slots (R162, R163). -/
theorem Consistent.released_next (h : Consistent s) (hn : incIdx s.cfg.T s.txW ≠ s.txR) :
    incIdx s.cfg.T s.txW ≠ addIdx s.cfg.T s.txR s.txUlen := by
  have hT := h.T_ge
  have hr : addIdx s.cfg.T s.txR s.txUlen < s.cfg.T := addIdx_lt (by omega)
  rw [Ne, incIdx_eq_iff h.txW_lt hr, distIdx_add_read h.txW_lt h.txR_lt h.unit_le]
  rw [Ne, incIdx_eq_iff h.txW_lt h.txR_lt] at hn
  have := h.txCount_lt
  unfold State.txCount at this
  omega

/-- A completion keeps `Consistent`, whatever port M is doing, and answers (R170, R231). -/
theorem Consistent.completeUnit (h : Consistent s) (ht : s.tip = true) : ∃ t, completeUnit s = .next t ∧ Consistent t := by
  have hT := h.T_ge
  have hr : addIdx s.cfg.T s.txR s.txUlen < s.cfg.T := addIdx_lt (by omega)
  have hu := h.tip_iff.mp ht
  have hc := h.released_count
  have hok := h.seq_ok
  have hbulk : s.cfg.txMode = .bulk → s.txW = addIdx s.cfg.T s.txR s.txUlen := fun hb => by
    rw [h.bulk_unit hb ht]; exact (addIdx_dist h.txW_lt h.txR_lt).symm
  by_cases hl : s.txW = addIdx s.cfg.T s.txR s.txUlen
  · refine ⟨_, completeUnit_last hl, h.1, h.2, h.3, h.4, hr, h.6, h.7, h.8, h.9, by simp, by simp, by simp, by simp,
      fun _ _ => hl, ?_⟩
    have hn := h.released_next
    revert hok
    simp only [State.released]
    cases s.seqM with
    | enqA c len count rest => exact fun hk => ⟨fun _ => rfl, hk.2⟩
    | enqB c len count next rest =>
      rintro ⟨-, rfl, hk, hl'⟩
      exact ⟨fun _ => rfl, rfl, hn hk, hl'⟩
    | enqD c len count t => exact fun hk => ⟨fun _ => rfl, hk.2.1, fun _ => rfl, fun _ _ => hl⟩
    | popB c w => exact id
    | popC c v => exact id
    | _ => exact fun _ => trivial
  · have hbyte : s.cfg.txMode = .byte := by
      cases hx : s.cfg.txMode with
      | byte => rfl
      | bulk => exact absurd (hbulk hx) hl
    have hu1 := h.byte_unit hbyte
    rw [completeUnit_more hl]
    have hcnt : s.released.txCount ≠ 0 := fun h0 => hl ((distIdx_eq_zero hr).mp h0)
    have hrel : Consistent s.released := by
      refine ⟨h.1, h.2, h.3, h.4, hr, h.6, h.7, h.8, h.9, h.10, ?_, h.12, ?_, ?_, ?_⟩
      · have : s.released.txUlen = s.txUlen := rfl
        omega
      · intro hb; simp [State.released, hbyte] at hb
      · intro hf; simp [State.released, ht] at hf
      · have hn := h.released_next
        revert hok
        simp only [State.released]
        cases s.seqM with
        | enqA c len count rest => exact id
        | enqB c len count next rest =>
          rintro ⟨hb, rfl, hk, hl'⟩
          exact ⟨hb, rfl, hn hk, hl'⟩
        | enqD c len count t => exact fun hk => ⟨hk.1, hk.2.1, hk.2.2.1, fun _ hf => by simp [ht] at hf⟩
        | popB c w => exact id
        | popC c v => exact id
        | _ => exact fun _ => trivial
    exact hrel.issueUnit hl (.inl ⟨ht, fun hb => by simp [State.released, hbyte] at hb⟩)

end Sys2Proof.Machine
end

