-- ==== Sys2Proof/Laws/Sequencer.lean ====
section
/-!
SUPPORT. What one action of port M can do, and what a run of them can do: it answers, keeps `Consistent`, leaves what the
interrupt context owns alone, responds at most once, and comes nearer to its end.
-/

namespace Sys2Proof.Machine

variable {s t u : State} {b v : Byte}

/-- What an action of port M leaves unchanged, and what it only adds to. -/
structure MainFrame (s t : State) : Prop where
  cfg : t.cfg = s.cfg
  rxStore : t.rxStore = s.rxStore
  rxW : t.rxW = s.rxW
  txR : t.txR = s.txR
  rxovfCnt : t.rxovfCnt = s.rxovfCnt
  rxArmed : t.rxArmed = s.rxArmed
  respI : t.respI = s.respI
  seqI : t.seqI = s.seqI
  portI : t.portI = s.portI
  portM : t.portM = s.portM
  inputs : t.inputs = s.inputs
  resetIn : t.resetIn = s.resetIn
  errflags : s.errflags ||| t.errflags = t.errflags
  trace : s.trace <+: t.trace
  tip : s.tip = true → t.tip = true ∧ t.txUlen = s.txUlen

theorem MainFrame.refl (s : State) : MainFrame s s := by constructor <;> simp

theorem MainFrame.trans (h : MainFrame s t) (g : MainFrame t u) : MainFrame s u where
  cfg := g.cfg.trans h.cfg
  rxStore := g.rxStore.trans h.rxStore
  rxW := g.rxW.trans h.rxW
  txR := g.txR.trans h.txR
  rxovfCnt := g.rxovfCnt.trans h.rxovfCnt
  rxArmed := g.rxArmed.trans h.rxArmed
  respI := g.respI.trans h.respI
  seqI := g.seqI.trans h.seqI
  portI := g.portI.trans h.portI
  portM := g.portM.trans h.portM
  inputs := g.inputs.trans h.inputs
  resetIn := g.resetIn.trans h.resetIn
  errflags := by rw [← g.errflags, ← h.errflags]; ext i; simp; tauto
  trace := h.trace.trans g.trace
  tip := fun ht => ⟨(g.tip (h.tip ht).1).1, (g.tip (h.tip ht).1).2.trans (h.tip ht).2⟩

theorem MainFrame.flag (s : State) (f : ErrFlag) : MainFrame s (s.flag f) := by
  constructor <;> simp [← BitVec.or_assoc]

theorem MainFrame.emit (s : State) (e : Event) : MainFrame s (s.emit e) := by constructor <;> simp

theorem MainFrame.goto (s : State) (p : SeqM) : MainFrame s (s.goto p) := by constructor <;> simp

theorem MainFrame.respondM (s : State) (r : List Byte) : MainFrame s (s.respondM r) := by constructor <;> simp

theorem MainFrame.issue (h : s.tip = false) (n : Nat) (e : Event) :
    MainFrame s (State.emit { s with txUlen := n, tip := true } e) := by constructor <;> simp [h]

/-- An action either ends the operation with one response, or does not respond. -/
def Responded (s t : State) : Prop :=
  (t.seqM = .idle ∧ ∃ r, t.respM = s.respM ++ [r]) ∨ (t.seqM.isIdle = false ∧ t.respM = s.respM)

theorem Responded.respondM (s : State) (r : List Byte) : Responded s (s.respondM r) := .inl ⟨rfl, r, rfl⟩

theorem Responded.goto (s : State) {p : SeqM} (h : p.isIdle = false) : Responded s (s.goto p) := .inr ⟨h, rfl⟩

theorem Responded.of_eq (h : Responded s t) (hu : s.respM = u.respM) : Responded u t := by
  simpa [Responded, hu] using h

/-! ### Occupancy and cost -/

@[simp] theorem State.rxCount_goto (p : SeqM) : (s.goto p).rxCount = s.rxCount := rfl
@[simp] theorem State.txCount_goto (p : SeqM) : (s.goto p).txCount = s.txCount := rfl

theorem MainFrame.rxCount (h : MainFrame s t) (hr : t.rxR = s.rxR) : t.rxCount = s.rxCount := by
  simp [State.rxCount, h.cfg, h.rxW, hr]

theorem EnqCaller.cost_goto (c : EnqCaller) (p : SeqM) : c.cost (s.goto p) = c.cost s := by cases c <;> rfl

theorem EnqCaller.cost_congr (c : EnqCaller) (hc : t.cfg = s.cfg) (hn : t.rxCount = s.rxCount) : c.cost t = c.cost s := by
  cases c <;> simp [EnqCaller.cost, hc, hn]

theorem pollCost_ge (c : Config) (n : Nat) : 2 ≤ pollCost c n := by unfold pollCost; omega

theorem pollCost_pred (c : Config) {n : Nat} (h : n ≠ 0) :
    pollCost c n = pollCost c (n - 1) + (2 * maxText c + 8) := by
  obtain ⟨m, rfl⟩ := Nat.exists_eq_succ_of_ne_zero h
  simp [pollCost, Nat.succ_mul]; omega

/-! ### The enqueue -/

/-- What an action that works at an enqueue for `c` answers: it goes on or ends within `n` further actions. -/
structure EnqStep (c : EnqCaller) (n : Nat) (s t : State) : Prop where
  frame : MainFrame s t
  rxR : t.rxR = s.rxR
  lf : t.lfBuf = s.lfBuf ∧ t.lfFill = s.lfFill ∧ t.lfState = s.lfState
  responded : Responded s t
  cost : t.seqM.isIdle = false → mainCost t ≤ n + c.cost s

theorem enqueueEnd_step (h : Consistent s) (hM : s.seqI = .idle) (he : s.tip = false → s.txW = s.txR) (c : EnqCaller)
    (status : Byte) (count : Nat) :
    Consistent (enqueueEnd c status count s) ∧ EnqStep c 0 s (enqueueEnd c status count s) := by
  cases c with
  | enq =>
    simp only [enqueueEnd, State.respond_idle s hM]
    exact ⟨h.respondM he _, .respondM .., rfl, ⟨rfl, rfl, rfl⟩, .respondM .., fun h => by simp [SeqM.isIdle] at h⟩
  | tick now =>
    simp only [enqueueEnd]
    rw [State.respond_idle _ (by exact hM)]
    refine ⟨Consistent.respondM (s := { s with lastSent := now }) (h.update ..) he _, ?_, rfl, ⟨rfl, rfl, rfl⟩,
      .inl ⟨rfl, _, rfl⟩, fun h => by simp [SeqM.isIdle] at h⟩
    constructor <;> simp
  | poll l =>
    exact ⟨h.goto trivial fun _ => he, .goto .., rfl, ⟨rfl, rfl, rfl⟩, .goto _ rfl, fun _ => by
      simp [enqueueEnd, mainCost, EnqCaller.cost, State.rxCount]⟩

theorem EnqStep.mono {c : EnqCaller} {n m : Nat} (h : EnqStep c n s t) (hn : n ≤ m) : EnqStep c m s t :=
  { h with cost := fun hi => (h.cost hi).trans (by omega) }

theorem enqueueSample_step (h : Consistent s) {c : EnqCaller} {len count : Nat} (hb : BulkIdle s) (hl : count ≤ len) :
    Consistent (enqueueSample c len count s) ∧ EnqStep c 1 s (enqueueSample c len count s) :=
  ⟨h.goto ⟨hb, hl, id, fun h1 h2 => by simp [h1] at h2⟩ fun hp => by simp [SeqM.inEnqueue] at hp,
    .goto .., rfl, ⟨rfl, rfl, rfl⟩, .goto _ rfl, fun _ => by
      simp [enqueueSample, mainCost, EnqCaller.cost_goto]⟩

theorem enqueueTop_step (h : Consistent s) {c : EnqCaller} {len count : Nat} {rest : List Byte} (hb : BulkIdle s)
    (hl : count + rest.length = len) :
    ∃ t, enqueueTop c len count rest s = .next t ∧ Consistent t ∧ EnqStep c (2 * rest.length + 1) s t := by
  cases hf : ringFull s.cfg.T s.txW s.txR with
  | true =>
    obtain ⟨h1, h2⟩ := enqueueSample_step h (c := c) (len := len) (count := count) hb (by omega)
    exact ⟨_, enqueueTop_full hf, h1, h2.mono (by omega)⟩
  | false =>
    cases rest with
    | nil =>
      obtain ⟨h1, h2⟩ := enqueueSample_step h (c := c) (len := len) (count := count) hb (by omega)
      exact ⟨_, rfl, h1, h2⟩
    | cons x rest =>
      have hne : incIdx s.cfg.T s.txW ≠ s.txR := by simpa [ringFull] using hf
      simp only [List.length_cons] at hl
      refine ⟨_, enqueueTop_room hf h.txW_lt, ?_, ?_, rfl, ⟨rfl, rfl, rfl⟩, .goto _ rfl, fun _ => ?_⟩
      · refine ⟨h.1, h.2, h.3, h.4, h.5, h.6, h.7, h.8, ⟨Memory.wf_write h.9.1, Memory.below_write h.9.2 h.txW_lt⟩, h.10,
          h.11, h.12, h.13, fun _ hp => by simp [SeqM.inEnqueue] at hp, hb, rfl, hne, by omega⟩
      · constructor <;> simp
      · simp only [mainCost, State.goto_seqM, EnqCaller.cost_goto, List.length_cons]
        rw [EnqCaller.cost_congr (s := s) (t := { s with txStore := s.txStore.write s.txW x }) c rfl rfl]
        omega

theorem enqueue_step (h : Consistent s) (hM : s.seqI = .idle) (hp : s.seqM.inEnqueue = false) (c : EnqCaller)
    (bytes : List Byte) :
    ∃ t, enqueue c bytes s = .next t ∧ Consistent t ∧ EnqStep c (2 * bytes.length + 1) s t := by
  unfold enqueue
  split
  · next hb =>
    obtain ⟨h1, h2⟩ := enqueueEnd_step (s := s.flag .txbusy) (h.flag _) hM (fun ht => h.empty_of hp ht) c stTxBusy 0
    exact ⟨_, rfl, h1, (MainFrame.flag ..).trans h2.frame, h2.rxR, h2.lf, h2.responded.of_eq rfl,
      fun hi => (h2.cost hi).trans (by simp [EnqCaller.cost_congr (s := s) (t := s.flag .txbusy) c rfl rfl])⟩
  · next hb => exact enqueueTop_step h (fun hk => by simpa [hk] using hb) (by simp)

theorem enqueueFinish_step (h : Consistent s) (hM : s.seqI = .idle) (he : s.tip = false → s.txW = s.txR) (c : EnqCaller)
    (len count : Nat) :
    Consistent (enqueueFinish c len count s) ∧ EnqStep c 0 s (enqueueFinish c len count s) := by
  unfold enqueueFinish
  split
  · exact enqueueEnd_step h hM he ..
  · obtain ⟨h1, h2⟩ := enqueueEnd_step (s := s.flag .txpartial) (h.flag _) hM he c stTxPartial count
    exact ⟨h1, (MainFrame.flag ..).trans h2.frame, h2.rxR, h2.lf, h2.responded.of_eq rfl,
      fun hi => (h2.cost hi).trans (by simp [EnqCaller.cost_congr (s := s) (t := s.flag .txpartial) c rfl rfl])⟩

/-- How an enqueue ends does not depend on where the sequencer stood. -/
theorem enqueueFinish_goto (hM : s.seqI = .idle) (c : EnqCaller) (len count : Nat) (p : SeqM) :
    enqueueFinish c len count (s.goto p) = enqueueFinish c len count s := by
  unfold enqueueFinish
  split <;> cases c <;>
    simp [enqueueEnd, State.respond, State.context, hM, State.goto, State.flag, State.respondM]

/-- Issuing a unit and leaving the enqueue (R164). -/
theorem Consistent.issued (h : Consistent s) (hne : s.txW ≠ s.txR) (e : Event) :
    Consistent (State.goto (State.emit { s with txUlen := unitLength s, tip := true } e) .idle) := by
  obtain ⟨h1, h2⟩ := h.unitLength_pos hne
  refine ⟨h.1, h.2, h.3, h.4, h.5, h.6, h.7, h.8, h.9, by simpa using h1, h2, ?_, ?_, by simp, trivial⟩
  · intro hb; simp at hb; simp [unitLength, hb]
  · intro hb; simp at hb; simp [unitLength, hb, State.txCount]

theorem enqueueStart_step (h : Consistent s) (hM : s.seqI = .idle) {c : EnqCaller} {len count : Nat} {t : Bool}
    (hp : s.seqM = .enqD c len count t) :
    ∃ u, enqueueStart c len count t s = .next u ∧ Consistent u ∧ EnqStep c 0 s u := by
  obtain ⟨-, -, hf, ht⟩ : SeqM.ok (.enqD c len count t) s := hp ▸ h.seq_ok
  have hT := h.T_ge
  unfold enqueueStart
  split
  · next hc =>
    have hne : s.txW ≠ s.txR := by simpa [ringEmpty] using hc.2
    rw [issueUnit_eq (by omega)]
    have hi := h.issued hne (.txUnit ((ringSlots s.cfg.T s.txR (unitLength s)).map (s.slot .txs)))
    obtain ⟨h1, h2⟩ := enqueueFinish_step hi hM (by simp) c len count
    rw [enqueueFinish_goto (by exact hM)] at h1 h2
    exact ⟨_, rfl, h1, ((MainFrame.issue (hf hc.1) ..).trans (MainFrame.goto _ .idle)).trans h2.frame, h2.rxR, h2.lf, h2.responded.of_eq rfl,
      fun hi => (h2.cost hi).trans (by
        rw [EnqCaller.cost_goto]
        exact Nat.le_of_eq (by congr 1))⟩
  · next hc =>
    have he : s.tip = false → s.txW = s.txR := fun h0 => by
      cases t with
      | true => exact ht rfl h0
      | false => simpa [ringEmpty] using hc
    obtain ⟨h1, h2⟩ := enqueueFinish_step h hM he c len count
    exact ⟨_, rfl, h1, h2⟩

/-! ### The actions of a POLL and a TICK -/

theorem emitGpio_frame (m : List Byte) (s : State) :
    emitGpio m s = s ∨ ∃ e, emitGpio m s = s.emit e := by
  unfold emitGpio
  split
  · exact .inr ⟨_, rfl⟩
  · exact .inl rfl

theorem le_foldr_max {x : Nat} {l : List Nat} (h : x ∈ l) : x ≤ l.foldr max 0 := by
  induction l with
  | nil => simp at h
  | cons y l ih =>
    rcases List.mem_cons.mp h with rfl | h
    · exact Nat.le_max_left _ _
    · exact (ih h).trans (Nat.le_max_right _ _)

theorem maxText_ge {c : Config} {t : List Byte}
    (h : t.length ∈ [textHeartbeatReply.length, textEcho.length, textUnknown.length, textTooLong.length,
      c.statusMsg.length, c.replyHelp.length, c.replyLedOn.length, c.replyLedOff.length, c.replyPing.length,
      c.replyVersion.length]) : t.length ≤ maxText c := le_foldr_max h

theorem replyFor_length (c : Config) (m : List Byte) : (replyFor c m).length ≤ maxText c := by
  apply maxText_ge
  unfold replyFor
  split
  · simp
  · split
    · simp
    · split
      · simp
      · split
        · simp
        · split
          · simp
          · split
            · simp
            · split <;> simp

/-- FEED changes the framer and the error flags only. -/
theorem feed_frame (h : s.lfFill < s.cfg.M) {r : FeedResult} (hf : feed b s = .next (t, r)) :
    MainFrame s t ∧ t.rxR = s.rxR ∧ t.seqM = s.seqM ∧ t.respM = s.respM ∧ t.tip = s.tip ∧ t.txW = s.txW ∧
      t.txStore = s.txStore ∧ t.txUlen = s.txUlen ∧ t.lastSent = s.lastSent ∧ t.trace = s.trace := by
  rcases feed_cases h (b := b) with ⟨-, he⟩ | ⟨-, -, he⟩ | ⟨-, -, he⟩ | ⟨-, -, -, he⟩ | ⟨-, -, -, he⟩ <;>
  · rw [he] at hf
    cases hf
    refine ⟨?_, by simp⟩
    constructor <;> simp [← BitVec.or_assoc]

/-- POLL's use of a popped byte. -/
theorem pollByte_step (h : Consistent s) (hM : s.seqI = .idle) (hp : s.seqM.inEnqueue = false) (l : PollLocals) (v : Byte) :
    ∃ t, pollByte l v s = .next t ∧ Consistent t ∧ MainFrame s t ∧ t.rxR = s.rxR ∧ Responded s t ∧
      (t.seqM.isIdle = false → mainCost t ≤ 2 * maxText s.cfg + 1 + pollCost s.cfg s.rxCount) := by
  obtain ⟨u, r, hf, hu⟩ := h.feed (b := v)
  obtain ⟨hF, hR, hm, hresp, htip, htxW, -, -, -, -⟩ := feed_frame h.lfFill_lt hf
  have hMu : u.seqI = .idle := hF.seqI.trans hM
  have hpu : u.seqM.inEnqueue = false := by rw [hm]; exact hp
  have hcount := hF.rxCount hR
  have key : ∀ (w : State), Consistent w → MainFrame u w → w.rxR = u.rxR → w.seqM = u.seqM → w.respM = u.respM →
      ∀ (c : PollLocals) (bytes : List Byte), bytes.length ≤ maxText s.cfg →
      ∃ t, enqueue (.poll c) bytes w = .next t ∧ Consistent t ∧ MainFrame s t ∧ t.rxR = s.rxR ∧ Responded s t ∧
        (t.seqM.isIdle = false → mainCost t ≤ 2 * maxText s.cfg + 1 + pollCost s.cfg s.rxCount) := by
    intro w hw hFw hRw hmw hrespw c bytes hlen
    obtain ⟨t, ht, hct, hE⟩ := enqueue_step hw (hFw.seqI.trans hMu) (by rw [hmw]; exact hpu) (.poll c) bytes
    refine ⟨t, ht, hct, (hF.trans hFw).trans hE.frame, hE.rxR.trans (hRw.trans hR), hE.responded.of_eq (by
      rw [hrespw, hresp]), fun hi => (hE.cost hi).trans ?_⟩
    simp only [EnqCaller.cost, hFw.cfg, hF.cfg, hFw.rxCount hRw, hcount]
    omega
  unfold pollByte
  rw [hf, andThen_next]
  cases r with
  | none =>
    refine ⟨_, rfl, hu.goto trivial fun _ h0 => hu.empty_of hpu h0, hF.trans (.goto ..), hR, ?_, fun _ => ?_⟩
    · exact (Responded.goto u rfl).of_eq hresp
    · simp only [mainCost, State.goto_seqM, State.goto_cfg, State.rxCount_goto, hcount, hF.cfg]
      omega
  | msg m =>
    dsimp only [dispatch]
    have hl : (replyFor u.cfg m).length ≤ maxText s.cfg := by rw [hF.cfg]; exact replyFor_length ..
    rcases emitGpio_frame m u with he | ⟨e, he⟩ <;> rw [he]
    · exact key u hu (.refl u) rfl rfl rfl _ _ hl
    · exact key (u.emit e) (hu.emit e) (.emit ..) rfl rfl rfl _ _ hl
  | overflow =>
    exact key u hu (.refl u) rfl rfl rfl _ _ (maxText_ge (by simp))

theorem tickStart_step (h : Consistent s) (hM : s.seqI = .idle) (hp : s.seqM.inEnqueue = false) (now : Word32) :
    ∃ t, tickStart now s = .next t ∧ Consistent t ∧ MainFrame s t ∧ t.rxR = s.rxR ∧ Responded s t ∧
      (t.seqM.isIdle = false → mainCost t ≤ 2 * s.cfg.statusMsg.length + 1) := by
  unfold tickStart
  split
  · obtain ⟨t, ht, hct, hE⟩ := enqueue_step h hM hp (.tick now) s.cfg.statusMsg
    exact ⟨t, ht, hct, hE.frame, hE.rxR, hE.responded, fun hi => by simpa [EnqCaller.cost] using hE.cost hi⟩
  · rw [State.respond_idle s hM]
    exact ⟨_, rfl, h.respondM (fun h0 => h.empty_of hp h0) _, .respondM .., rfl, .respondM .., fun hi => by
      simp [SeqM.isIdle] at hi⟩

/-! ### One action -/

/-- What one action of a suspended or begun operation of port M does (R38, R252). -/
structure MainStep (s t : State) : Prop where
  consistent : Consistent t
  frame : MainFrame s t
  responded : Responded s t
  cost : t.seqM.isIdle = false → mainCost t < mainCost s

theorem mainAction_step (h : Consistent s) (hM : s.seqI = .idle) (hi : s.seqM.isIdle = false) :
    ∃ t, mainAction s = .next t ∧ MainStep s t := by
  have hok := h.seq_ok
  have hgoto : ∀ p : SeqM, p.ok s → p.isIdle = false → s.seqM.inEnqueue = false → mainCost (s.goto p) < mainCost s →
      MainStep s (s.goto p) := fun p h1 h2 h3 h4 =>
    ⟨h.goto h1 fun _ h0 => h.empty_of h3 h0, .goto .., .goto _ h2, fun _ => h4⟩
  have hresp : s.seqM.inEnqueue = false → ∀ r, MainStep s (s.respond r) := fun h3 r => by
    rw [State.respond_idle s hM]
    exact ⟨h.respondM (fun h0 => h.empty_of h3 h0) _, .respondM .., .respondM .., fun hi => by simp [SeqM.isIdle] at hi⟩
  have hpc := pollCost_ge s.cfg s.rxCount
  unfold mainAction
  cases hp : s.seqM with
  | idle => simp [hp, SeqM.isIdle] at hi
  | isEmptyA => exact ⟨_, rfl, hgoto _ trivial rfl (by simp [hp, SeqM.inEnqueue]) (by simp [mainCost, hp])⟩
  | isEmptyB w => exact ⟨_, rfl, hresp (by simp [hp, SeqM.inEnqueue]) _⟩
  | isFullA => exact ⟨_, rfl, hgoto _ trivial rfl (by simp [hp, SeqM.inEnqueue]) (by simp [mainCost, hp])⟩
  | isFullB w => exact ⟨_, rfl, hresp (by simp [hp, SeqM.inEnqueue]) _⟩
  | popA c =>
    refine ⟨_, rfl, hgoto _ ⟨h.rxW_lt, Nat.le_refl _⟩ rfl (by simp [hp, SeqM.inEnqueue]) ?_⟩
    cases c
    · simp [mainCost, hp]
    · simp only [mainCost, hp, State.goto_seqM, State.goto_cfg, State.rxCount_goto]
      omega
  | popB c w =>
    rw [hp] at hok
    have hq : s.seqM.inEnqueue = false := by simp [hp, SeqM.inEnqueue]
    simp only [popRead]
    by_cases hw : w = s.rxR
    · simp only [ringEmpty, hw, decide_true, if_true]
      cases c <;> exact ⟨_, rfl, hresp hq _⟩
    · have hd : distIdx s.cfg.N w s.rxR ≠ 0 := fun h0 => hw ((distIdx_eq_zero h.rxR_lt).mp h0)
      have hne : s.rxW ≠ s.rxR := fun h0 => by
        have := h.rxCount_eq_zero.mpr h0
        have := hok.2
        omega
      simp only [ringEmpty, hw, decide_false, memRead_of_lt (sp := .rxs) (i := s.rxR) h.rxR_lt, andThen_next]
      refine ⟨_, rfl, hgoto _ ⟨hne, rfl⟩ rfl hq ?_⟩
      have hc : s.rxCount ≠ 0 := fun h0 => hne (h.rxCount_eq_zero.mp h0)
      have := pollCost_pred s.cfg hc
      cases c
      · simp [mainCost, hp]
      · simp only [mainCost, hp, State.goto_seqM, State.goto_cfg, State.rxCount_goto]
        omega
  | popC c v =>
    rw [hp] at hok
    obtain ⟨hne, -⟩ := hok
    have hq : s.seqM.inEnqueue = false := by simp [hp, SeqM.inEnqueue]
    have hc : s.rxCount ≠ 0 := fun h0 => hne (h.rxCount_eq_zero.mp h0)
    have hn : distIdx s.cfg.N s.rxW (incIdx s.cfg.N s.rxR) = s.rxCount - 1 :=
      distIdx_inc_read h.rxW_lt h.rxR_lt hne
    have hadv : ∀ p : SeqM, p.ok { s with rxR := incIdx s.cfg.N s.rxR } → Consistent (State.goto { s with rxR := incIdx s.cfg.N s.rxR } p) :=
      fun p hpk => h.advance hq hpk
    simp only [popAdvance]
    cases c with
    | pop =>
      simp only []
      rw [State.respond_idle _ (by exact hM)]
      refine ⟨_, rfl, (hadv .idle trivial).update .., ?_, .inl ⟨rfl, _, rfl⟩, fun hi => by simp [SeqM.isIdle] at hi⟩
      constructor <;> simp
    | poll l =>
      refine ⟨_, rfl, hadv _ trivial, ?_, .inr ⟨rfl, rfl⟩, fun _ => ?_⟩
      · constructor <;> simp
      · have := pollCost_pred s.cfg hc
        have hs : mainCost s = pollCost s.cfg s.rxCount - 2 := by simp [mainCost, hp]
        have ht : mainCost (State.goto { s with rxR := incIdx s.cfg.N s.rxR }
            (.pollFeed { l with drained := l.drained + 1 } v)) =
            pollCost s.cfg (s.rxCount - 1) + 2 * maxText s.cfg + 4 := by
          rw [← hn]; rfl
        exact lt_of_eq_of_lt ht (by omega)
  | pollFeed l v =>
    obtain ⟨t, ht, hc, hF, -, hR, hcost⟩ := pollByte_step h hM (by simp [hp, SeqM.inEnqueue]) l v
    refine ⟨t, ht, hc, hF, hR, fun hi => ?_⟩
    have := hcost hi
    have hs : mainCost s = pollCost s.cfg s.rxCount + 2 * maxText s.cfg + 4 := by simp [mainCost, hp]
    omega
  | tickA now =>
    obtain ⟨t, ht, hc, hF, -, hR, hcost⟩ := tickStart_step h hM (by simp [hp, SeqM.inEnqueue]) now
    refine ⟨t, ht, hc, hF, hR, fun hi => ?_⟩
    have := hcost hi
    have hs : mainCost s = 2 * s.cfg.statusMsg.length + 4 := by simp [mainCost, hp]
    omega
  | enq0 c bytes =>
    obtain ⟨t, ht, hc, hE⟩ := enqueue_step h hM (by simp [hp, SeqM.inEnqueue]) c bytes
    refine ⟨t, ht, hc, hE.frame, hE.responded, fun hi => ?_⟩
    have := hE.cost hi
    have hs : mainCost s = 2 * bytes.length + 3 + c.cost s := by simp [mainCost, hp]
    omega
  | enqA c len count rest =>
    rw [hp] at hok
    obtain ⟨t, ht, hc, hE⟩ := enqueueTop_step h (c := c) hok.1 hok.2
    refine ⟨t, ht, hc, hE.frame, hE.responded, fun hi => ?_⟩
    have := hE.cost hi
    have hs : mainCost s = 2 * rest.length + 2 + c.cost s := by simp [mainCost, hp]
    omega
  | enqB c len count next rest =>
    rw [hp] at hok
    obtain ⟨hb, rfl, hne, hl⟩ := hok
    refine ⟨_, rfl, ?_, ?_, .inr ⟨rfl, rfl⟩, fun _ => ?_⟩
    · have hcnt := distIdx_inc_write h.txW_lt h.txR_lt hne
      refine ⟨h.1, h.2, h.3, incIdx_lt h.txW_lt, h.5, h.6, h.7, h.8, h.9, h.10, ?_, h.12, ?_, ?_, hb, hl⟩
      · have := h.unit_le
        simp only [State.txCount, enqueuePublish, State.goto] at this ⊢
        omega
      · intro hk ht
        have := hb hk
        simp only [enqueuePublish, State.goto] at ht
        simp [this] at ht
      · intro _ hq; simp [enqueuePublish, SeqM.inEnqueue] at hq
    · constructor <;> simp [enqueuePublish]
    · have hs : mainCost s = 2 * rest.length + 3 + c.cost s := by simp [mainCost, hp]
      have ht : mainCost (enqueuePublish c len count (incIdx s.cfg.T s.txW) rest s) =
          2 * rest.length + 2 + c.cost s := by cases c <;> rfl
      exact lt_of_eq_of_lt ht (by omega)
  | enqD c len count t =>
    obtain ⟨u, hu, hc, hE⟩ := enqueueStart_step h hM hp
    refine ⟨u, hu, hc, hE.frame, hE.responded, fun hi => ?_⟩
    have := hE.cost hi
    have hs : mainCost s = 1 + c.cost s := by simp [mainCost, hp]
    omega

/-! ### A run of actions -/

theorem State.arrive_frame (s : State) :
    s.arrive.cfg = s.cfg ∧ s.arrive.rxStore = s.rxStore ∧ s.arrive.rxW = s.rxW ∧ s.arrive.rxR = s.rxR ∧
      s.arrive.seqM = s.seqM ∧ s.arrive.seqI = s.seqI ∧ s.arrive.respM = s.respM ∧ s.arrive.respI = s.respI ∧
      s.arrive.txR = s.txR ∧ s.arrive.rxovfCnt = s.rxovfCnt ∧ s.arrive.rxArmed = s.rxArmed ∧
      s.arrive.errflags = s.errflags ∧ s.arrive.trace = s.trace ∧ s.arrive.tip = s.tip := by
  unfold State.arrive State.receive
  split
  · simp
  · split <;> simp

theorem mainCost_arrive (s : State) : mainCost s.arrive = mainCost s := by
  obtain ⟨hc, -, hw, hr, hm, -⟩ := s.arrive_frame
  have hn : s.arrive.rxCount = s.rxCount := by simp [State.rxCount, hc, hw, hr]
  unfold mainCost
  rw [hm]
  cases s.seqM with
  | popA c => cases c <;> simp [hc, hn]
  | popB c w => cases c <;> simp [hc, hn]
  | popC c v => cases c <;> simp [hc, hn]
  | _ => simp [hc, hn, EnqCaller.cost_congr _ hc hn]

/-- A property that one action of port M and an arrival keep is kept by a run (R38): one induction for all of them. -/
theorem runMain_induction {P : State → Prop}
    (action : ∀ s t, P s → Consistent s → s.seqI = .idle → s.seqM.isIdle = false → mainAction s = .next t → P t)
    (arrive : ∀ s, P s → P s.arrive) (fuel : Nat) (s : State) (h : P s) (hc : Consistent s) (hM : s.seqI = .idle)
    (hi : s.seqM.isIdle = false) :
    ∃ t, runMain fuel s = .next t ∧ P t ∧ Consistent t ∧ t.seqI = .idle := by
  induction fuel generalizing s with
  | zero => exact ⟨s, rfl, h, hc, hM⟩
  | succ fuel ih =>
    obtain ⟨u, hu, hs⟩ := mainAction_step hc hM hi
    have hP := action s u h hc hM hi hu
    have hMu : u.seqI = .idle := hs.frame.seqI.trans hM
    have hMa : u.arrive.seqI = .idle := u.arrive_frame.2.2.2.2.2.1.trans hMu
    simp only [runMain, hu, andThen_next]
    split
    · exact ⟨u, rfl, hP, hs.consistent, hMu⟩
    · next hiu =>
      split
      · exact ⟨_, rfl, arrive u hP, hs.consistent.arrive, hMa⟩
      · refine ih _ (arrive u hP) hs.consistent.arrive hMa ?_
        rw [u.arrive_frame.2.2.2.2.1]
        simpa using hiu

theorem Undisturbed.arrive (h : Undisturbed s) : s.arrive = s := by simp [State.arrive, h.1]

theorem Undisturbed.preempted (h : Undisturbed s) : s.preempted = false := by
  simp [State.preempted, h.2.1, h.2.2]

theorem MainFrame.undisturbed (h : MainFrame s t) (hu : Undisturbed s) : Undisturbed t := by
  simpa [Undisturbed, h.inputs, h.resetIn, h.portI] using hu

/-- An operation in progress has an action to take. -/
theorem mainCost_pos (h : Consistent s) (hi : s.seqM.isIdle = false) : 0 < mainCost s := by
  have := pollCost_ge s.cfg s.rxCount
  unfold mainCost
  cases hp : s.seqM with
  | idle => simp [hp, SeqM.isIdle] at hi
  | popA c => cases c <;> simp; omega
  | popB c w => cases c <;> simp; omega
  | popC c v =>
    have hok := h.seq_ok
    rw [hp] at hok
    have := pollCost_pred s.cfg fun h0 => hok.1 (h.rxCount_eq_zero.mp h0)
    have := pollCost_ge s.cfg (s.rxCount - 1)
    cases c <;> simp; omega
  | _ => simp

/-- A run's next action, when it answers and nothing makes the operation give way after it. -/
theorem runMain_go {fuel : Nat} (ha : mainAction s = .next t) (hi : t.seqM.isIdle = false) (hu : Undisturbed t) :
    runMain (fuel + 1) s = runMain fuel t := by
  simp [runMain, ha, hi, hu.arrive, hu.preempted]

/-- A run's last action. -/
theorem runMain_end {fuel : Nat} (ha : mainAction s = .next t) (hi : t.seqM.isIdle = true) :
    runMain (fuel + 1) s = .next t := by
  simp [runMain, ha, hi]

/-- An action after which the operation gives way (R252). -/
theorem runMain_yield {fuel : Nat} (ha : mainAction s = .next t) (hi : t.seqM.isIdle = false)
    (hp : t.arrive.preempted = true) : runMain (fuel + 1) s = .next t.arrive := by
  simp [runMain, ha, hi, hp]

/-- Left alone, an operation of port M goes on to its response within `mainCost` actions (R304). -/
theorem runMain_completes (fuel : Nat) (h : Consistent s) (hM : s.seqI = .idle) (hi : s.seqM.isIdle = false)
    (hu : Undisturbed s) (hf : mainCost s ≤ fuel) :
    ∃ t, runMain fuel s = .next t ∧ Consistent t ∧ MainFrame s t ∧ t.seqM = .idle ∧ ∃ r, t.respM = s.respM ++ [r] := by
  induction fuel generalizing s with
  | zero =>
    have := mainCost_pos h hi
    omega
  | succ fuel ih =>
    obtain ⟨u, hu', hs⟩ := mainAction_step h hM hi
    have hMu : u.seqI = .idle := hs.frame.seqI.trans hM
    have huu := hs.frame.undisturbed hu
    simp only [runMain, hu', andThen_next, huu.arrive, huu.preempted]
    rcases hs.responded with ⟨h1, h2⟩ | ⟨h1, h2⟩
    · simp only [h1, SeqM.isIdle, if_true]
      exact ⟨u, rfl, hs.consistent, hs.frame, h1, h2⟩
    · obtain ⟨t, ht, hct, hft, him, r, hr⟩ := ih hs.consistent hMu h1 huu (by have := hs.cost h1; omega)
      simp only [h1, Bool.false_eq_true, if_false]
      exact ⟨t, ht, hct, hs.frame.trans hft, him, r, by rw [hr, h2]⟩

/-- The fuel beyond `mainCost` is not used by an operation that is left alone. -/
theorem runMain_eq_resumeMain (fuel : Nat) (h : Consistent s) (hM : s.seqI = .idle) (hi : s.seqM.isIdle = false)
    (hu : Undisturbed s) (hf : mainCost s ≤ fuel) : runMain fuel s = resumeMain s := by
  induction hn : mainCost s using Nat.strong_induction_on generalizing s fuel with
  | _ n ih =>
    obtain ⟨t, ht, hs⟩ := mainAction_step h hM hi
    have hpos := mainCost_pos h hi
    have hut := hs.frame.undisturbed hu
    have hMt : t.seqI = .idle := hs.frame.seqI.trans hM
    obtain ⟨fuel, rfl⟩ := Nat.exists_eq_succ_of_ne_zero (show fuel ≠ 0 by omega)
    obtain ⟨m, hm⟩ := Nat.exists_eq_succ_of_ne_zero (show mainCost s ≠ 0 by omega)
    rw [resumeMain, hm]
    by_cases hit : t.seqM.isIdle = true
    · rw [Nat.succ_eq_add_one, runMain_end ht hit, Nat.succ_eq_add_one, runMain_end ht hit]
    · have hit : t.seqM.isIdle = false := by simpa using hit
      have hc := hs.cost hit
      rw [Nat.succ_eq_add_one, runMain_go ht hit hut, Nat.succ_eq_add_one, runMain_go ht hit hut,
        ih _ (by omega) fuel hs.consistent hMt hit hut (by omega) rfl,
        ih _ (by omega) m hs.consistent hMt hit hut (by omega) rfl]

/-- An operation that is left alone goes on from the state its next action answers. -/
theorem resumeMain_go (h : Consistent s) (hM : s.seqI = .idle) (hi : s.seqM.isIdle = false) (hu : Undisturbed s)
    (ht : mainAction s = .next t) (hit : t.seqM.isIdle = false) : resumeMain s = resumeMain t := by
  obtain ⟨t', ht', hs⟩ := mainAction_step h hM hi
  rw [ht] at ht'
  cases ht'
  have hpos := mainCost_pos h hi
  have hc := hs.cost hit
  have hut := hs.frame.undisturbed hu
  have hMt : t.seqI = .idle := hs.frame.seqI.trans hM
  rw [← runMain_eq_resumeMain (mainCost s + 1) h hM hi hu (by omega), runMain_go ht hit hut,
    runMain_eq_resumeMain _ hs.consistent hMt hit hut (by omega)]

/-- An operation ends with the action that answers an idle sequencer. -/
theorem resumeMain_end (h : Consistent s) (hi : s.seqM.isIdle = false) (ht : mainAction s = .next t)
    (hit : t.seqM.isIdle = true) : resumeMain s = .next t := by
  obtain ⟨m, hm⟩ := Nat.exists_eq_succ_of_ne_zero (Nat.pos_iff_ne_zero.mp (mainCost_pos h hi))
  rw [resumeMain, hm, Nat.succ_eq_add_one, runMain_end ht hit]

end Sys2Proof.Machine
end

