-- ==== Sys2Proof/Laws/Exec.lean ====
section
/-!
SUPPORT. What `exec` can do, once for each port: an operation of port I in one action,
    an operation of port M begun or completed at once.
-/

namespace Sys2Proof.Machine

/-- An operation on a port that does not allow it has no effect but `ILLEGAL` (R105). -/
theorem exec_wrongPort {i : Instr} {s : State} (h : ¬ (s.context = .M ∧ s.seqM.isIdle = false)) (ha :
    i.opcode.allowedOn s.context = false) :
    exec i s = .next (illegalCtx s) := by
  cases i <;> simp only [exec, execPush, execPop, execIsempty, execIsfull, execFeed, execEnq, execTxdone,
      execRxbyte, execPoll, execTick, execRxfault, execTxfault, execRdcsr, execReset, execStart, accept] <;>
    rw [if_neg h] <;> simp [Instr.opcode] at ha <;> simp [ha]

theorem context_of_atInterrupt {s : State} (h : AtInterrupt s) : s.context = .I := by simp [State.context,
    show s.seqI = .executing from h]

theorem context_of_atMain {s : State} (h : AtMain s) : s.context = .M := by simp [State.context, h.1]

theorem accept_of_atInterrupt {s : State} {o : Opcode} {f} (h : AtInterrupt s) (ho : o.allowedOn .I = true) :
    accept o f s = f s := by
  simp [accept, context_of_atInterrupt h, ho]

theorem accept_of_atMain {s : State} {o : Opcode} {f} (h : AtMain s) (ho : o.allowedOn .M = true) :
    accept o f s = f s := by
  simp [accept, context_of_atMain h, ho, h.2, SeqM.isIdle]

theorem respond_of_executing {s : State} {r} (h : s.seqI = .executing) : s.respond r = s.respondI r :=
    by simp [State.respond, State.context, h]

theorem respond_of_idle {s : State} {r} (h : s.seqI = .idle) : s.respond r = s.respondM r :=
    by simp [State.respond, State.context, h]

/-- Everything a completion does (R170, R231). -/
theorem completeUnit_eq {s : State} (hT : 0 < s.cfg.T) : completeUnit s = .next (
       let r := (s.txR + s.txUlen) % s.cfg.T
       if s.txW = r then { s with txR := r, tip := false, txUlen := 0 }
       else
         let u := if s.cfg.txMode = .byte then 1 else distIdx s.cfg.T s.txW r
         { s with
           txR := r, tip := true, txUlen := u,
           trace := s.trace ++ [.txUnit ((List.range u).map fun k => s.slot .txs ((r + k) % s.cfg.T))]}) := by
  by_cases h : s.txW = addIdx s.cfg.T s.txR s.txUlen
  · rw [completeUnit_last h]
    have h' : s.txW = (s.txR + s.txUlen) % s.cfg.T := h
    simp only [← h', if_true]
    simp [State.released, ← h]
  · rw [completeUnit_more h, issueUnit_eq (s := s.released) hT]
    have h' : ¬ s.txW = (s.txR + s.txUlen) % s.cfg.T := h
    simp only [h', if_false]
    have hu : unitLength s.released = if s.cfg.txMode = .byte then 1 else distIdx s.cfg.T s.txW ((s.txR + s.txUlen) % s.cfg.T) := by
      unfold unitLength; simp only [State.released]; cases s.cfg.txMode <;> simp [State.txCount, addIdx]
    rw [hu]
    simp [State.released, State.emit, ringSlots, addIdx, State.slot, State.store, Function.comp_def]

theorem completeUnit_frame_of_pos {s x : State} (hT : 0 < s.cfg.T) (h : completeUnit s = .next x) :
    x = { s with txR := (s.txR + s.txUlen) % s.cfg.T, tip := x.tip, txUlen := x.txUlen, trace := x.trace } := by
  rw [completeUnit_eq hT] at h
  simp only [Host.Outcome.next.injEq] at h
  subst h
  split <;> rfl

theorem completeUnit_frame {s x : State} (h : completeUnit s = .next x) :
    x = { s with txR := x.txR, tip := x.tip, txUlen := x.txUlen, trace := x.trace } := by
  by_cases hl : s.txW = addIdx s.cfg.T s.txR s.txUlen
  · rw [completeUnit_last hl] at h; cases h; rfl
  · rw [completeUnit_more hl] at h
    have := issueUnit_next h
    subst this; rfl

/-- Everything a command of port I does before its response: one push at most, or one completion, and flags, counter, trace and
`rx_armed` (R23, R28, R250). -/
def InterruptEffect (s u : State) : Prop :=
  ∃ m c tr b x, u = { x with errflags := s.errflags ||| m, rxovfCnt := c, trace := tr, rxArmed := b } ∧
    (x = s ∨
     (∃ v, ringFull s.cfg.N s.rxW s.rxR = false ∧ s.rxW < s.cfg.N ∧
        x = { s with rxStore := s.rxStore.write s.rxW v, rxW := incIdx s.cfg.N s.rxW }) ∨
     (s.tip = true ∧ 0 < s.cfg.T ∧ completeUnit s = .next x))

theorem InterruptEffect.same (s : State) : InterruptEffect s s :=
    ⟨0#8, s.rxovfCnt, s.trace, s.rxArmed, s, by simp, .inl rfl⟩

theorem InterruptEffect.flag (s : State) (f) : InterruptEffect s (s.flag f) :=
    ⟨f.mask, s.rxovfCnt, s.trace, s.rxArmed, s, rfl, .inl rfl⟩

theorem push_interruptEffect {b : Byte} {s t : State} (h : push b s = .next t) (ar : Bool) (tr) :
    InterruptEffect s { t with rxArmed := ar, trace := tr } := by
  rcases push_cases h with ⟨-, rfl⟩ | ⟨hf, hw, rfl⟩
  · exact ⟨ErrFlag.rxovf.mask, satInc s.rxovfCnt, tr, ar, s, rfl, .inl rfl⟩
  · exact ⟨0#8, s.rxovfCnt, tr, ar, _, by simp, .inr (.inl ⟨b, hf, hw, rfl⟩)⟩

/-- A command of port I answers, with such an effect, in any state whose index is in range. -/
theorem exec_interrupt_of_lt {i : Instr} {s : State} (h : AtInterrupt s) (hT : 0 < s.cfg.T) (hw : s.rxW < s.cfg.N) :
    ∃ u r, exec i s = .next (u.respondI r) ∧ InterruptEffect s u := by
  have h' : s.seqI = .executing := h
  have hd : ∀ u : State, u.seqI = .executing → ∀ r, u.respond r = u.respondI r := fun u hu r => respond_of_executing hu
  by_cases ha : i.opcode.allowedOn .I = true
  swap
  · refine ⟨s.flag .illegal, [stIllegalCtx], ?_, .flag ..⟩
    rw [exec_wrongPort (by simp [context_of_atInterrupt h]) (by rw [context_of_atInterrupt h]; simpa using ha)]
    simp [illegalCtx, State.raise, hd _ (show (s.flag .illegal).seqI = _ from h')]
  have pushnext : ∀ (s : State) (b : Byte), s.rxW < s.cfg.N → ∃ t, push b s = .next t := by
    intro s b hw
    by_cases hf : ringFull s.cfg.N s.rxW s.rxR = true
    · exact ⟨_, push_full hf⟩
    · exact ⟨_, push_room (by simpa using hf) hw⟩
  cases i with
  | push b =>
    obtain ⟨t, ht⟩ := pushnext s b hw
    have hi : t.seqI = .executing := by
      rcases push_cases ht with ⟨-, rfl⟩ | ⟨-, -, rfl⟩ <;> exact h
    refine ⟨t, [pushStatus s], ?_, push_interruptEffect ht t.rxArmed t.trace⟩
    simp [exec, execPush, accept_of_atInterrupt h (o := .push) rfl, ht, hd t hi]
  | isempty => exact ⟨s, _, by simp only [exec, execIsempty, accept_of_atInterrupt h (o := .isempty) rfl, context_of_atInterrupt h, hd s h']; rfl, .same s⟩
  | isfull => exact ⟨s, _, by simp only [exec, execIsfull, accept_of_atInterrupt h (o := .isfull) rfl, context_of_atInterrupt h, hd s h']; rfl, .same s⟩
  | rdcsr a => exact ⟨s, _, by simp only [exec, execRdcsr, accept_of_atInterrupt h (o := .rdcsr) rfl, hd s h']; rfl, .same s⟩
  | txdone =>
    by_cases ht : s.tip = false
    · exact ⟨_, _, by simp only [exec, execTxdone, accept_of_atInterrupt h (o := .txdone) rfl, ht, if_true, State.raise, hd (s.flag .spurious) h']; rfl, .flag ..⟩
    · obtain ⟨x, hx⟩ : ∃ x, completeUnit s = .next x := ⟨_, completeUnit_eq hT⟩
      have hi : x.seqI = .executing := by
        rw [completeUnit_eq hT] at hx
        simp only [Host.Outcome.next.injEq] at hx
        subst hx
        split <;> exact h
      refine ⟨x, [stOk], by simp [exec, execTxdone, accept_of_atInterrupt h (o := .txdone) rfl, ht, hx, hd x hi], ?_⟩
      refine ⟨0#8, x.rxovfCnt, x.trace, x.rxArmed, x, ?_, .inr (.inr ⟨by simpa using ht, hT, hx⟩)⟩
      have : x.errflags = s.errflags := by
        rw [completeUnit_eq hT] at hx
        simp only [Host.Outcome.next.injEq] at hx
        subst hx
        split <;> rfl
      simp [← this]
  | rxbyte b =>
    by_cases ha : s.rxArmed = false
    · exact ⟨s, _, by simp only [exec, execRxbyte, accept_of_atInterrupt h (o := .rxbyte) rfl, ha, if_true, hd s h']; rfl, .same s⟩
    · obtain ⟨t, ht⟩ := pushnext { s with rxArmed := false } b hw
      refine ⟨State.emit { t with rxArmed := true } .armRx, [pushStatus s], ?_, ?_⟩
      · have hi : (State.emit { t with rxArmed := true } .armRx).seqI = .executing := by
          rcases push_cases ht with ⟨-, rfl⟩ | ⟨-, -, rfl⟩ <;> exact h
        simp [exec, execRxbyte, accept_of_atInterrupt h (o := .rxbyte) rfl, ha, rxStore, ht, hd _ hi]
      · rcases push_cases ht with ⟨-, rfl⟩ | ⟨hf, hw, rfl⟩
        · exact ⟨ErrFlag.rxovf.mask, satInc s.rxovfCnt, _, true, s, rfl, .inl rfl⟩
        · exact ⟨0#8, s.rxovfCnt, s.trace ++ [.armRx], true, _, by simp [State.emit], .inr (.inl ⟨b, hf, hw, rfl⟩)⟩
  | rxfault =>
    by_cases ha : s.rxArmed = false
    · exact ⟨s, _, by simp only [exec, execRxfault, accept_of_atInterrupt h (o := .rxfault) rfl, ha, if_true, hd s h']; rfl, .same s⟩
    · refine ⟨rxFault s, [stTransportFault], by simp [exec, execRxfault, accept_of_atInterrupt h (o := .rxfault) rfl, ha, hd (rxFault s) h'], ?_⟩
      exact ⟨ErrFlag.rxfault.mask, s.rxovfCnt, _, true, s, rfl, .inl rfl⟩
  | txfault =>
    by_cases ht : s.tip = false
    · exact ⟨_, _, by simp only [exec, execTxfault, accept_of_atInterrupt h (o := .txfault) rfl, ht, if_true, State.raise, hd (s.flag .spurious) h']; rfl, .flag ..⟩
    · let s' := (s.flag .txfault).emit (.faultUp .tx)
      obtain ⟨x, hx⟩ : ∃ x, completeUnit s' = .next x := ⟨_, completeUnit_eq (s := s') hT⟩
      obtain ⟨y, hy⟩ : ∃ x, completeUnit s = .next x := ⟨_, completeUnit_eq hT⟩
      have hxy : x = { y with errflags := s.errflags ||| ErrFlag.txfault.mask, trace := x.trace, rxovfCnt := s.rxovfCnt, rxArmed := s.rxArmed } ∧ x.seqI = .executing := by
        rw [completeUnit_eq (s := s') hT] at hx
        rw [completeUnit_eq hT] at hy
        simp only [Host.Outcome.next.injEq] at hx hy
        subst hx hy
        by_cases hc : s.txW = (s.txR + s.txUlen) % s.cfg.T
        · have hc' : s'.txW = (s'.txR + s'.txUlen) % s'.cfg.T := hc
          simp only [hc, if_true, hc']
          exact ⟨rfl, h⟩
        · have hc' : ¬ s'.txW = (s'.txR + s'.txUlen) % s'.cfg.T := hc
          simp only [hc, if_false, hc']
          exact ⟨rfl, h⟩
      refine ⟨x, [stTransportFault], ?_, ?_⟩
      · simp only [exec, execTxfault, accept_of_atInterrupt h (o := .txfault) rfl, ht]
        change andThen (completeUnit s') _ = _
        rw [hx]; simp [hd x hxy.2]
      · exact ⟨ErrFlag.txfault.mask, s.rxovfCnt, x.trace, s.rxArmed, y, hxy.1, .inr (.inr ⟨by simpa using ht, hT, hy⟩)⟩
  | _ => simp [Instr.opcode, Opcode.allowedOn] at ha

theorem InterruptEffect.consistent {s u : State} (h : Consistent s) (hs : InterruptEffect s u) : Consistent u := by
  obtain ⟨m, c, tr, b, x, rfl, hx⟩ := hs
  have hx : Consistent x := by
    rcases hx with rfl | ⟨v, hf, hw, rfl⟩ | ⟨ht, hT, hc⟩
    · exact h
    · exact h.pushStore hf
    · obtain ⟨t, h1, h2⟩ := h.completeUnit ht
      rw [h1] at hc; cases hc; exact h2
  exact hx.update ..

/-- A command of port I answers, with such an effect, and keeps the invariant. -/
theorem exec_interrupt {i : Instr} {s : State} (hc : Consistent s) (h : AtInterrupt s) :
    ∃ u r, exec i s = .next (u.respondI r) ∧ InterruptEffect s u ∧ Inv (u.respondI r) := by
  obtain ⟨u, r, h1, h2⟩ := exec_interrupt_of_lt (i := i) h (by have := hc.T_ge; omega) hc.rxW_lt
  exact ⟨u, r, h1, h2, (h2.consistent hc).respondI _, rfl⟩

theorem InterruptEffect.frame {s u : State} (hs : InterruptEffect s u) :
    u = { s with rxStore := u.rxStore, rxW := u.rxW, txR := u.txR, tip := u.tip, txUlen := u.txUlen, rxArmed := u.rxArmed, errflags := u.errflags, rxovfCnt := u.rxovfCnt, trace := u.trace } := by
  obtain ⟨m, c, tr, b, x, rfl, hx⟩ := hs
  rcases hx with rfl | ⟨v, hf, hw, rfl⟩ | ⟨ht, hT, hc⟩
  · rfl
  · rfl
  · have := completeUnit_frame hc
    rw [this]

/-- A byte is written at `tx_w` and not yet published. -/
def SeqM.Unpublished (p : SeqM) : Prop := ∃ c len count next rest, p = .enqB c len count next rest

theorem not_unpublished {p : SeqM} (h : ∀ c len count next rest, p ≠ .enqB c len count next rest) :
    ¬ SeqM.Unpublished p := by
  rintro ⟨c, len, count, next, rest, rfl⟩; exact h _ _ _ _ _ rfl

/-- A command begun on port M either runs its sequencer from its first action, or completes at once with one of these effects. -/
theorem exec_main {i : Instr} {s : State} (hc : Consistent s) (h : AtMain s) :
    (∃ p, p.isIdle = false ∧ p.inEnqueue = false ∧ (∀ x : State, p.ok x) ∧ ¬ SeqM.Unpublished p ∧
        exec i s = startMain p s) ∨
    (∃ u r, exec i s = .next (u.respondM r) ∧ u.seqI = .idle ∧ Consistent u ∧ u.seqM = .idle ∧
      (u = s ∨ (∃ f, u = s.flag f) ∨ (i = .reset ∧ u = s.resetRegisters) ∨
      (i = .start ∧ u = armReceiver s) ∨ (∃ b fr, i = .feed b ∧ feed b s = .next (u, fr)))) := by
  have hA : AtMain s := h
  obtain ⟨hI, hM⟩ := h
  by_cases ha : i.opcode.allowedOn .M = true
  swap
  · refine .inr ⟨s.flag .illegal, [stIllegalCtx], ?_, hI, hc.flag _, hM, .inr (.inl ⟨_, rfl⟩)⟩
    rw [exec_wrongPort (by simp [hM, SeqM.isIdle]) (by simpa [context_of_atMain hA] using ha)]
    simp only [illegalCtx, State.raise, respond_of_idle (s := s.flag .illegal) hI]
  cases i with
  | pop => exact .inl ⟨.popA .pop, rfl, rfl, fun _ => trivial, not_unpublished (by simp), by simp only [exec, execPop, accept_of_atMain (o := .pop) hA rfl]⟩
  | isempty => exact .inl ⟨.isEmptyA, rfl, rfl, fun _ => trivial, not_unpublished (by simp), by simp only [exec, execIsempty, accept_of_atMain (o := .isempty) hA rfl, context_of_atMain hA]⟩
  | isfull => exact .inl ⟨.isFullA, rfl, rfl, fun _ => trivial, not_unpublished (by simp), by simp only [exec, execIsfull, accept_of_atMain (o := .isfull) hA rfl, context_of_atMain hA]⟩
  | enq bs => exact .inl ⟨.enq0 .enq bs, rfl, rfl, fun _ => trivial, not_unpublished (by simp), by simp only [exec, execEnq, accept_of_atMain (o := .enq) hA rfl]⟩
  | poll => exact .inl ⟨.popA (.poll ⟨0, 0, 0#8⟩), rfl, rfl, fun _ => trivial, not_unpublished (by simp), by simp only [exec, execPoll, accept_of_atMain (o := .poll) hA rfl]⟩
  | tick now => exact .inl ⟨.tickA now, rfl, rfl, fun _ => trivial, not_unpublished (by simp), by simp only [exec, execTick, accept_of_atMain (o := .tick) hA rfl]⟩
  | rdcsr a => exact .inr ⟨s, _, by simp only [exec, execRdcsr, accept_of_atMain (o := .rdcsr) hA rfl, respond_of_idle hI]; rfl, hI, hc, hM, .inl rfl⟩
  | reset => exact .inr ⟨s.resetRegisters, [stOk], by simp only [exec, execReset, accept_of_atMain (o := .reset) hA rfl, respond_of_idle (s := s.resetRegisters) hI], hI, hc.resetRegisters hM, hM, .inr (.inr (.inl ⟨rfl, rfl⟩))⟩
  | start =>
    have h1 : (armReceiver s).seqI = .idle ∧ (armReceiver s).seqM = .idle ∧ Consistent (armReceiver s) := by
      unfold armReceiver; split
      · exact ⟨hI, hM, hc.update ..⟩
      · exact ⟨hI, hM, hc⟩
    exact .inr ⟨armReceiver s, [stOk], by simp only [exec, execStart, accept_of_atMain (o := .start) hA rfl, respond_of_idle h1.1], h1.1, h1.2.2, h1.2.1, .inr (.inr (.inr (.inl ⟨rfl, rfl⟩)))⟩
  | feed b =>
    obtain ⟨u, r, hf, hu⟩ := hc.feed (b := b)
    obtain ⟨hF, hR, hm, -⟩ := feed_frame hc.lfFill_lt hf
    have hIu : u.seqI = .idle := hF.seqI.trans hI
    exact .inr ⟨u, feedResponse r, by simp [exec, execFeed, accept_of_atMain (o := .feed) hA rfl, hf, respond_of_idle hIu], hIu, hu, hm.trans hM, .inr (.inr (.inr (.inr ⟨b, r, rfl, hf⟩)))⟩
  | _ => simp [Instr.opcode, Opcode.allowedOn] at ha

end Sys2Proof.Machine
end

