-- ==== Sys2Proof/Laws/PerInstr.lean ====
section
/-!
SUPPORT. Statements made per operation. `Format`: the bytes of a well-formed operation have the layout of its format, the
table of `30_encoding.md` R91.
-/

namespace Sys2Proof.Laws.Format

/-- The layout column of R91 for the bytes after the opcode. -/
def layout (f : Format) (ops : List Byte) : Prop :=
  match f with
  | .Z => ops = []
  | .B => ops.length = 1
  | .T => ops.length = 4
  | .S => ∃ l0 l1 payload, ops = l0 :: l1 :: payload ∧ payload.length = le16 l0 l1

/-- The encoding is the opcode of R93, then operand bytes in the layout of the operation's format (R91). -/
def Statement (i : Instr) : Prop :=
  i.wf = true → ∃ ops, encode i = i.opcode.code :: ops ∧ layout i.opcode.format ops

theorem push (b : Byte) : Statement (.push b) := fun _ => ⟨_, rfl, rfl⟩
theorem pop : Statement .pop := fun _ => ⟨_, rfl, rfl⟩
theorem isempty : Statement .isempty := fun _ => ⟨_, rfl, rfl⟩
theorem isfull : Statement .isfull := fun _ => ⟨_, rfl, rfl⟩
theorem feed (b : Byte) : Statement (.feed b) := fun _ => ⟨_, rfl, rfl⟩

theorem enq (bytes : List Byte) : Statement (.enq bytes) := fun h =>
  ⟨_, rfl, _, _, _, rfl, (le16_of_bytes (of_decide_eq_true h)).symm⟩

theorem txdone : Statement .txdone := fun _ => ⟨_, rfl, rfl⟩
theorem rxbyte (b : Byte) : Statement (.rxbyte b) := fun _ => ⟨_, rfl, rfl⟩
theorem poll : Statement .poll := fun _ => ⟨_, rfl, rfl⟩
theorem tick (now : Word32) : Statement (.tick now) := fun _ => ⟨_, rfl, rfl⟩
theorem rxfault : Statement .rxfault := fun _ => ⟨_, rfl, rfl⟩
theorem txfault : Statement .txfault := fun _ => ⟨_, rfl, rfl⟩
theorem rdcsr (a : Byte) : Statement (.rdcsr a) := fun _ => ⟨_, rfl, rfl⟩
theorem reset : Statement .reset := fun _ => ⟨_, rfl, rfl⟩
theorem start : Statement .start := fun _ => ⟨_, rfl, rfl⟩

end Sys2Proof.Laws.Format
end

