-- ==== Sys2Proof/Laws/Step.lean ====
section
/-!
SUPPORT. What one action of port M does to the queues, what a step can be,
    and the rule by which a relation is carried across a step.
-/

namespace Sys2Proof.Machine

/-- What one action of port M does to the queues and the line buffer (R123, R141, R161). -/
structure ActionEffect (s t : State) : Prop where
  rx : t.rxR = s.rxR ∨ (s.rxW ≠ s.rxR ∧ t.rxR = incIdx s.cfg.N s.rxR)
  tx : (t.txStore = s.txStore ∧ t.txW = s.txW ∧ ¬ SeqM.Unpublished t.seqM) ∨
    (∃ b, t.txStore = s.txStore.write s.txW b ∧ t.txW = s.txW ∧ SeqM.Unpublished t.seqM) ∨
    (SeqM.Unpublished s.seqM ∧ incIdx s.cfg.T s.txW ≠ s.txR ∧ t.txStore = s.txStore ∧ t.txW = incIdx s.cfg.T s.txW ∧
        ¬ SeqM.Unpublished t.seqM)
  line : (t.lfBuf = s.lfBuf ∧ t.lfFill = s.lfFill) ∨ t.lfFill = 0 ∨
    (∃ b, t.lfBuf = s.lfBuf.write s.lfFill b ∧ t.lfFill = s.lfFill + 1)

/-- What an action of an enqueue before publication does to the TX queue. -/
def AppendEffect (s t : State) : Prop := (t.txStore = s.txStore ∧ t.txW = s.txW ∧ ¬ SeqM.Unpublished t.seqM) ∨
    (∃ b, t.txStore = s.txStore.write s.txW b ∧ t.txW = s.txW ∧ SeqM.Unpublished t.seqM)

theorem enqueueEnd_tx {s : State} (hM : s.seqI = .idle) (c st n) : (enqueueEnd c st n s).txStore = s.txStore ∧
    (enqueueEnd c st n s).txW = s.txW ∧ ¬ SeqM.Unpublished (enqueueEnd c st n s).seqM := by
  cases c with
  | enq => simp only [enqueueEnd, respond_of_idle hM]; exact ⟨rfl, rfl, not_unpublished (by intros; simp [State.respondM])⟩
  | tick now => simp only [enqueueEnd]; rw [respond_of_idle (s :=
      { s with lastSent := now }) hM]; exact ⟨rfl, rfl, not_unpublished (by intros; simp [State.respondM])⟩
  | poll l => exact ⟨rfl, rfl, not_unpublished (by intros; simp [enqueueEnd])⟩

theorem enqueueFinish_tx {s : State} (hM : s.seqI = .idle) (c n k) : (enqueueFinish c n k s).txStore = s.txStore ∧
    (enqueueFinish c n k s).txW = s.txW ∧ ¬ SeqM.Unpublished (enqueueFinish c n k s).seqM := by
  unfold enqueueFinish; split
  · exact enqueueEnd_tx hM ..
  · exact enqueueEnd_tx (s := s.flag .txpartial) hM ..

theorem enqueueTop_tx {s t : State} {c n k rest} (hw : s.txW < s.cfg.T) (h : enqueueTop c n k rest s = .next t) :
    AppendEffect s t := by
  cases hf : ringFull s.cfg.T s.txW s.txR with
  | true => rw [enqueueTop_full hf] at h; cases h; exact .inl ⟨rfl, rfl, not_unpublished (by intros; simp [enqueueSample])⟩
  | false =>
    cases rest with
    | nil => cases h; exact .inl ⟨rfl, rfl, not_unpublished (by intros; simp [enqueueSample])⟩
    | cons b rest => rw [enqueueTop_room hf hw] at h; cases h; exact .inr ⟨b, rfl, rfl, _, _, _, _, _, rfl⟩

theorem enqueue_tx {s t : State} {c bs} (hM : s.seqI = .idle) (hw : s.txW < s.cfg.T) (h :
    enqueue c bs s = .next t) : AppendEffect s t := by
  unfold enqueue at h; split at h
  · cases h; exact .inl (enqueueEnd_tx (s := s.flag .txbusy) hM ..)
  · exact enqueueTop_tx hw h

/-- Every action of port M has such an effect. -/
theorem mainAction_effect {s t : State} (hc : Consistent s) (hM : s.seqI = .idle) (hi : s.seqM.isIdle = false)
    (h : mainAction s = .next t) : ActionEffect s t := by
  have hok := hc.seq_ok
  have hg : ∀ p, (∀ c len count next rest, p ≠ SeqM.enqB c len count next rest) → ActionEffect s (s.goto p) :=
      fun p hp =>
    ⟨.inl rfl, .inl ⟨rfl, rfl, not_unpublished hp⟩, .inl ⟨rfl, rfl⟩⟩
  have hr : ∀ r, ActionEffect s (s.respond r) := fun r => by
    rw [respond_of_idle hM]; exact ⟨.inl rfl, .inl ⟨rfl, rfl, not_unpublished (by intros; simp [State.respondM])⟩, .inl ⟨rfl, rfl⟩⟩
  unfold mainAction at h
  cases hp : s.seqM with
  | idle => simp [hp, SeqM.isIdle] at hi
  | isEmptyA => rw [hp] at h; cases h; exact hg _ (by simp)
  | isEmptyB w => rw [hp] at h; cases h; exact hr _
  | isFullA => rw [hp] at h; cases h; exact hg _ (by simp)
  | isFullB w => rw [hp] at h; cases h; exact hr _
  | popA c => rw [hp] at h; cases h; exact hg _ (by simp)
  | popB c w =>
    rw [hp] at h
    simp only [popRead] at h
    split at h
    · cases h; cases c <;> exact hr _
    · rw [memRead_of_lt (sp := .rxs) hc.rxR_lt] at h; cases h; exact hg _ (by simp)
  | popC c v =>
    rw [hp] at h hok
    cases h
    have hne : s.rxW ≠ s.rxR := hok.1
    cases c with
    | pop =>
      simp only [popAdvance]
      rw [respond_of_idle (by exact hM)]
      exact ⟨.inr ⟨hne, rfl⟩, .inl ⟨rfl, rfl, not_unpublished (by intros; simp [State.respondM])⟩, .inl ⟨rfl, rfl⟩⟩
    | poll l => exact ⟨.inr ⟨hne, rfl⟩, .inl ⟨rfl, rfl, not_unpublished (by intros; simp [popAdvance])⟩, .inl ⟨rfl, rfl⟩⟩
  | pollFeed l v =>
    rw [hp] at h
    simp only [pollByte] at h
    obtain ⟨⟨u, r⟩, hf, h⟩ := andThen_eq_next.mp h
    obtain ⟨hF, hR, hm, hresp, htip, htxW, htxS, -, -, -⟩ := feed_frame hc.lfFill_lt hf
    have hline : (u.lfBuf = s.lfBuf ∧ u.lfFill = s.lfFill) ∨ u.lfFill = 0 ∨
        (∃ b, u.lfBuf = s.lfBuf.write s.lfFill b ∧ u.lfFill = s.lfFill + 1) := by
      rcases feed_cases hc.lfFill_lt (b :=
          v) with ⟨-, he⟩ | ⟨-, -, he⟩ | ⟨-, -, he⟩ | ⟨-, -, -, he⟩ | ⟨-, -, -, he⟩ <;> rw [he] at hf <;> cases hf
      · exact .inl ⟨rfl, rfl⟩
      · exact .inr (.inl rfl)
      · exact .inl ⟨rfl, rfl⟩
      · exact .inr (.inr ⟨_, rfl, rfl⟩)
      · exact .inr (.inl rfl)
    have key : ∀ w : State, w.cfg = s.cfg → w.seqI = .idle → w.txW = s.txW → w.txStore = s.txStore → w.rxR = s.rxR → w.lfBuf = u.lfBuf → w.lfFill = u.lfFill → ∀ c bs, enqueue (.poll c) bs w = .next t → Consistent w → w.seqM.inEnqueue = false → ActionEffect s t := by
      intro w h0 h1 h2 h3 h4 h5 h6 c bs he hcw hq
      obtain ⟨t', ht', -, hE⟩ := enqueue_step hcw h1 hq (.poll c) bs
      rw [ht'] at he; cases he
      have := enqueue_tx h1 hcw.txW_lt ht'
      simp only [AppendEffect, h2, h3] at this
      refine ⟨.inl (hE.rxR.trans h4), ?_, ?_⟩
      · rcases this with h | h; exact .inl h; exact .inr (.inl h)
      · rw [hE.lf.1, hE.lf.2.1, h5, h6]; exact hline
    have hcu : Consistent u := by
      obtain ⟨u', r', hf', hu'⟩ := hc.feed (b := v)
      rw [hf'] at hf; cases hf; exact hu'
    have hqu : u.seqM.inEnqueue = false := by rw [hm, hp]; rfl
    cases r with
    | none => cases h; exact ⟨.inl hR, .inl ⟨htxS, htxW, not_unpublished (by simp)⟩, hline⟩
    | msg m =>
      dsimp only [dispatch] at h
      rcases emitGpio_frame m u with he | ⟨e, he⟩ <;> rw [he] at h
      · exact key u hF.cfg (hF.seqI.trans hM) htxW htxS hR rfl rfl _ _ h hcu hqu
      · exact key (u.emit e) hF.cfg (hF.seqI.trans hM) htxW htxS hR rfl rfl _ _ h (hcu.emit e) hqu
    | overflow => exact key u hF.cfg (hF.seqI.trans hM) htxW htxS hR rfl rfl _ _ h hcu hqu
  | tickA now =>
    rw [hp] at h
    simp only [tickStart] at h
    split at h
    · obtain ⟨t', ht', -, hE⟩ := enqueue_step hc hM (by simp [hp, SeqM.inEnqueue]) (.tick now) s.cfg.statusMsg
      rw [ht'] at h; cases h
      refine ⟨.inl hE.rxR, ?_, .inl ⟨hE.lf.1, hE.lf.2.1⟩⟩
      rcases enqueue_tx hM hc.txW_lt ht' with h | h; exact .inl h; exact .inr (.inl h)
    · cases h; exact hr _
  | enq0 c bytes =>
    rw [hp] at h
    obtain ⟨t', ht', -, hE⟩ := enqueue_step hc hM (by simp [hp, SeqM.inEnqueue]) c bytes
    simp only at h
    rw [ht'] at h; cases h
    refine ⟨.inl hE.rxR, ?_, .inl ⟨hE.lf.1, hE.lf.2.1⟩⟩
    rcases enqueue_tx hM hc.txW_lt ht' with h | h; exact .inl h; exact .inr (.inl h)
  | enqA c len count rest =>
    rw [hp] at h hok
    obtain ⟨t', ht', -, hE⟩ := enqueueTop_step hc (c := c) hok.1 hok.2
    simp only at h
    rw [ht'] at h; cases h
    refine ⟨.inl hE.rxR, ?_, .inl ⟨hE.lf.1, hE.lf.2.1⟩⟩
    rcases enqueueTop_tx hc.txW_lt ht' with h | h; exact .inl h; exact .inr (.inl h)
  | enqB c len count next rest =>
    rw [hp] at h hok
    obtain ⟨hb, rfl, hne, hl⟩ := hok
    cases h
    exact ⟨.inl rfl, .inr (.inr ⟨⟨_, _, _, _, _, hp⟩, hne, rfl, rfl, not_unpublished (by simp [enqueuePublish])⟩), .inl ⟨rfl, rfl⟩⟩
  | enqD c len count b =>
    rw [hp] at h
    obtain ⟨u, hu, -, hE⟩ := enqueueStart_step hc hM hp
    simp only at h
    rw [hu] at h; cases h
    refine ⟨.inl hE.rxR, .inl ?_, .inl ⟨hE.lf.1, hE.lf.2.1⟩⟩
    unfold enqueueStart at hu
    split at hu
    · rw [issueUnit_eq (by have := hc.T_ge; omega)] at hu; cases hu
      exact enqueueFinish_tx (s := State.emit { s with txUlen := unitLength s, tip := true } _) hM ..
    · cases hu; exact enqueueFinish_tx hM ..

theorem arrive_seqM (s : State) : s.arrive.seqM = s.seqM := s.arrive_frame.2.2.2.2.1

theorem decode_of_not_ready {bs} (h : commandReady bs = false) : decode bs = .incomplete := by
  unfold commandReady at h; split at h <;> simp_all

/-- The states differ in the received bytes, the inputs and the sequencer of port I only. -/
def PortOnly (s t : State) : Prop :=
  t = { s with portI := t.portI, portM := t.portM, inputs := t.inputs, resetIn := t.resetIn, seqI := t.seqI }

theorem portOnly_arrive (s : State) : PortOnly s s.arrive := by
  unfold PortOnly State.arrive
  cases h : s.inputs with
  | nil => simp
  | cons x r => cases x <;> rfl

theorem PortOnly.consistent {s p : State} (h : Consistent s) (hp : PortOnly s p) : Consistent p := by
  rw [hp]; exact h.update ..

/-- Everything a step can be. -/
theorem step_cases {s : State} (hI : s.seqI = .idle) :
    (step s = .next s.arrive.hardwareReset) ∨
    (∃ i p, PortOnly s p ∧ p.seqI = .executing ∧ step s = exec i p) ∨
    (∃ p, PortOnly s p ∧ step s = .next (illegalOp p) ∧ (p.seqI = .executing ∨ (p.seqI = .idle ∧ s.seqM = .idle))) ∨
    (∃ i p, PortOnly s p ∧ p.seqI = .idle ∧ s.seqM = .idle ∧ step s = exec i p) ∨
    (s.seqM.isIdle = false ∧ step s = resumeMain s.arrive) ∨ step s = .next s.arrive := by
  have hp := portOnly_arrive s
  have hIa : s.arrive.seqI = .idle := s.arrive_frame.2.2.2.2.2.1.trans hI
  have hb : ∀ r, PortOnly s (s.arrive.beginI r) := fun r => by
    unfold PortOnly at *; rw [hp]; rfl
  have hb' : ∀ r, PortOnly s (s.arrive.beginM r) := fun r => by
    unfold PortOnly at *; rw [hp]; rfl
  unfold step selectNext
  simp only [hI, show ¬ (SeqI.idle = SeqI.executing) by decide, if_false]
  by_cases hr : s.arrive.resetIn = true
  · exact .inl (by simp [hr])
  · simp only [hr]
    cases hd : decode s.arrive.portI with
    | command i rest => exact .inr (.inl ⟨i, _, hb rest, rfl, rfl⟩)
    | illegal op rest => exact .inr (.inr (.inl ⟨_, hb rest, rfl, .inl rfl⟩))
    | incomplete =>
      simp only [arrive_seqM]
      by_cases hi : s.seqM.isIdle = true
      · have hM : s.seqM = .idle := by cases hs : s.seqM <;> simp [hs, SeqM.isIdle] at hi ⊢
        simp only [hi, if_true]
        cases hd' : decode s.arrive.portM with
        | command i rest => exact .inr (.inr (.inr (.inl ⟨i, _, hb' rest, hIa, hM, rfl⟩)))
        | illegal op rest => exact .inr (.inr (.inl ⟨_, hb' rest, rfl, .inr ⟨hIa, hM⟩⟩))
        | incomplete => exact .inr (.inr (.inr (.inr (.inr rfl))))
      · exact .inr (.inr (.inr (.inr (.inl ⟨by simpa using hi, by simp [hi]⟩))))

/-- The operation in progress on port M goes on to a next state, and a property that every action and every arrival keep holds
there. -/
theorem resumeMain_induction {P : State → Prop} {s : State} (hc : Consistent s) (hM : s.seqI = .idle)
    (hi : s.seqM.isIdle = false) (start : P s) (port : ∀ y z, PortOnly y z → P y → P z)
    (action : ∀ y z, P y → Consistent y → y.seqI = .idle → y.seqM.isIdle = false → mainAction y = .next z →
      MainStep y z → ActionEffect y z → P z) : ∃ t, resumeMain s = .next t ∧ P t ∧ Inv t := by
  obtain ⟨t, h1, h2, h3, h4⟩ := runMain_induction (fun y z hy hcy hIy hiy hz => by
      obtain ⟨z', hz', hst⟩ := mainAction_step hcy hIy hiy
      rw [hz'] at hz; cases hz
      exact action y _ hy hcy hIy hiy hz' hst (mainAction_effect hcy hIy hiy hz'))
    (fun y hy => port _ _ (portOnly_arrive y) hy) (mainCost s) s start hc hM hi
  exact ⟨t, h1, h2, h3, h4⟩

/-- The same for an operation begun on port M: it is begun at its first action, or ends at once with its response. -/
theorem exec_main_induction {P : State → Prop} {s : State} (i : Instr) (hc : Consistent s) (h : AtMain s)
    (direct : ∀ u r, (u = s ∨ (∃ f, u = s.flag f) ∨ (i = .reset ∧ u = s.resetRegisters) ∨
      (i = Instr.start ∧ u = armReceiver s) ∨ (∃ b fr, i = .feed b ∧ feed b s = .next (u, fr))) → P (u.respondM r))
    (begin : ∀ p, ¬ SeqM.Unpublished p → P (s.goto p)) (port : ∀ y z, PortOnly y z → P y → P z)
    (action : ∀ y z, P y → Consistent y → y.seqI = .idle → y.seqM.isIdle = false → mainAction y = .next z →
      MainStep y z → ActionEffect y z → P z) : ∃ t, exec i s = .next t ∧ P t ∧ Inv t := by
  rcases exec_main (i := i) hc h with ⟨q, h1, -, h3, h4, h5⟩ | ⟨u, r, h1, h2, h3, h4, h5⟩
  · rw [h5]
    exact resumeMain_induction (hc.goto (h3 s) fun _ h0 => hc.empty_of (by rw [h.2]; rfl) h0) h.1 h1 (begin q h4) port action
  · exact ⟨_, h1, direct u r h5, h3.respondM (fun h0 => h3.empty_of (by rw [h4]; rfl) h0) r, h2⟩

/-- A relation that everything a step is made of keeps holds across a step. -/
theorem step_relation {P Q : State → State → Prop} {s : State} (hs : Inv s)
    (QP : ∀ x y, Q x y → P x y)
    (hw : ∀ x, Consistent x → P x x.hardwareReset)
    (port : ∀ x y z, PortOnly x y → P y z → P x z)
    (portQ : ∀ x y z, PortOnly x y → Q y z → Q x z)
    (port' : ∀ x y z, PortOnly y z → Q x y → Q x z)
    (refl : ∀ x, Q x x)
    (intr : ∀ x u r, Consistent x → InterruptEffect x u → P x (u.respondI r))
    (direct : ∀ i x u r, Consistent x → x.seqM = .idle → (u = x ∨ (∃ f, u = x.flag f) ∨ (i = .reset ∧
        u = x.resetRegisters) ∨
      (i = Instr.start ∧ u = armReceiver x) ∨ (∃ b fr, i = .feed b ∧ feed b x = .next (u, fr))) → P x (u.respondM r))
    (begin : ∀ x p, x.seqM = .idle → ¬ SeqM.Unpublished p → Q x (x.goto p))
    (main : ∀ x y z, Q x y → Consistent y → y.seqI = .idle → y.seqM.isIdle = false → mainAction y = .next z → MainStep y z → ActionEffect y z → Q x z) :
    ∃ t, step s = .next t ∧ Inv t ∧ P s t := by
  obtain ⟨hc, hI⟩ := hs
  have run : ∀ x, Q s x → Consistent x → x.seqI = .idle → x.seqM.isIdle = false → ∃ t, resumeMain x = .next t ∧
      Inv t ∧ P s t := by
    intro x hx hcx hIx hix
    obtain ⟨t, h1, h2, h3⟩ := resumeMain_induction (P := Q s) hcx hIx hix hx (port' s) (main s)
    exact ⟨t, h1, h3, QP _ _ h2⟩
  have hMfull : ∀ i p, PortOnly s p → p.seqI = .idle → s.seqM = .idle → ∃ t, exec i p = .next t ∧ Inv t ∧ P s t := by
    intro i p hp hIp hM
    have hcp := PortOnly.consistent hc hp
    have hMp : p.seqM = .idle := by rw [hp]; exact hM
    rcases exec_main (i := i) hcp ⟨hIp, hMp⟩ with ⟨q, h1, h2, h3, h4, h5⟩ | ⟨u, r, h1, h2, h3, h4, h5⟩
    · rw [h5]
      exact run _ (portQ _ _ _ hp (begin p q hMp h4)) (hcp.goto (h3 p) fun _ h0 =>
          hcp.empty_of (by rw [hMp]; rfl) h0) hIp h1
    · exact ⟨_, h1, ⟨h3.respondM (fun h0 => h3.empty_of (by rw [h4]; rfl) h0) r, h2⟩, port _ _ _ hp (direct i p u r hcp hMp h5)⟩
  rcases step_cases hI with h | ⟨i, p, hp, hx, h⟩ | ⟨p, hp, h, hx⟩ | ⟨i, p, hp, h1, h2, h⟩ | ⟨hi, h⟩ | h
  · exact ⟨_, h, ⟨hc.arrive.hardwareReset, rfl⟩, port _ _ _ (portOnly_arrive s) (hw _ hc.arrive)⟩
  · have hcp := PortOnly.consistent hc hp
    obtain ⟨u, r, h1, h2, h3⟩ := exec_interrupt (i := i) hcp hx
    exact ⟨_, h.trans h1, h3, port _ _ _ hp (intr p u r hcp h2)⟩
  · have hcp := PortOnly.consistent hc hp
    rcases hx with hx | ⟨hx, hM⟩
    · refine ⟨(p.flag .illegal).respondI [stIllegalOp], ?_, ⟨(hcp.flag _).respondI _, rfl⟩, port _ _ _ hp (intr p _ _ hcp (.flag ..))⟩
      rw [h]; simp only [illegalOp, State.raise, respond_of_executing (s := p.flag .illegal) hx]
    · have hMp : p.seqM = .idle := by rw [hp]; exact hM
      refine ⟨(p.flag .illegal).respondM [stIllegalOp], ?_, ⟨(hcp.flag .illegal).respondM (fun h0 => hcp.empty_of (by rw [hMp]; rfl) h0) _, hx⟩, port _ _ _ hp (direct .pop p _ _ hcp hMp (.inr (.inl ⟨_, rfl⟩)))⟩
      rw [h]; simp only [illegalOp, State.raise, respond_of_idle (s := p.flag .illegal) hx]
  · obtain ⟨t, ht, hh⟩ := hMfull i p hp h1 h2
    exact ⟨t, h.trans ht, hh⟩
  · rw [h]
    exact run _ (port' _ _ _ (portOnly_arrive s) (refl s)) hc.arrive (s.arrive_frame.2.2.2.2.2.1.trans hI) (by rw [arrive_seqM]; exact hi)
  · exact ⟨_, h, ⟨hc.arrive, s.arrive_frame.2.2.2.2.2.1.trans hI⟩, QP _ _ (port' _ _ _ (portOnly_arrive s) (refl s))⟩

end Sys2Proof.Machine
end

