-- ==== Sys2Proof/Laws/Whole.lean ====
section
/-!
SUPPORT. Runs of the ring slots, and the undisturbed enqueue and FEED of port M as one action each (`appendWhole`,
    `enqueueWhole`, `feedWhole`).
-/

namespace Sys2Proof.Machine

theorem ringSlots_tail {X w r : Nat} (hw : w < X) (hr : r < X) (hne : w ≠ r) :
    ringSlots X r (distIdx X w r) = r :: ringSlots X (incIdx X r) (distIdx X w (incIdx X r)) := by
  have hd : distIdx X w r ≠ 0 := fun h => hne ((distIdx_eq_zero hr).mp h)
  rw [distIdx_inc_read hw hr hne]
  obtain ⟨n, hn⟩ := Nat.exists_eq_succ_of_ne_zero hd
  rw [hn]
  simp only [ringSlots, Nat.succ_sub_one, Nat.succ_eq_add_one, List.range_succ_eq_map, List.map_cons, List.map_map,
      addIdx_zero hr, List.cons.injEq, true_and]
  apply List.map_congr_left
  intro k _
  simp only [Function.comp, incIdx_eq_addIdx hr, addIdx_addIdx, Nat.succ_eq_add_one, Nat.add_comm]

theorem ringSlots_drop {X w r k : Nat} (hw : w < X) (hr : r < X) (hk : k ≤ distIdx X w r) :
    ringSlots X (addIdx X r k) (distIdx X w (addIdx X r k)) = (ringSlots X r (distIdx X w r)).drop k := by
  rw [distIdx_add_read hw hr hk]
  simp only [ringSlots]
  apply List.ext_getElem
  · simp
  · intro i h1 h2
    simp [addIdx_addIdx]

theorem ringSlots_snoc {X w r : Nat} (hw : w < X) (hr : r < X) (hne : incIdx X w ≠ r) :
    ringSlots X r (distIdx X (incIdx X w) r) = ringSlots X r (distIdx X w r) ++ [w] := by
  rw [distIdx_inc_write hw hr hne]
  simp only [ringSlots, List.range_succ, List.map_append, List.map_cons, List.map_nil, addIdx_dist hw hr]

theorem ne_write_of_mem_ringSlots {X w r k : Nat} (hw : w < X) (hr : r < X) (h :
    k ∈ ringSlots X r (distIdx X w r)) : k ≠ w := by
  obtain ⟨j, hj, rfl⟩ := List.mem_map.mp h
  exact addIdx_ne_write hw hr (List.mem_range.mp hj)

theorem rxContents_congr {s t : State} (h0 : t.cfg = s.cfg) (h1 : t.rxStore = s.rxStore) (h4 : t.rxW = s.rxW) (h5 :
    t.rxR = s.rxR) : t.rxContents = s.rxContents := by
  simp only [State.rxContents, State.rxCount, h0, h4, h5]
  apply List.map_congr_left; intro k _; simp [State.slot, State.store, h1]

theorem txContents_congr {s t : State} (h0 : t.cfg = s.cfg) (h1 : t.txStore = s.txStore) (h4 : t.txW = s.txW) (h5 :
    t.txR = s.txR) : t.txContents = s.txContents := by
  simp only [State.txContents, State.txCount, h0, h4, h5]
  apply List.map_congr_left; intro k _; simp [State.slot, State.store, h1]

theorem goto_goto (s : State) (p q : SeqM) : (s.goto p).goto q = s.goto q := rfl

theorem goto_idle_self {s : State} (h : s.seqM = .idle) : s.goto .idle = s :=
    by cases s; simp only [State.goto] at *; rw [← h]

/-- An operation that is idle again leaves a consistent state. -/
theorem Consistent.of_goto {s : State} {p : SeqM} (h : Consistent (s.goto p)) (hp : p.inEnqueue = false) (hM :
    s.seqM = .idle) : Consistent s := by
  have := h.goto (p := .idle) trivial fun _ h0 => h.empty_of (by simpa using hp) h0
  rwa [goto_goto, goto_idle_self hM] at this

/-- What `mainAction` answers is consistent and inside its frame. -/
theorem mainAction_next {s t : State} (h : Consistent s) (hM : s.seqI = .idle) (hi : s.seqM.isIdle = false) (ht :
    mainAction s = .next t) : Consistent t ∧ MainFrame s t := by
  obtain ⟨t', ht', hs⟩ := mainAction_step h hM hi
  rw [ht] at ht'; cases ht'; exact ⟨hs.consistent, hs.frame⟩

theorem unit_contents {s : State} (hc : Consistent s) (hne : s.txW ≠ s.txR) :
    (ringSlots s.cfg.T s.txR (unitLength s)).map (s.slot .txs) = s.txContents.take (unitLength s) := by
  have := (hc.unitLength_pos hne).2
  simp only [State.txContents, ← List.map_take]
  congr 1
  apply List.ext_getElem <;> simp [ringSlots]; omega

theorem enqueueEnd_goto {s : State} (hI : s.seqI = .idle) (c : EnqCaller) (st n) (p : SeqM) :
    enqueueEnd c st n (s.goto p) = enqueueEnd c st n s := by
  cases c <;> simp only [enqueueEnd]
  · rw [respond_of_idle hI, respond_of_idle (by exact hI)]; rfl
  · rw [respond_of_idle (by exact hI), respond_of_idle (by exact hI)]; rfl
  · rfl

theorem enqueue_goto {s : State} (hI : s.seqI = .idle) (hw : s.txW < s.cfg.T) (c : EnqCaller) (bs : List Byte) (p :
    SeqM) : enqueue c bs (s.goto p) = enqueue c bs s := by
  unfold enqueue
  by_cases h : s.cfg.txMode = .bulk ∧ s.tip = true
  · rw [if_pos h, if_pos (by exact h)]
    congr 1
    exact enqueueEnd_goto (s := s.flag .txbusy) hI ..
  · rw [if_neg h, if_neg (by exact h)]
    cases bs with
    | nil => rfl
    | cons b rest =>
      cases hf : ringFull s.cfg.T s.txW s.txR with
      | true => rw [enqueueTop_full hf, enqueueTop_full (by exact hf)]; rfl
      | false => rw [enqueueTop_room hf hw, enqueueTop_room (by exact hf) (by exact hw)]; rfl

/-- The append loop writes as many bytes as there is room for, oldest first (R162). -/
theorem appendWhole_spec (bytes : List Byte) : ∀ s : State, 2 ≤ s.cfg.T → s.txW < s.cfg.T → s.txR < s.cfg.T →
    let r := appendWhole bytes s
    r.1 = { s with txStore := r.1.txStore, txW := r.1.txW } ∧ r.1.txW < s.cfg.T ∧
    r.2 = s.txRoom bytes.length ∧ r.1.txW = addIdx s.cfg.T s.txW r.2 ∧ r.1.txContents = s.txContents ++ bytes.take r.2 ∧
    (∀ k, k ∉ ringSlots s.cfg.T s.txW r.2 → r.1.txStore.read k = s.txStore.read k) := by
  induction bytes with
  | nil =>
    intro s hT hw hr
    simp [appendWhole, State.txRoom, ringSlots, addIdx, Nat.mod_eq_of_lt hw, hw]
  | cons b rest ih =>
    intro s hT hw hr
    simp only [appendWhole]
    have hd := distIdx_lt hw hr
    cases hf : ringFull s.cfg.T s.txW s.txR with
    | true =>
      have := (ringFull_iff hw hr).1 hf
      simp only [if_true]
      have hz : s.txRoom (b :: rest).length = 0 := by
        simp only [State.txRoom, State.txCount]; omega
      rw [hz]; simp [addIdx, Nat.mod_eq_of_lt hw, hw, ringSlots]
    | false =>
      have hne : incIdx s.cfg.T s.txW ≠ s.txR := by simpa [ringFull] using hf
      simp only [Bool.false_eq_true, if_false]
      obtain ⟨h1, h2, h3, h4, h5, h6⟩ :=
          ih { s with txStore := s.txStore.write s.txW b, txW := incIdx s.cfg.T s.txW } hT (incIdx_lt hw) hr
      have hc := distIdx_inc_write hw hr hne
      have hdl := distIdx_lt (incIdx_lt hw) hr
      refine ⟨?_, h2, ?_, ?_, ?_, ?_⟩
      · rw [h1]
      · rw [h3]; simp only [State.txRoom, State.txCount, List.length_cons, hc]; omega
      · rw [h4]; simp only [incIdx_eq_addIdx hw, addIdx_addIdx]; congr 1; omega
      · rw [h5]
        have : State.txContents { s with txStore := s.txStore.write s.txW b, txW := incIdx s.cfg.T s.txW } = s.txContents ++ [b] := by
          simp only [State.txContents, State.txCount, ringSlots_snoc hw hr hne, List.map_append, List.map_cons,
              List.map_nil]
          congr 1
          · apply List.map_congr_left; intro k hk
            simp only [State.slot, State.store, Memory.read_write_other (ne_write_of_mem_ringSlots hw hr hk)]
          · simp [State.slot, State.store]
        rw [this]; simp
      · intro k hk
        have e1 : k ≠ s.txW := fun e => hk (by simp [ringSlots]; exact ⟨0, by omega, by simp [addIdx, Nat.mod_eq_of_lt hw, e]⟩)
        rw [h6 k fun hk' => hk ?_]
        · exact Memory.read_write_other e1
        · simp only [ringSlots, List.mem_map, List.mem_range] at hk' ⊢
          obtain ⟨j, hj, rfl⟩ := hk'
          exact ⟨j + 1, by omega, by rw [incIdx_eq_addIdx hw, addIdx_addIdx]; congr 1; omega⟩

theorem txRoom_le (s : State) (n) : s.txRoom n ≤ n := Nat.min_le_left ..

/-- The append loop of an undisturbed enqueue (R161 (a), (b)). -/
theorem resumeMain_append (c : EnqCaller) (len : Nat) (rest : List Byte) : ∀ (count : Nat) (s : State),
    Consistent (s.goto (.enqA c len count rest)) → s.seqI = .idle → Undisturbed s →
    let r := appendWhole rest s
    resumeMain (s.goto (.enqA c len count rest)) = resumeMain (r.1.goto (.enqD c len (count + r.2) r.1.tip)) ∧
    Consistent (r.1.goto (.enqD c len (count + r.2) r.1.tip)) ∧ r.1.seqI = .idle ∧ Undisturbed r.1 ∧
        r.1.seqM = s.seqM := by
  induction rest with
  | nil =>
    intro count s hc hI hu
    have ha : mainAction (s.goto (.enqA c len count [])) = .next (s.goto (.enqD c len count s.tip)) := rfl
    refine ⟨resumeMain_go hc hI rfl hu ha rfl, (mainAction_next hc hI rfl ha).1, hI, hu, rfl⟩
  | cons b rest ih =>
    intro count s hc hI hu
    cases hf : ringFull s.cfg.T s.txW s.txR with
    | true =>
      have ha : mainAction (s.goto (.enqA c len count (b :: rest))) = .next (s.goto (.enqD c len count s.tip)) := by
        simp only [mainAction, State.goto_seqM]; rw [enqueueTop_full (by exact hf)]; rfl
      simp only [appendWhole, hf, if_true]
      refine ⟨resumeMain_go hc hI rfl hu ha rfl, (mainAction_next hc hI rfl ha).1, hI, hu, trivial⟩
    | false =>
      let s1 : State := { s with txStore := s.txStore.write s.txW b }
      have ha : mainAction (s.goto (.enqA c len count
          (b :: rest))) = .next (s1.goto (.enqB c len count (incIdx s.cfg.T s.txW) rest)) := by
        simp only [mainAction, State.goto_seqM]; rw [enqueueTop_room (by exact hf) (by exact hc.txW_lt)]; rfl
      have h1 := (mainAction_next hc hI rfl ha).1
      let s2 : State := { s with txStore := s.txStore.write s.txW b, txW := incIdx s.cfg.T s.txW }
      have ha2 : mainAction (s1.goto (.enqB c len count (incIdx s.cfg.T s.txW) rest)) = .next (s2.goto (.enqA c len (count + 1) rest)) := rfl
      have h2 := (mainAction_next h1 hI rfl ha2).1
      obtain ⟨g1, g2, g3, g4, g5⟩ := ih (count + 1) s2 h2 hI hu
      simp only [appendWhole, hf, Bool.false_eq_true, if_false]
      refine ⟨?_, ?_, g3, g4, g5⟩
      · rw [resumeMain_go hc hI rfl hu ha rfl, resumeMain_go h1 hI rfl hu ha2 rfl, g1]
        simp only [s2, Nat.add_assoc, Nat.add_comm 1]
      · rw [show ∀ n, count + (n + 1) = count + 1 + n by intro n; omega]; exact g2

theorem startWhole_frame (s : State) : (startWhole s).seqI = s.seqI ∧ (startWhole s).seqM = s.seqM ∧
    (startWhole s).inputs = s.inputs ∧ (startWhole s).resetIn = s.resetIn ∧ (startWhole s).portI = s.portI := by
  unfold startWhole; split <;> exact ⟨rfl, rfl, rfl, rfl, rfl⟩

/-- An undisturbed enqueue, whatever runs it, amounts to `enqueueWhole` and its ending (R161). -/
theorem resumeMain_enqueue (c : EnqCaller) (bytes : List Byte) (s : State) (hc : Consistent s) (hm :
    s.seqM = .idle) (hI : s.seqI = .idle) (hu : Undisturbed s)
    (z : State) (hz : Consistent z) (hzI : z.seqI = .idle) (hzi : z.seqM.isIdle = false) (hzu : Undisturbed z) 
    (hza : mainAction z = enqueue c bytes s) :
    let r := enqueueWhole bytes s
    let e := enqueueEnd c r.2.1 r.2.2 r.1
    (e.seqM.isIdle = true → resumeMain z = .next e) ∧ (e.seqM.isIdle = false → resumeMain z = resumeMain e) ∧
    Consistent e ∧ Consistent r.1 ∧ r.1.seqM = .idle ∧ r.1.seqI = .idle ∧ Undisturbed r.1 := by
  have enq_e : ∀ (w : State) st n,
      w.seqM = .idle → Consistent (enqueueEnd c st n w) → w.seqI = .idle → Consistent w := by
    intro w st n hw h hwI
    cases c with
    | poll l => exact Consistent.of_goto h rfl hw
    | enq =>
      rw [show enqueueEnd .enq st n w = w.respondM (respEnqueue st n) by simp only [enqueueEnd,
          respond_of_idle hwI]] at h
      have h2 := h.update w.errflags w.rxovfCnt w.lastSent w.rxArmed w.resetIn w.seqI w.portI w.portM w.respI w.respM w.trace w.inputs w.lfState
      have : { w.respondM (respEnqueue st n) with errflags := w.errflags, rxovfCnt := w.rxovfCnt, lastSent := w.lastSent, rxArmed := w.rxArmed, resetIn := w.resetIn, seqI := w.seqI, portI := w.portI, portM := w.portM, respI := w.respI, respM := w.respM, trace := w.trace, inputs := w.inputs, lfState := w.lfState } = w := by
        cases w; simp only [State.respondM] at *; rw [← hw]
      rwa [this] at h2
    | tick now =>
      rw [show enqueueEnd (.tick now) st n w = State.respondM { w with lastSent := now } (respEnqueue st n) by simp only [enqueueEnd]; rw [respond_of_idle (by exact hwI)]] at h
      have h2 := h.update w.errflags w.rxovfCnt w.lastSent w.rxArmed w.resetIn w.seqI w.portI w.portM w.respI w.respM w.trace w.inputs w.lfState
      have : { State.respondM { w with lastSent := now } (respEnqueue st n) with errflags := w.errflags, rxovfCnt := w.rxovfCnt, lastSent := w.lastSent, rxArmed := w.rxArmed, resetIn := w.resetIn, seqI := w.seqI, portI := w.portI, portM := w.portM, respI := w.respI, respM := w.respM, trace := w.trace, inputs := w.inputs, lfState := w.lfState } = w := by
        cases w; simp only [State.respondM] at *; rw [← hw]
      rwa [this] at h2
  intro r e
  by_cases hb : s.cfg.txMode = .bulk ∧ s.tip = true
  · have hr : r = (s.flag .txbusy, stTxBusy, 0) := by simp only [r, enqueueWhole, if_pos hb]
    have he : enqueue c bytes s = .next e := by simp only [enqueue, if_pos hb, e, hr]
    rw [he] at hza
    have h1 := mainAction_next hz hzI hzi hza
    rw [hr]
    refine ⟨fun h => resumeMain_end hz hzi hza h, fun h => resumeMain_go hz hzI hzi hzu hza h, h1.1, hc.flag _, hm, hI, hu⟩
  · have hbi : BulkIdle s := fun hk => by simpa [hk] using hb
    have hqc : Consistent (s.goto (.enqA c bytes.length 0 bytes)) := hc.goto ⟨hbi, by simp⟩ fun hp =>
        by simp [SeqM.inEnqueue] at hp
    have hsame : enqueue c bytes s = mainAction (s.goto (.enqA c bytes.length 0 bytes)) := by
      simp only [enqueue, if_neg hb, mainAction, State.goto_seqM]
      cases hf : ringFull s.cfg.T s.txW s.txR with
      | true => rw [enqueueTop_full hf, enqueueTop_full (by exact hf)]; rfl
      | false =>
        cases bytes with
        | nil => rfl
        | cons b rest => rw [enqueueTop_room hf hc.txW_lt, enqueueTop_room (by exact hf) (by exact hc.txW_lt)]; rfl
    obtain ⟨y, hy, hys⟩ := mainAction_step hqc hI rfl
    have hyi : y.seqM.isIdle = false := by
      have : enqueueTop c bytes.length 0 bytes (s.goto (.enqA c bytes.length 0 bytes)) = .next y := hy
      cases hf : ringFull s.cfg.T s.txW s.txR with
      | true => rw [enqueueTop_full (by exact hf)] at this; cases this; rfl
      | false =>
        cases bytes with
        | nil => cases this; rfl
        | cons b rest => rw [enqueueTop_room (by exact hf) (by exact hc.txW_lt)] at this; cases this; rfl
    have hza' : mainAction z = .next y := by rw [hza, hsame, hy]
    have hzq : resumeMain z = resumeMain (s.goto (.enqA c bytes.length 0 bytes)) := by
      rw [resumeMain_go hz hzI hzi hzu hza' hyi, resumeMain_go hqc hI rfl hu hy hyi]
    obtain ⟨g1, g2, g3, g4, g5⟩ := resumeMain_append c bytes.length bytes 0 s hqc hI hu
    rw [hzq, g1]
    set a := appendWhole bytes s with ha
    simp only [Nat.zero_add] at g1 g2 ⊢
    have hr : r = if a.2 = bytes.length then (startWhole a.1, stOk, a.2) else ((startWhole a.1).flag .txpartial,
        stTxPartial, a.2) := by
      simp only [r, enqueueWhole, if_neg hb, ← ha]
    have hact : mainAction (a.1.goto (.enqD c bytes.length a.2 a.1.tip)) = .next e := by
      have hok := g2.seq_ok
      have hT := g2.T_ge
      simp only [mainAction, State.goto_seqM, enqueueStart]
      have hfin : enqueueFinish c bytes.length a.2 (startWhole a.1) = e := by
        simp only [e, hr, enqueueFinish]; split <;> rfl
      have hgen : ∀ w : State, w.seqI = .idle → ∀ q,
          enqueueFinish c bytes.length a.2 (w.goto q) = enqueueFinish c bytes.length a.2 w := fun w hw q =>
          enqueueFinish_goto hw ..
      by_cases hs : a.1.tip = false ∧ a.1.txW ≠ a.1.txR
      · rw [if_pos ⟨hs.1, decide_eq_false hs.2⟩, issueUnit_eq (by show 0 < (a.1.goto _).cfg.T; omega), andThen_next]
        have hu1 : unitLength (a.1.goto (.enqD c bytes.length a.2 a.1.tip)) = unitLength a.1 := rfl
        have hct : ((ringSlots a.1.cfg.T a.1.txR (unitLength a.1)).map (a.1.slot .txs)) = a.1.txContents.take (unitLength a.1) := unit_contents (s := a.1.goto (.enqD c bytes.length a.2 a.1.tip)) g2 (by exact hs.2)
        congr 1
        rw [← hfin]
        simp only [startWhole, if_pos hs, ← hct]
        exact hgen (State.emit { a.1 with txUlen := unitLength a.1, tip := true } (.txUnit ((ringSlots a.1.cfg.T a.1.txR (unitLength a.1)).map (a.1.slot .txs)))) g3 (.enqD c bytes.length a.2 a.1.tip)
      · rw [if_neg fun h => hs ⟨h.1, of_decide_eq_false h.2⟩, hgen _ g3]
        rw [← hfin]; simp only [startWhole, if_neg hs]
    have hce := (mainAction_next g2 g3 rfl hact).1
    have hst := startWhole_frame a.1
    have hr1 : r.1.seqM = .idle ∧ r.1.seqI = .idle ∧ Undisturbed r.1 := by
      have hU : Undisturbed (startWhole a.1) := by
        obtain ⟨u1, u2, u3⟩ := g4
        exact ⟨hst.2.2.1.trans u1, hst.2.2.2.1.trans u2, by rw [hst.2.2.2.2]; exact u3⟩
      rw [hr]; split
      · exact ⟨hst.2.1.trans (g5.trans hm), hst.1.trans g3, hU⟩
      · exact ⟨hst.2.1.trans (g5.trans hm), hst.1.trans g3, hU⟩
    refine ⟨fun h => resumeMain_end g2 rfl hact h, fun h => resumeMain_go g2 g3 rfl g4 hact h, hce, enq_e r.1 _ _ hr1.1 hce hr1.2.1, hr1⟩

/-- FEED on a framer whose fill is in range (R141). -/
theorem feedWhole_eq {s : State} {b : Byte} (h : s.lfFill < s.cfg.M) : feed b s = .next (feedWhole b s) := by
  unfold feedWhole
  rcases feed_cases h (b := b) with ⟨h1, he⟩ | ⟨h1, h2, he⟩ | ⟨h1, h2, he⟩ | ⟨h0, h1, h2, he⟩ | ⟨h0, h1, h2, he⟩
  · rw [he, if_pos h1]
  · rw [he, if_neg (by subst h1; decide), if_pos h1, if_pos h2]
  · rw [he, if_neg (by subst h1; decide), if_pos h1, if_neg (by omega)]
  · rw [he, if_neg h0, if_neg h1, if_pos h2]
  · rw [he, if_neg h0, if_neg h1, if_neg (by omega)]

theorem feedWhole_goto (s : State) (b : Byte) (p : SeqM) : feedWhole b (s.goto p) = ((feedWhole b s).1.goto p,
    (feedWhole b s).2) := by
  unfold feedWhole
  split
  · rfl
  split
  · by_cases h : 0 < s.lfFill
    · rw [if_pos (by exact h), if_pos h]; rfl
    · rw [if_neg (by exact h), if_neg h]; rfl
  · by_cases h : s.lfFill < s.cfg.M - 1
    · rw [if_pos (by exact h), if_pos h]; rfl
    · rw [if_neg (by exact h), if_neg h]; rfl

theorem emitGpio_goto (m) (s : State) (p : SeqM) : emitGpio m (s.goto p) = (emitGpio m s).goto p := by
  unfold emitGpio
  show (match gpioFor s.cfg m with | some e => State.emit (s.goto p) e | none => s.goto p) = _
  cases gpioFor s.cfg m <;> rfl

end Sys2Proof.Machine
end

