-- ==== Sys2Proof/Tests/Slice0.lean ====
section
/-!
SUPPORT. The model's own tests: well-formedness, decoding, at most two single steps an operation (expected values from
`95_test_vectors.md`, named in each docstring), and one witness for the hypotheses of each obligation that has some.
-/

namespace Sys2Proof.Tests

open Sys2Proof Sys2Proof.Machine

/-! ### Helpers -/

/-- The test configurations of `95_test_vectors.md` share everything but these five (R10). -/
def testCfg (n m t : Nat) (tx : TxMode) (d : DispatchMode) : Config :=
  { Config.default with N := n, M := m, T := t, txMode := tx, dispatchMode := d }

def cfgA : Config := testCfg 4 8 8 .byte .echo
def cfgB : Config := testCfg 16 32 32 .byte .echo
def cfgC : Config := testCfg 16 8 16 .byte .echo
def cfgD : Config := testCfg 16 32 32 .byte .command
def cfgABulk : Config := testCfg 4 8 8 .bulk .echo

/-- Number the bytes of a storage array from slot `i`. -/
def cells (i : Nat) : List Byte → Memory
  | [] => []
  | b :: bs => (i, b) :: cells (i + 1) bs

/-- A reset block whose RX ring holds `bs` from slot 0. -/
def withRing (c : Config) (bs : List Byte) : State :=
  { State.resetWith c with rxStore := cells 0 bs, rxW := bs.length, rxArmed := true }

/-- A reset block whose line in progress is `bs`. -/
def withLine (c : Config) (bs : List Byte) : State :=
  { State.resetWith c with lfBuf := cells 0 bs, lfFill := bs.length }

/-- A reset block whose TX queue holds `bs` from slot 0, `u` of them in flight. -/
def withQueue (c : Config) (bs : List Byte) (u : Nat) : State :=
  { State.resetWith c with txStore := cells 0 bs, txW := bs.length, tip := decide (0 < u), txUlen := u }

/-- Port I executes. -/
def onI (s : State) : State := { s with seqI := .executing }

/-- The outcome is a next state of which `p` holds. -/
def nextIs (r : Result) (p : State → Bool) : Bool :=
  match r with
  | .next t => p t
  | .fault _ => false
  | .refused _ => false

/-! ### Well-formedness -/

/-- An ENQ of 65535 bytes has an encoding (R97). -/
theorem test_wf_longest_enq : (Instr.enq (List.replicate 65535 0x00#8)).wf = true := by
  simp only [Instr.wf, List.length_replicate]; decide
/-- An ENQ of 65536 bytes has none: its length field has 16 bits (R97). -/
theorem test_wf_too_long_enq : (Instr.enq (List.replicate 65536 0x00#8)).wf = false := by
  simp only [Instr.wf, List.length_replicate]; decide
/-- The parameters of `State.reset` are legal. -/
theorem test_wf_default : Config.default.wf := by decide
/-- A ring of one slot is refused (R7, U17). -/
theorem test_wf_small_ring : ¬ (testCfg 1 8 8 .byte .echo).wf := by decide
/-- A line buffer of 65537 slots is refused (R7, U17). -/
theorem test_wf_large_line : ¬ (testCfg 4 65537 8 .byte .echo).wf := by decide
/-- A queue of no slot is refused (R7, U17). -/
theorem test_wf_no_queue : ¬ (testCfg 4 8 0 .byte .echo).wf := by decide
/-- A reply that does not end in `0D 0A` is refused (R197, U17). -/
theorem test_wf_text : ¬ Config.wf { cfgA with replyPing := [0x70#8, 0x6F#8, 0x0A#8] } := by decide

/-! ### Decoding: the words of R93, written out -/

theorem test_decode_push : decode [0x10#8, 0x41#8] = .command (.push 0x41#8) [] := by decide
theorem test_decode_pop : decode [0x11#8] = .command .pop [] := by decide
theorem test_decode_isempty : decode [0x12#8] = .command .isempty [] := by decide
theorem test_decode_isfull : decode [0x13#8] = .command .isfull [] := by decide
theorem test_decode_feed : decode [0x20#8, 0x0A#8] = .command (.feed 0x0A#8) [] := by decide
/-- V-TX-1, with the first byte of another command behind it. -/
theorem test_decode_enq : decode [0x30#8, 0x04#8, 0x00#8, 0x48#8, 0x69#8, 0x0D#8, 0x0A#8, 0x11#8] =
    .command (.enq [0x48#8, 0x69#8, 0x0D#8, 0x0A#8]) [0x11#8] := by decide
theorem test_decode_txdone : decode [0x31#8] = .command .txdone [] := by decide
theorem test_decode_rxbyte : decode [0x40#8, 0x48#8] = .command (.rxbyte 0x48#8) [] := by decide
theorem test_decode_poll : decode [0x41#8] = .command .poll [] := by decide
/-- V-SS-10: the time is least significant byte first. -/
theorem test_decode_tick : decode [0x42#8, 0xE8#8, 0x02#8, 0x00#8, 0x80#8] = .command (.tick 0x800002E8#32) [] := by
  decide
theorem test_decode_rxfault : decode [0x50#8] = .command .rxfault [] := by decide
theorem test_decode_txfault : decode [0x51#8] = .command .txfault [] := by decide
theorem test_decode_rdcsr : decode [0x60#8, 0x15#8] = .command (.rdcsr 0x15#8) [] := by decide
theorem test_decode_reset : decode [0xF0#8] = .command .reset [] := by decide
theorem test_decode_start : decode [0xF1#8] = .command .start [] := by decide
/-- V-EN-2: an unassigned opcode is one byte, and decoding resumes behind it. -/
theorem test_decode_unassigned : decode [0x00#8, 0x11#8] = .illegal 0x00#8 [0x11#8] := by decide
/-- V-EN-3: two commands that have not ended. -/
theorem test_decode_incomplete :
    decode [0x30#8, 0x04#8, 0x00#8, 0x48#8, 0x69#8] = .incomplete ∧ decode [0x42#8, 0xE8#8, 0x03#8] = .incomplete := by
  decide
/-- V-EN-4. -/
theorem test_decode_enq_lengths :
    decode [0x30#8, 0x00#8, 0x00#8] = .command (.enq []) [] ∧ le16 0xFF#8 0xFF#8 = 65535 := by decide
theorem test_table_word_tick : decodeTableWord 40 0x04030201_42 = some (.tick 0x04030201#32) := by decide
theorem test_table_word_short_enq : decodeTableWord 8 0x30 = some (.enq []) := by decide
theorem test_table_word_unassigned : decodeTableWord 8 0x14 = none := by decide

/-- The host's word runs as the first instruction after reset. -/
theorem test_fetch_start :
    nextIs (step (State.reset.withFetchWord 8 0xF1)) (fun t => t.respM == [[0x00#8]] && t.rxArmed) = true := by
  decide
/-- The same on port I. -/
theorem test_fetch_txdone :
    nextIs (step (State.reset.withFetchWord 8 0x31)) (fun t => t.respI == [[0x86#8]] && t.respM == []) = true := by
  decide

/-! ### Single steps -/

/-- V-RB-1: the ring of four slots is full with three bytes. -/
theorem test_push_overflow :
    nextIs (exec (.push 0x44#8) (onI (withRing cfgA [0x41#8, 0x42#8, 0x43#8])))
      (fun t => t.respI == [[0x81#8]] && t.rxW == 3 && t.errflags == 0x01#8 && t.rxovfCnt == 1#32) = true := by
  decide
/-- V-RB-7: the counter saturates. -/
theorem test_push_saturates :
    nextIs (exec (.push 0x00#8) (onI { withRing cfgA [0x41#8, 0x42#8, 0x43#8] with rxovfCnt := 0xFFFFFFFF#32 }))
      (fun t => t.rxovfCnt == 0xFFFFFFFF#32) = true := by decide
/-- V-RB-5 (b): the ring was sampled empty, so the answer is NONE although a byte has come since. -/
theorem test_pop_sampled_empty :
    nextIs (step { withRing cfgA [0x41#8] with seqM := .popB .pop 0 })
      (fun t => t.respM == [[0x01#8]] && t.rxR == 0 && t.seqM == .idle) = true := by decide
/-- V-RB-6: a push while POP holds slot 0 overflows, and the POP stays where it is. -/
theorem test_pop_holds_slot :
    nextIs (step { withRing cfgA [0x41#8, 0x42#8, 0x43#8] with seqM := .popC .pop 0x41#8, portI := [0x10#8, 0x44#8] })
      (fun t => t.respI == [[0x81#8]] && t.seqM == .popC .pop 0x41#8 && t.respM == []) = true := by decide
/-- V-RB-2. -/
theorem test_isempty_main :
    nextIs (exec .isempty (State.resetWith cfgA)) (fun t => t.respM == [[0x00#8, 0x01#8]]) = true := by decide
/-- V-RB-2, on port I after three pushes. -/
theorem test_isempty_interrupt :
    nextIs (exec .isempty (onI (withRing cfgA [0x41#8, 0x42#8, 0x43#8])))
      (fun t => t.respI == [[0x00#8, 0x00#8]]) = true := by decide
/-- V-RB-2. -/
theorem test_isfull_main :
    nextIs (exec .isfull (State.resetWith cfgA)) (fun t => t.respM == [[0x00#8, 0x00#8]]) = true := by decide
/-- V-RB-2, on port I after three pushes. -/
theorem test_isfull_interrupt :
    nextIs (exec .isfull (onI (withRing cfgA [0x41#8, 0x42#8, 0x43#8])))
      (fun t => t.respI == [[0x00#8, 0x01#8]]) = true := by decide
/-- V-LF-5: the longest message; the null lands in the last slot. -/
theorem test_feed_longest_message :
    nextIs (exec (.feed 0x0A#8) (withLine cfgA [0x61#8, 0x62#8, 0x63#8, 0x64#8, 0x65#8, 0x66#8, 0x67#8]))
      (fun t => t.respM == [[0x02#8, 0x07#8, 0x00#8, 0x61#8, 0x62#8, 0x63#8, 0x64#8, 0x65#8, 0x66#8, 0x67#8]] &&
        t.lfBuf.read 7 == some 0x00#8 && t.lfFill == 0) = true := by decide
/-- V-LF-6: the eighth ordinary byte overflows and is not stored. -/
theorem test_feed_overflow :
    nextIs (exec (.feed 0x68#8) (withLine cfgA [0x61#8, 0x62#8, 0x63#8, 0x64#8, 0x65#8, 0x66#8, 0x67#8]))
      (fun t => t.respM == [[0x82#8]] && t.lfFill == 0 && t.lfState == .overflowed && t.errflags == 0x02#8 &&
        t.lfBuf.read 7 == none) = true := by decide
/-- V-TX-3: one byte fits at slot 7, `tx_w` wraps. -/
theorem test_enq_partial_wrap :
    nextIs (exec (.enq [0x58#8, 0x59#8])
        { withQueue cfgA [0x30#8, 0x31#8, 0x32#8, 0x33#8, 0x34#8, 0x35#8, 0x36#8] 1 with txR := 1 })
      (fun t => t.respM == [[0x83#8, 0x01#8, 0x00#8]] && t.txW == 0 && t.txStore.read 7 == some 0x58#8 &&
        t.errflags == 0x04#8 && t.trace == []) = true := by decide
/-- V-TX-9 (c) to (e): the chain drained this call's byte, so no unit is issued from the empty queue. -/
theorem test_enq_drained_before_sample :
    nextIs (step { withQueue cfgA [0x61#8, 0x62#8] 0 with txR := 2, seqM := .enqA .enq 1 1 [] })
      (fun t => t.respM == [[0x00#8, 0x01#8, 0x00#8]] && t.trace == [] && t.tip == false) = true := by decide
/-- V-TX-7: in bulk mode the completion of a wrapped unit empties the queue. -/
theorem test_txdone_bulk_wrap :
    nextIs (exec .txdone (onI { withQueue cfgABulk [] 5 with
        txStore := cells 0 [0x69#8, 0x6A#8, 0x63#8, 0x64#8, 0x65#8, 0x66#8, 0x67#8, 0x68#8], txR := 5, txW := 2 }))
      (fun t => t.respI == [[0x00#8]] && t.txR == 2 && t.tip == false && t.txUlen == 0 && t.trace == []) = true := by
  decide
/-- V-TX-1: the next byte goes out. -/
theorem test_txdone_continues :
    nextIs (exec .txdone (onI (withQueue cfgA [0x48#8, 0x69#8, 0x0D#8, 0x0A#8] 1)))
      (fun t => t.txR == 1 && t.tip && t.txUlen == 1 && t.trace == [.txUnit [0x69#8]]) = true := by decide
/-- V-SS-7: not armed. -/
theorem test_rxbyte_not_armed :
    nextIs (exec (.rxbyte 0x41#8) (onI (State.resetWith cfgB)))
      (fun t => t.respI == [[0x87#8]] && t.rxW == 0 && t.trace == []) = true := by decide
/-- V-SS-5: a dropped byte still re-arms. -/
theorem test_rxbyte_overflow_rearms :
    nextIs (exec (.rxbyte 0x64#8) (onI (withRing cfgA [0x61#8, 0x62#8, 0x63#8])))
      (fun t => t.respI == [[0x81#8]] && t.trace == [.armRx] && t.rxArmed && t.rxovfCnt == 1#32) = true := by
  decide
/-- Program P3, line 3: line overflow, a diagnostic that does not fit, then a blank line. -/
theorem test_poll_overflow_and_partial :
    nextIs (exec .poll (withRing cfgC [0x61#8, 0x62#8, 0x63#8, 0x64#8, 0x65#8, 0x66#8, 0x67#8, 0x68#8, 0x0A#8]))
      (fun t => t.respM == [[0x00#8, 0x09#8, 0x00#8, 0x00#8, 0x00#8, 0x06#8]] && t.trace == [.txUnit [0x45#8]] &&
        t.errflags == 0x06#8 && t.txW == 15 && t.lfState == .idle && t.rxR == 9) = true := by decide
/-- V-SS-8, `"led on\n"`: the GPIO event stands before the unit. -/
theorem test_poll_led_on :
    nextIs (exec .poll (withRing cfgD [0x6C#8, 0x65#8, 0x64#8, 0x20#8, 0x6F#8, 0x6E#8, 0x0A#8]))
      (fun t => t.respM == [[0x00#8, 0x07#8, 0x00#8, 0x01#8, 0x00#8, 0x00#8]] &&
        t.trace == [.gpio 13#16 true, .txUnit [0x4F#8]] && t.txW == 4) = true := by decide
/-- V-SS-10: the difference wraps; 999 is not due. -/
theorem test_tick_wrap_not_due :
    nextIs (exec (.tick 0x000002E7#32) { State.resetWith cfgB with lastSent := 0xFFFFFF00#32 })
      (fun t => t.respM == [[0x01#8]] && t.lastSent == 0xFFFFFF00#32) = true := by decide
/-- V-SS-10: 1000 is due. -/
theorem test_tick_wrap_due :
    nextIs (exec (.tick 0x000002E8#32) { State.resetWith cfgB with lastSent := 0xFFFFFF00#32 })
      (fun t => t.respM == [[0x00#8, 0x04#8, 0x00#8]] && t.trace == [.txUnit [0x4F#8]] && t.lastSent == 0x2E8#32) =
      true := by decide
/-- V-SY-1. -/
theorem test_rxfault :
    nextIs (exec .rxfault (onI (withRing cfgC [0x41#8])))
      (fun t => t.respI == [[0x85#8]] && t.trace == [.faultUp .rx, .armRx] && t.errflags == 0x10#8 && t.rxW == 1) =
      true := by decide
/-- V-TX-11: the faulted byte is not retried, the next one goes out. -/
theorem test_txfault_continues :
    nextIs (exec .txfault (onI (withQueue cfgA [0x61#8, 0x62#8, 0x63#8] 1)))
      (fun t => t.respI == [[0x85#8]] && t.trace == [.faultUp .tx, .txUnit [0x62#8]] && t.txR == 1 &&
        t.errflags == 0x20#8) = true := by decide
/-- V-TX-8. -/
theorem test_txfault_spurious :
    nextIs (exec .txfault (onI (State.resetWith cfgA))) (fun t => t.respI == [[0x86#8]] && t.errflags == 0x80#8) =
      true := by decide
/-- V-RB-2: `STATUS` with three bytes in a ring of four slots. -/
theorem test_rdcsr_status :
    nextIs (exec (.rdcsr 0x07#8) { withRing cfgA [0x41#8, 0x42#8, 0x43#8] with rxArmed := false })
      (fun t => t.respM == [[0x00#8, 0x06#8, 0x00#8, 0x00#8, 0x00#8]]) = true := by decide
/-- V-SY-2: a capacity of 65536 reads as 32 bits. -/
theorem test_rdcsr_capacity :
    nextIs (exec (.rdcsr 0x10#8) (State.resetWith (testCfg 65536 8 8 .byte .echo)))
      (fun t => t.respM == [[0x00#8, 0x00#8, 0x00#8, 0x01#8, 0x00#8]]) = true := by decide
/-- V-SY-3: RESET forgets the unit in flight and keeps the storage. -/
theorem test_reset :
    nextIs (exec .reset { withQueue cfgA [0x30#8, 0x31#8] 1 with txR := 1, errflags := 0x04#8 })
      (fun t => t.respM == [[0x00#8]] && t.tip == false && t.txR == 0 && t.errflags == 0x00#8 &&
        t.txStore.read 1 == some 0x31#8 && t.trace == []) = true := by decide
/-- V-SY-1: an armed receiver is not armed again. -/
theorem test_start_twice :
    nextIs (exec .start (withRing cfgC [])) (fun t => t.respM == [[0x00#8]] && t.trace == []) = true := by decide
/-- V-RB-8: PUSH on port M is rejected after its two bytes. -/
theorem test_wrong_port :
    nextIs (step { State.resetWith cfgA with portM := [0x10#8, 0x41#8, 0x11#8] })
      (fun t => t.respM == [[0x8E#8]] && t.portM == [0x11#8] && t.errflags == 0x40#8 && t.rxW == 0) = true := by
  decide
/-- V-EN-1: an unassigned opcode on port I. -/
theorem test_illegal_op :
    nextIs (step { State.resetWith cfgA with portI := [0x14#8, 0x31#8] })
      (fun t => t.respI == [[0x8F#8]] && t.portI == [0x31#8] && t.errflags == 0x40#8) = true := by decide

/-! ### Witnesses

For the hypotheses of each obligation, states and operands that meet all of them together: one theorem an obligation, and one
clause a clause of the obligation. -/

/-- Everything `Consistent` asks of a state but its last field, decided. -/
def consistentCheck (s : State) : Bool :=
  decide (s.cfg.wf ∧ s.rxW < s.cfg.N ∧ s.rxR < s.cfg.N ∧ s.txW < s.cfg.T ∧ s.txR < s.cfg.T ∧ s.lfFill < s.cfg.M ∧
    (s.rxStore.wf ∧ s.rxStore.below s.cfg.N) ∧ (s.lfBuf.wf ∧ s.lfBuf.below s.cfg.M) ∧
    (s.txStore.wf ∧ s.txStore.below s.cfg.T) ∧ (s.tip = true ↔ 1 ≤ s.txUlen) ∧ s.txUlen ≤ s.txCount ∧
    (s.cfg.txMode = .byte → s.txUlen ≤ 1) ∧ (s.cfg.txMode = .bulk → s.tip = true → s.txUlen = s.txCount) ∧
    (s.tip = false → s.seqM.inEnqueue = false → s.txW = s.txR))

theorem consistent_of_check {s : State} (h : consistentCheck s = true) (hs : s.seqM.ok s) : Consistent s := by
  obtain ⟨h1, h2, h3, h4, h5, h6, h7, h8, h9, h10, h11, h12, h13, h14⟩ := of_decide_eq_true h
  exact ⟨h1, h2, h3, h4, h5, h6, h7, h8, h9, h10, h11, h12, h13, h14, hs⟩

theorem undisturbed_of {s : State} (h : (decide (s.inputs = []) && !s.resetIn && !commandReady s.portI) = true) :
    Undisturbed s := by
  simp only [Bool.and_eq_true, decide_eq_true_eq, Bool.not_eq_true'] at h
  exact ⟨h.1.1, h.1.2, h.2⟩

/-- The block of `cfgA` after reset. -/
def sReset : State := State.resetWith cfgA
/-- Three bytes in the ring of `cfgA`: full. -/
def sFull : State := withRing cfgA [0x41#8, 0x42#8, 0x43#8]
/-- One byte in the ring of `cfgA`. -/
def sOne : State := withRing cfgA [0x41#8]
/-- Four bytes queued in `cfgA`, the first in flight. -/
def sQueue : State := withQueue cfgA [0x48#8, 0x69#8, 0x0D#8, 0x0A#8] 1
/-- One byte queued in `cfgA`, in flight. -/
def sLast : State := withQueue cfgA [0x48#8] 1
/-- Four bytes in flight in bulk mode. -/
def sBulk : State := withQueue cfgABulk [0x48#8, 0x69#8, 0x0D#8, 0x0A#8] 4
/-- POP suspended before its last action, one byte in the ring. -/
def sPopC : State := { sOne with seqM := .popC .pop 0x41#8 }
/-- ENQ suspended with a byte written and not yet published, a unit in flight. -/
def sEnqB : State := { withQueue cfgA [0x48#8, 0x69#8] 1 with txW := 1, seqM := .enqB .enq 1 0 2 [] }

theorem witness_consistent_reset : Consistent sReset := consistent_of_check (by decide) trivial
theorem witness_consistent_full : Consistent sFull := consistent_of_check (by decide) trivial
theorem witness_consistent_one : Consistent sOne := consistent_of_check (by decide) trivial
theorem witness_consistent_queue : Consistent sQueue := consistent_of_check (by decide) trivial
theorem witness_consistent_last : Consistent sLast := consistent_of_check (by decide) trivial
theorem witness_consistent_bulk : Consistent sBulk := consistent_of_check (by decide) trivial
theorem witness_consistent_popC : Consistent sPopC :=
  consistent_of_check (by decide) (show sPopC.rxW ≠ sPopC.rxR ∧ 0x41#8 = sPopC.slot .rxs sPopC.rxR by decide)
theorem witness_consistent_enqB : Consistent sEnqB :=
  consistent_of_check (by decide)
    ⟨(fun h => nomatch h), (by decide : (2 : Nat) = incIdx sEnqB.cfg.T sEnqB.txW), (by decide : (2 : Nat) ≠ sEnqB.txR), rfl⟩

theorem witness_DecodeOfEncode :
    (Instr.enq [0x48#8, 0x69#8]).wf = true ∧ (Instr.enq []).wf = true ∧ (Instr.tick 0xFFFFFFFF#32).wf = true := by decide

theorem witness_EncodeOfDecode : decode [0x30#8, 0x01#8, 0x00#8, 0x61#8, 0x11#8] = .command (.enq [0x61#8]) [0x11#8] := by
  decide

/-- A payload of 0 bytes, and one of 256 bytes (the high length byte alone). -/
theorem witness_OperandAssembly :
    ([] : List Byte).length = (0x00#8 : Byte).toNat + 2 ^ 8 * (0x00#8 : Byte).toNat ∧
    (List.replicate 256 (0x61#8 : Byte)).length = (0x00#8 : Byte).toNat + 2 ^ 8 * (0x01#8 : Byte).toNat := by
  rw [List.length_replicate]; decide

/-- The command has just arrived. -/
theorem witness_StepRunsPortI :
    let s : State := { sPopC with inputs := [.onI [0x10#8, 0x44#8, 0x31#8]] }
    s.seqI = .idle ∧ (Instr.push 0x44#8).wf = true ∧ s.arrive.resetIn = false ∧
      s.arrive.portI = encode (.push 0x44#8) ++ [0x31#8] := by decide

/-- A partial command waits on port I. -/
theorem witness_StepRunsPortM :
    let s : State := { sReset with portI := [0x10#8], portM := [0x11#8] }
    s.seqI = .idle ∧ s.seqM = .idle ∧ Instr.pop.wf = true ∧ s.arrive.resetIn = false ∧
      commandReady s.arrive.portI = false ∧ s.arrive.portM = encode .pop ++ [] := by decide

/-- An enqueue with a byte written and not published: with nothing to come, and with a completion that arrives. -/
theorem witness_StepResumes :
    (Inv sEnqB ∧ sEnqB.seqM.isIdle = false ∧ sEnqB.arrive.resetIn = false ∧ commandReady sEnqB.arrive.portI = false ∧
      Undisturbed sEnqB) ∧
    (let s : State := { sEnqB with inputs := [.quiet, .onI [0x31#8]] }
     Inv s ∧ s.seqM.isIdle = false ∧ s.arrive.resetIn = false ∧ commandReady s.arrive.portI = false) :=
  ⟨⟨⟨witness_consistent_enqB, rfl⟩, by decide, by decide, by decide, undisturbed_of (by decide)⟩,
    ⟨consistent_of_check (by decide) witness_consistent_enqB.seq_ok, rfl⟩, by decide⟩

theorem witness_UnassignedOpcodeAnswersIllegalOp :
    Opcode.ofByte 0x14#8 = none ∧
    (let s : State := { sReset with portI := [0x14#8] }
     s.seqI = .idle ∧ s.arrive.resetIn = false ∧ s.arrive.portI = 0x14#8 :: []) ∧
    (let s : State := { sReset with portM := [0x14#8] }
     s.seqI = .idle ∧ s.arrive.resetIn = false ∧ commandReady s.arrive.portI = false ∧ s.seqM = .idle ∧
       s.arrive.portM = 0x14#8 :: []) := by decide

theorem witness_WrongPortAnswersIllegalCtx :
    (let s : State := { sReset with portI := [0x11#8] }
     s.seqI = .idle ∧ s.arrive.resetIn = false ∧ Instr.pop.opcode.allowedOn .I = false ∧
       s.arrive.portI = encode .pop ++ []) ∧
    (let s : State := { sReset with portM := [0x10#8, 0x41#8] }
     s.seqI = .idle ∧ s.arrive.resetIn = false ∧ (Instr.push 0x41#8).opcode.allowedOn .M = false ∧
       commandReady s.arrive.portI = false ∧ s.seqM = .idle ∧ s.arrive.portM = encode (.push 0x41#8) ++ []) := by decide

theorem witness_IncompleteCommandWaits :
    let s : State := { sReset with portI := [0x10#8], portM := [0x30#8, 0x04#8, 0x00#8, 0x48#8, 0x69#8] }
    s.seqI = .idle ∧ s.seqM = .idle ∧ s.arrive.resetIn = false ∧ decode s.arrive.portI = .incomplete ∧
      decode s.arrive.portM = .incomplete := by decide

/-- The smallest and the largest capacities. -/
theorem witness_ResetValues : (testCfg 2 2 2 .byte .echo).wf ∧ (testCfg 65536 65536 65536 .bulk .command).wf := by decide

theorem witness_ResetOperation : AtMain sQueue := ⟨rfl, rfl⟩

/-- The input is raised in the middle of an enqueue, with a partial command on port M. -/
theorem witness_HardwareResetInput :
    let s : State := { sEnqB with inputs := [.resetLine], portM := [0x11#8, 0x42#8] }
    s.seqI = .idle ∧ s.arrive.resetIn = true := by decide

/-- POP, an unassigned byte, PUSH; after them part of a TICK, or nothing. -/
theorem witness_PartialCommandDiscarded :
    (∀ c ∈ [[0x11#8], [0x14#8], [0x10#8, 0x41#8]],
      (∃ i : Instr, i.wf = true ∧ c = encode i) ∨ (∃ op, Opcode.ofByte op = none ∧ c = [op])) ∧
    decode [0x42#8, 0xE8#8] = .incomplete ∧ decode [] = .incomplete := by
  refine ⟨fun c hc => ?_, by decide⟩
  simp only [List.mem_cons, List.not_mem_nil, or_false] at hc
  rcases hc with rfl | rfl | rfl
  exacts [.inl ⟨.pop, rfl, rfl⟩, .inr ⟨0x14#8, rfl, rfl⟩, .inl ⟨.push 0x41#8, rfl, rfl⟩]

/-- With room, and full. -/
theorem witness_PushResult :
    (AtInterrupt (onI sOne) ∧ sOne.rxW < sOne.cfg.N ∧ incIdx sOne.cfg.N sOne.rxW ≠ sOne.rxR) ∧
    (AtInterrupt (onI sFull) ∧ sFull.rxW < sFull.cfg.N ∧ incIdx sFull.cfg.N sFull.rxW = sFull.rxR) :=
  ⟨⟨rfl, by decide⟩, ⟨rfl, by decide⟩⟩

/-- Not empty, and empty. -/
theorem witness_PopResult :
    (AtMain sOne ∧ Undisturbed sOne ∧ sOne.rxR < sOne.cfg.N ∧ sOne.rxW ≠ sOne.rxR) ∧
    (AtMain sReset ∧ Undisturbed sReset ∧ sReset.rxR < sReset.cfg.N ∧ sReset.rxW = sReset.rxR) :=
  ⟨⟨⟨rfl, rfl⟩, undisturbed_of (by decide), by decide⟩, ⟨⟨rfl, rfl⟩, undisturbed_of (by decide), by decide⟩⟩

theorem witness_IsEmptyAnswers : AtInterrupt (onI sOne) ∧ AtMain sReset ∧ Undisturbed sReset :=
  ⟨rfl, ⟨rfl, rfl⟩, undisturbed_of (by decide)⟩

theorem witness_IsFullAnswers : AtInterrupt (onI sFull) ∧ AtMain sReset ∧ Undisturbed sReset :=
  ⟨rfl, ⟨rfl, rfl⟩, undisturbed_of (by decide)⟩

/-- A command is complete on port I, and the reset input is raised. -/
theorem witness_PopGivesWay :
    (let s : State := { sOne with inputs := [.onI [0x31#8]] }
     AtMain s ∧ s.arrive.preempted = true) ∧
    (let s : State := { sOne with inputs := [.resetLine] }
     AtMain s ∧ s.arrive.preempted = true) := ⟨⟨⟨rfl, rfl⟩, by decide⟩, ⟨⟨rfl, rfl⟩, by decide⟩⟩

theorem witness_SlotBeingPoppedIsSafe :
    Consistent (onI sPopC) ∧ AtInterrupt (onI sPopC) ∧ (onI sPopC).seqM = .popC .pop 0x41#8 ∧
      nextIs (exec (.push 0x42#8) (onI sPopC)) (fun _ => true) = true :=
  ⟨consistent_of_check (by decide) (show sPopC.rxW ≠ sPopC.rxR ∧ 0x41#8 = sPopC.slot .rxs sPopC.rxR by decide), rfl, rfl,
    by decide⟩

theorem witness_FeedCarriageReturn : AtMain sReset := ⟨rfl, rfl⟩

/-- The last byte that fits (`lf_fill = 6`, `M = 8`). -/
theorem witness_FeedAppends :
    let s := withLine cfgA [0x61#8, 0x62#8, 0x63#8, 0x64#8, 0x65#8, 0x66#8]
    AtMain s ∧ 0x68#8 ≠ 0x0D#8 ∧ 0x68#8 ≠ 0x0A#8 ∧ s.lfFill < s.cfg.M - 1 := ⟨⟨rfl, rfl⟩, by decide⟩

theorem witness_FeedOverflows :
    let s := withLine cfgA [0x61#8, 0x62#8, 0x63#8, 0x64#8, 0x65#8, 0x66#8, 0x67#8]
    AtMain s ∧ 0x68#8 ≠ 0x0D#8 ∧ 0x68#8 ≠ 0x0A#8 ∧ s.lfFill = s.cfg.M - 1 := ⟨⟨rfl, rfl⟩, by decide⟩

/-- The longest message, and the shortest. -/
theorem witness_FeedCompletesMessage :
    (let s := withLine cfgA [0x61#8, 0x62#8, 0x63#8, 0x64#8, 0x65#8, 0x66#8, 0x67#8]
     AtMain s ∧ 0 < s.lfFill ∧ s.lfFill < s.cfg.M) ∧
    (let s := withLine cfgA [0x61#8]
     AtMain s ∧ 0 < s.lfFill ∧ s.lfFill < s.cfg.M) := ⟨⟨⟨rfl, rfl⟩, by decide⟩, ⟨⟨rfl, rfl⟩, by decide⟩⟩

theorem witness_FeedBlankLine : AtMain sReset ∧ sReset.lfFill = 0 := ⟨⟨rfl, rfl⟩, rfl⟩

/-- Byte mode with a unit in flight, and bulk mode with none. -/
theorem witness_EnqAppendsAndStarts :
    (Inv sQueue ∧ AtMain sQueue ∧ Undisturbed sQueue ∧ ¬ (sQueue.cfg.txMode = .bulk ∧ sQueue.tip = true)) ∧
    (let s := State.resetWith cfgABulk
     Inv s ∧ AtMain s ∧ Undisturbed s ∧ ¬ (s.cfg.txMode = .bulk ∧ s.tip = true)) :=
  ⟨⟨⟨witness_consistent_queue, rfl⟩, ⟨rfl, rfl⟩, undisturbed_of (by decide), by decide⟩,
    ⟨consistent_of_check (by decide) trivial, rfl⟩, ⟨rfl, rfl⟩, undisturbed_of (by decide), by decide⟩

theorem witness_EnqRejectedBusy : AtMain sBulk ∧ sBulk.cfg.txMode = .bulk ∧ sBulk.tip = true := ⟨⟨rfl, rfl⟩, rfl, rfl⟩

/-- The chain goes on, and ends. -/
theorem witness_TxdoneContinuesOrEnds :
    (AtInterrupt (onI sQueue) ∧ 0 < sQueue.cfg.T ∧ sQueue.tip = true) ∧
    (AtInterrupt (onI sLast) ∧ 0 < sLast.cfg.T ∧ sLast.tip = true) := ⟨⟨rfl, by decide⟩, ⟨rfl, by decide⟩⟩

theorem witness_TxdoneSpurious : AtInterrupt (onI sReset) ∧ (onI sReset).tip = false := ⟨rfl, rfl⟩

/-- Four bytes queued with port M idle, and one with an enqueue suspended in the middle of its append. -/
theorem witness_ByteChainDrainsInOrder :
    (Inv sQueue ∧ sQueue.cfg.txMode = .byte ∧ sQueue.tip = true ∧ sQueue.txCount = 4) ∧
    (Inv sEnqB ∧ sEnqB.cfg.txMode = .byte ∧ sEnqB.tip = true ∧ sEnqB.txCount = 1) :=
  ⟨⟨⟨witness_consistent_queue, rfl⟩, rfl, rfl, rfl⟩, ⟨witness_consistent_enqB, rfl⟩, rfl, rfl, rfl⟩

theorem witness_BulkCompletionEmpties :
    Consistent (onI sBulk) ∧ AtInterrupt (onI sBulk) ∧ (onI sBulk).cfg.txMode = .bulk ∧ (onI sBulk).tip = true :=
  ⟨consistent_of_check (by decide) trivial, rfl, rfl, rfl⟩

/-- Not armed, armed with the ring full, armed with room. -/
theorem witness_RxbyteResult :
    (AtInterrupt (onI sReset) ∧ sReset.rxW < sReset.cfg.N ∧ sReset.rxArmed = false) ∧
    (AtInterrupt (onI sFull) ∧ sFull.rxW < sFull.cfg.N ∧ sFull.rxArmed = true) ∧
    (AtInterrupt (onI sOne) ∧ sOne.rxW < sOne.cfg.N ∧ sOne.rxArmed = true) :=
  ⟨⟨rfl, by decide⟩, ⟨rfl, by decide⟩, ⟨rfl, by decide⟩⟩

/-- For PollDrainsFramesDispatches and PollEmptiesRing: bytes in the ring, and none. -/
theorem witness_Poll : (Inv sFull ∧ AtMain sFull ∧ Undisturbed sFull) ∧ (Inv sReset ∧ AtMain sReset ∧ Undisturbed sReset) :=
  ⟨⟨⟨witness_consistent_full, rfl⟩, ⟨rfl, rfl⟩, undisturbed_of (by decide)⟩,
    ⟨witness_consistent_reset, rfl⟩, ⟨rfl, rfl⟩, undisturbed_of (by decide)⟩

/-- One `\n` in the ring, and the line `msg` in progress. -/
def sLine (c : Config) (msg : List Byte) : State := { withRing c [0x0A#8] with lfBuf := cells 0 msg, lfFill := msg.length }

/-- The hypotheses of PollAnswersEachLine on the state, and that the line in progress is `msg`, decided. -/
def lineCheck (s : State) (msg : List Byte) : Bool :=
  consistentCheck s && (decide (s.inputs = []) && !s.resetIn && !commandReady s.portI) &&
    decide (s.seqI = .idle ∧ s.seqM = .idle ∧ s.rxContents = [0x0A#8] ∧ 0 < s.lfFill ∧ s.tip = false ∧
      s.lineContents = msg)

theorem line_of_check {s : State} {msg : List Byte} (h : lineCheck s msg = true) :
    Inv s ∧ AtMain s ∧ Undisturbed s ∧ s.rxContents = [0x0A#8] ∧ 0 < s.lfFill ∧ s.tip = false ∧ s.lineContents = msg := by
  simp only [lineCheck, Bool.and_assoc, Bool.and_eq_true, decide_eq_true_eq, Bool.not_eq_true'] at h
  obtain ⟨h1, h2, h3, h4, h5, h6, h7, h8, h9, h10⟩ := h
  exact ⟨⟨consistent_of_check h1 (by rw [h6]; trivial), h5⟩, ⟨h5, h6⟩, ⟨h2, h3, h4⟩, h7, h8, h9, h10⟩

/-- Each clause has a line that meets it, and its reply fits. -/
theorem witness_PollAnswersEachLine :
    lineCheck (sLine cfgB textHeartbeat) textHeartbeat = true ∧
    (lineCheck (sLine cfgB textHelp) textHelp = true ∧ textHelp ≠ textHeartbeat ∧ cfgB.dispatchMode = .echo) ∧
    cfgD.dispatchMode = .command ∧
    (∀ m ∈ [textHelp, textLedOn, textLedOff, textPing, textVersion, [0x50#8]], lineCheck (sLine cfgD m) m = true) ∧
    [0x50#8] ∉ [textHeartbeat, textHelp, textLedOn, textLedOff, textPing, textVersion] ∧
    (∀ r ∈ [textHeartbeatReply, textEcho, cfgD.replyHelp, cfgD.replyLedOn, cfgD.replyLedOff, cfgD.replyPing,
      cfgD.replyVersion, textUnknown], r.length ≤ cfgD.T - 1) := by decide

theorem witness_PollReportsLineOverflow :
    let s : State :=
      { withRing cfgB [0x61#8] with cfg := testCfg 16 2 32 .byte .echo, lfBuf := [(0, 0x61#8)], lfFill := 1 }
    Inv s ∧ AtMain s ∧ Undisturbed s ∧ s.rxContents = [0x61#8] ∧ 0x61#8 ≠ 0x0D#8 ∧ 0x61#8 ≠ 0x0A#8 ∧
      s.lfFill = s.cfg.M - 1 ∧ s.tip = false ∧ 21 ≤ s.cfg.T - 1 :=
  ⟨⟨consistent_of_check (by decide) trivial, rfl⟩, ⟨rfl, rfl⟩, undisturbed_of (by decide), by decide⟩

/-- The smallest difference that is due. -/
theorem witness_TickDueSendsStatus :
    Inv sReset ∧ AtMain sReset ∧ Undisturbed sReset ∧ ¬ (sReset.cfg.txMode = .bulk ∧ sReset.tip = true) ∧
      sReset.cfg.interval.toNat ≤ ((1000#32).toNat + (2 ^ 32 - sReset.lastSent.toNat)) % 2 ^ 32 :=
  ⟨⟨witness_consistent_reset, rfl⟩, ⟨rfl, rfl⟩, undisturbed_of (by decide), by decide⟩

/-- The largest difference that is not due, and the smallest that is, in bulk mode with a unit in flight. -/
theorem witness_TickNotDueOrBusy :
    AtMain sReset ∧ ((999#32).toNat + (2 ^ 32 - sReset.lastSent.toNat)) % 2 ^ 32 < sReset.cfg.interval.toNat ∧
    AtMain sBulk ∧ sBulk.cfg.interval.toNat ≤ ((1000#32).toNat + (2 ^ 32 - sBulk.lastSent.toNat)) % 2 ^ 32 ∧
      sBulk.cfg.txMode = .bulk ∧ sBulk.tip = true :=
  ⟨⟨rfl, rfl⟩, by decide, ⟨rfl, rfl⟩, by decide⟩

/-- Not armed, and armed. -/
theorem witness_StartArmsOnce : (AtMain sReset ∧ sReset.rxArmed = false) ∧ (AtMain sOne ∧ sOne.rxArmed = true) :=
  ⟨⟨⟨rfl, rfl⟩, rfl⟩, ⟨⟨rfl, rfl⟩, rfl⟩⟩

/-- The list of registers, with the values V-SY-2 gives after reset (here with `N = 4`, `M = T = 8`). -/
theorem witness_RdcsrReadsEachRegister :
    let s := sReset
    AtInterrupt (onI s) ∧ AtMain s ∧
    ([(0x00#8, BitVec.ofNat 32 s.rxW), (0x01#8, BitVec.ofNat 32 s.rxR), (0x02#8, BitVec.ofNat 32 s.lfFill),
        (0x03#8, if s.lfState = .overflowed then 1#32 else 0#32), (0x04#8, BitVec.ofNat 32 s.txW),
        (0x05#8, BitVec.ofNat 32 s.txR), (0x06#8, if s.tip then 1#32 else 0#32), (0x07#8, s.status.setWidth 32),
        (0x08#8, s.errflags.setWidth 32), (0x09#8, s.rxovfCnt), (0x0A#8, s.lastSent),
        (0x0B#8, BitVec.ofNat 32 s.txUlen), (0x0C#8, if s.rxArmed then 1#32 else 0#32),
        (0x10#8, BitVec.ofNat 32 s.cfg.N), (0x11#8, BitVec.ofNat 32 s.cfg.M), (0x12#8, BitVec.ofNat 32 s.cfg.T),
        (0x13#8, s.cfg.interval),
        (0x14#8, (if s.cfg.txMode = .bulk then 1#32 else 0#32) + (if s.cfg.dispatchMode = .command then 2#32 else 0#32)),
        (0x15#8, s.cfg.ledPin.setWidth 32)] : List (Byte × Word32)) =
      [(0x00#8, 0#32), (0x01#8, 0#32), (0x02#8, 0#32), (0x03#8, 0#32), (0x04#8, 0#32),
        (0x05#8, 0#32), (0x06#8, 0#32), (0x07#8, 5#32), (0x08#8, 0#32), (0x09#8, 0#32), (0x0A#8, 0#32), (0x0B#8, 0#32),
        (0x0C#8, 0#32), (0x10#8, 4#32), (0x11#8, 8#32), (0x12#8, 8#32), (0x13#8, 1000#32), (0x14#8, 0#32),
        (0x15#8, 13#32)] := ⟨rfl, ⟨rfl, rfl⟩, by decide⟩

/-- The ends of the unassigned ranges. -/
theorem witness_RdcsrUnassigned :
    (∀ a ∈ [(0x0D#8 : Byte), 0x0F#8, 0x16#8, 0xFF#8], 0x0D ≤ a.toNat ∧ a.toNat ≤ 0x0F ∨ 0x16 ≤ a.toNat) ∧
    AtInterrupt (onI sReset) ∧ AtMain sReset := ⟨by decide, rfl, rfl, rfl⟩

/-- Not armed, and armed. -/
theorem witness_RxfaultResult :
    (AtInterrupt (onI sReset) ∧ sReset.rxArmed = false) ∧ (AtInterrupt (onI sOne) ∧ sOne.rxArmed = true) :=
  ⟨⟨rfl, rfl⟩, ⟨rfl, rfl⟩⟩

/-- Nothing in flight, the last unit, a unit with bytes behind it. -/
theorem witness_TxfaultResult :
    (AtInterrupt (onI sReset) ∧ 0 < sReset.cfg.T ∧ sReset.tip = false) ∧
    (AtInterrupt (onI sLast) ∧ 0 < sLast.cfg.T ∧ sLast.tip = true) ∧
    (AtInterrupt (onI sQueue) ∧ 0 < sQueue.cfg.T ∧ sQueue.tip = true) :=
  ⟨⟨rfl, by decide⟩, ⟨rfl, by decide⟩, ⟨rfl, by decide⟩⟩

/-- Also for StatusBits. -/
theorem witness_ResetMeetsInvariant : (testCfg 2 2 2 .byte .echo).wf ∧ Config.default.wf := by decide

/-- For StepKeepsInvariant, StepNeverStops, RxFifoAtEveryStep, TxFifoAtEveryStep and ParametersAreFixed: a state with an
operation in progress, and its step. -/
theorem witness_step : (Inv sEnqB ∧ nextIs (step sEnqB) (fun _ => true) = true) ∧
    (let s : State := { sPopC with portI := [0x10#8, 0x42#8] }
     Inv s ∧ nextIs (step s) (fun _ => true) = true) :=
  ⟨⟨⟨witness_consistent_enqB, rfl⟩, by decide⟩,
    ⟨consistent_of_check (by decide) (show sPopC.rxW ≠ sPopC.rxR ∧ 0x41#8 = sPopC.slot .rxs sPopC.rxR by decide), rfl⟩,
    by decide⟩

theorem witness_StepKeepsWritten : Inv sEnqB ∧ Written sEnqB ∧ nextIs (step sEnqB) (fun _ => true) = true :=
  ⟨⟨witness_consistent_enqB, rfl⟩, ⟨by decide, by decide, by decide, fun _ _ _ _ _ _ => by decide⟩, by decide⟩

theorem witness_InterruptContextOwnership :
    AtInterrupt (onI sQueue) ∧ nextIs (exec .txdone (onI sQueue)) (fun _ => true) = true := ⟨rfl, by decide⟩

theorem witness_MainContextOwnership :
    (Inv sReset ∧ AtMain sReset ∧ Instr.start ≠ .reset ∧ nextIs (exec .start sReset) (fun _ => true) = true) ∧
    (Inv sEnqB ∧ sEnqB.seqM.isIdle = false ∧ nextIs (resumeMain sEnqB) (fun _ => true) = true ∧ sEnqB.tip = true) :=
  ⟨⟨⟨witness_consistent_reset, rfl⟩, ⟨rfl, rfl⟩, by decide⟩, ⟨witness_consistent_enqB, rfl⟩, by decide⟩

theorem witness_ErrorFlagsAreSticky :
    (Consistent sFull ∧ AtMain sFull ∧ nextIs (exec .pop sFull) (fun _ => true) = true) ∧
    (Consistent (onI sFull) ∧ AtInterrupt (onI sFull) ∧ nextIs (exec (.push 0x44#8) (onI sFull)) (fun _ => true) = true) ∧
    (Inv sEnqB ∧ sEnqB.seqM.isIdle = false ∧ nextIs (resumeMain sEnqB) (fun _ => true) = true) :=
  ⟨⟨witness_consistent_full, ⟨rfl, rfl⟩, by decide⟩, ⟨consistent_of_check (by decide) trivial, rfl, by decide⟩,
    ⟨witness_consistent_enqB, rfl⟩, by decide⟩

theorem witness_EveryCommandAnswersOnce :
    (Consistent (onI sFull) ∧ AtInterrupt (onI sFull)) ∧ (Consistent sFull ∧ AtMain sFull ∧ Undisturbed sFull) :=
  ⟨⟨consistent_of_check (by decide) trivial, rfl⟩, witness_consistent_full, ⟨rfl, rfl⟩, undisturbed_of (by decide)⟩

/-- A byte arrives and a unit completes, in both orders. -/
theorem witness_SimultaneousEventsCommute :
    let s : State := onI { sQueue with rxArmed := true }
    Consistent s ∧ AtInterrupt s ∧
      nextIs (exec (.rxbyte 0x41#8) s) (fun a => nextIs (exec .txdone (onI a)) fun _ => true) = true ∧
      nextIs (exec .txdone s) (fun b => nextIs (exec (.rxbyte 0x41#8) (onI b)) fun _ => true) = true :=
  ⟨consistent_of_check (by decide) trivial, rfl, by decide⟩

theorem witness_StorageLaws :
    Memory.wf [(0, 0x41#8), (3, 0x42#8)] ∧ Memory.wf [] ∧ ∀ j, Memory.read [] j = Memory.read [] j :=
  ⟨by decide, by decide, fun _ => rfl⟩

/-- A slot that the operation does not store in, for PUSH, FEED, ENQ, TICK, POLL, and a resumed ENQ; in the queue it is one
that a queued byte holds. -/
theorem witness_StoresOnlyTheirSlot :
    (Consistent (onI sOne) ∧ AtInterrupt (onI sOne) ∧ nextIs (exec (.push 0x42#8) (onI sOne)) (fun _ => true) = true ∧
      ¬ MayStore (.push 0x42#8) (onI sOne) .rxs 0) ∧
    (Consistent sReset ∧ AtMain sReset ∧ nextIs (exec (.feed 0x61#8) sReset) (fun _ => true) = true ∧
      ¬ MayStore (.feed 0x61#8) sReset .lfb 1) ∧
    (Consistent sQueue ∧ AtMain sQueue ∧ nextIs (exec (.enq [0x21#8]) sQueue) (fun _ => true) = true ∧
      nextIs (exec (.tick 1000#32) sQueue) (fun _ => true) = true ∧ nextIs (exec .poll sQueue) (fun _ => true) = true ∧
      ¬ MayStore (.enq [0x21#8]) sQueue .txs 0 ∧ ¬ MayStore (.tick 1000#32) sQueue .txs 0 ∧
      ¬ MayStore .poll sQueue .txs 0) ∧
    (Inv sEnqB ∧ sEnqB.seqM.isIdle = false ∧ nextIs (resumeMain sEnqB) (fun _ => true) = true ∧ 0 ∉ sEnqB.txFree ∧
      sEnqB.seqM.inPoll = false) :=
  ⟨⟨consistent_of_check (by decide) trivial, rfl, by decide, show ¬ (Space.rxs = .rxs ∧ 0 = (onI sOne).rxW) by decide⟩,
    ⟨witness_consistent_reset, ⟨rfl, rfl⟩, by decide, show ¬ (Space.lfb = .lfb ∧ 1 = sReset.lfFill) by decide⟩,
    ⟨witness_consistent_queue, ⟨rfl, rfl⟩, by decide, by decide, by decide,
      show ¬ (Space.txs = .txs ∧ 0 ∈ sQueue.txFree) by decide, show ¬ (Space.txs = .txs ∧ 0 ∈ sQueue.txFree) by decide,
      show ¬ ((Space.txs = .txs ∧ 0 ∈ sQueue.txFree) ∨ Space.txs = .lfb) by decide⟩,
    ⟨witness_consistent_enqB, rfl⟩, by decide⟩

/-- The ends of the range of an index. -/
theorem witness_RingArithmetic : (0 < 2 ∧ 1 < 2 ∧ 1 < 2) ∧ (65535 < 65536 ∧ 0 < 65536 ∧ 65535 < 65536) := by decide

end Sys2Proof.Tests
end

namespace Sys2Proof.Machine

/-! ### The parameters across a step (R6, R281) -/

section Parameters
variable {s t : State} {i : Instr}

theorem PortOnly.cfg (h : PortOnly s t) : t.cfg = s.cfg := by rw [h]

theorem InterruptEffect.cfg (h : InterruptEffect s t) : t.cfg = s.cfg := by rw [h.frame]

@[simp] theorem armReceiver_cfg (s : State) : (armReceiver s).cfg = s.cfg := by
  unfold armReceiver
  split <;> rfl

/-- A command of port M that completes at once (`exec_main`) keeps the parameters. -/
theorem directEffect_cfg (hc : Consistent s)
    (h : t = s ∨ (∃ f, t = s.flag f) ∨ (i = .reset ∧ t = s.resetRegisters) ∨ (i = .start ∧ t = armReceiver s) ∨
      ∃ b fr, i = .feed b ∧ feed b s = .next (t, fr)) : t.cfg = s.cfg := by
  rcases h with rfl | ⟨f, rfl⟩ | ⟨-, rfl⟩ | ⟨-, rfl⟩ | ⟨b, fr, -, hf⟩
  · rfl
  · exact State.flag_cfg s f
  · rfl
  · exact armReceiver_cfg s
  · obtain ⟨hframe, -⟩ := feed_frame hc.lfFill_lt hf
    exact hframe.cfg

end Parameters

/-- Settles O55: `step_relation`, for equality of the parameters; every part of a step keeps them. -/
theorem parametersAreFixed : Obligations.ParametersAreFixed := by
  intro s t hs ht
  have hstep : ∃ u, step s = .next u ∧ Inv u ∧ u.cfg = s.cfg :=
    step_relation (P := fun x y => y.cfg = x.cfg) (Q := fun x y => y.cfg = x.cfg) hs
      (QP := fun _ _ h => h)
      (hw := fun _ _ => rfl)
      (port := fun _ _ _ hp h => h.trans hp.cfg)
      (portQ := fun _ _ _ hp h => h.trans hp.cfg)
      (port' := fun _ _ _ hp h => hp.cfg.trans h)
      (refl := fun _ => rfl)
      (intr := fun _ _ _ _ he => he.cfg)
      (direct := fun _ _ _ _ hc _ he => (State.respondM_cfg ..).trans (directEffect_cfg hc he))
      (begin := fun _ _ _ _ => rfl)
      (main := fun _ _ _ h _ _ _ _ hm _ => hm.frame.cfg.trans h)
  obtain ⟨u, hu, -, hcfg⟩ := hstep
  cases ht.symm.trans hu
  exact hcfg

/-! ### The index arithmetic of R12 as remainders, and the predicates of R24 as occupancies -/

section Index
variable {X w r : Nat}

/-- `inc_X` computed by comparison is the increment modulo the capacity (R12). -/
theorem incIdx_eq_mod (hw : w < X) : incIdx X w = (w + 1) % X := incIdx_eq_addIdx hw

/-- `dist_X` computed by comparison is the difference modulo the capacity (R12). -/
theorem distIdx_eq_mod (hw : w < X) (hr : r < X) : distIdx X w r = (w + (X - r)) % X := by
  unfold distIdx
  split
  · rw [show w + (X - r) = w - r + X by omega, Nat.add_mod_right, Nat.mod_eq_of_lt (by omega)]
  · rw [← Nat.add_sub_assoc hr.le, Nat.mod_eq_of_lt (by omega)]

/-- Empty is occupancy 0 (R24). -/
theorem ringEmpty_iff (hr : r < X) : ringEmpty w r = true ↔ distIdx X w r = 0 := by
  simp [ringEmpty, distIdx_eq_zero hr]

theorem ringEmpty_eq_false : ringEmpty w r = false ↔ w ≠ r := decide_eq_false_iff_not

theorem ringFull_eq_false : ringFull X w r = false ↔ incIdx X w ≠ r := decide_eq_false_iff_not

end Index

/-- Settles O60, by the laws of the index arithmetic: one for each conjunct. -/
theorem ringArithmetic : Obligations.RingArithmetic := by
  intro X w r k hw hr _
  exact ⟨incIdx_eq_mod hw, rfl, distIdx_eq_mod hw hr, ringEmpty_iff hr, ringFull_iff hw hr,
    fun h => distIdx_inc_write hw hr (ringFull_eq_false.mp h),
    fun h => distIdx_inc_read hw hr (ringEmpty_eq_false.mp h)⟩

end Sys2Proof.Machine

namespace Sys2Proof.Machine

/-! ### The invariant across a step (R25, R26, R46) -/

/-- A step from a state that meets the invariant answers a next state that meets it: `step_relation`, with no relation to
carry. -/
theorem step_next_inv {s : State} (hs : Inv s) : ∃ t, step s = .next t ∧ Inv t := by
  obtain ⟨t, ht, hinv, -⟩ :=
    step_relation (P := fun _ _ => True) (Q := fun _ _ => True) hs
      (QP := fun _ _ h => h) (hw := fun _ _ => trivial) (port := fun _ _ _ _ h => h) (portQ := fun _ _ _ _ h => h)
      (port' := fun _ _ _ _ h => h) (refl := fun _ => trivial) (intr := fun _ _ _ _ _ => trivial)
      (direct := fun _ _ _ _ _ _ _ => trivial) (begin := fun _ _ _ _ => trivial)
      (main := fun _ _ _ h _ _ _ _ _ _ => h)
  exact ⟨t, ht, hinv⟩

/-- Settles O47: every part of a step keeps `Consistent` and leaves port I idle (`step_next_inv`). -/
theorem stepKeepsInvariant : Obligations.StepKeepsInvariant := by
  intro s t hs ht
  obtain ⟨u, hu, hinv⟩ := step_next_inv hs
  cases ht.symm.trans hu
  exact hinv

/-! ### The slots a rule may read (R47) -/

/-- What a command of port M that completes at once has done before it responds, as `exec_main` says it. -/
def DirectEffect (i : Instr) (s u : State) : Prop :=
  u = s ∨ (∃ f, u = s.flag f) ∨ (i = .reset ∧ u = s.resetRegisters) ∨ (i = .start ∧ u = armReceiver s) ∨
    ∃ b fr, i = .feed b ∧ feed b s = .next (u, fr)

section WrittenSlots
variable {m : Memory} {X w r n i : Nat} {v : Byte} {s t : State}

theorem Memory.isSome_read_write_same : ((m.write i v).read i).isSome = true := by simp

theorem Memory.isSome_read_write {j : Nat} (h : (m.read j).isSome = true) : ((m.write i v).read j).isSome = true := by
  rw [Memory.read_write]
  split
  · rfl
  · exact h

/-- Every slot of a ring between its indices is written. -/
def RingWritten (m : Memory) (X w r : Nat) : Prop := ∀ k < distIdx X w r, (m.read (addIdx X r k)).isSome = true

/-- Every slot of a line of `n` bytes is written. -/
def LineWritten (m : Memory) (n : Nat) : Prop := ∀ k < n, (m.read k).isSome = true

theorem RingWritten.empty : RingWritten m X 0 0 := fun k hk => by simp [distIdx] at hk

theorem RingWritten.write (h : RingWritten m X w r) : RingWritten (m.write i v) X w r :=
  fun k hk => Memory.isSome_read_write (h k hk)

/-- The write index moves on over a written slot. -/
theorem RingWritten.publish (h : RingWritten m X w r) (hw : w < X) (hr : r < X) (hne : incIdx X w ≠ r)
    (hs : (m.read w).isSome = true) : RingWritten m X (incIdx X w) r := by
  intro k hk
  rw [distIdx_inc_write hw hr hne] at hk
  rcases Nat.lt_succ_iff_lt_or_eq.mp hk with hk | rfl
  · exact h k hk
  · rwa [addIdx_dist hw hr]

/-- The read index moves on over `n` stored bytes. -/
theorem RingWritten.release (h : RingWritten m X w r) (hw : w < X) (hr : r < X) (hn : n ≤ distIdx X w r) :
    RingWritten m X w (addIdx X r n) := by
  intro k hk
  rw [distIdx_add_read hw hr hn] at hk
  rw [addIdx_addIdx]
  exact h (n + k) (by omega)

theorem LineWritten.empty : LineWritten m 0 := fun k hk => absurd hk (Nat.not_lt_zero k)

theorem LineWritten.append (h : LineWritten m n) : LineWritten (m.write n v) (n + 1) := by
  intro k hk
  rcases Nat.lt_succ_iff_lt_or_eq.mp hk with hk | rfl
  · exact Memory.isSome_read_write (h k hk)
  · exact Memory.isSome_read_write_same

theorem written_iff : Written s ↔
    RingWritten s.rxStore s.cfg.N s.rxW s.rxR ∧ LineWritten s.lfBuf s.lfFill ∧
      RingWritten s.txStore s.cfg.T s.txW s.txR ∧ (SeqM.Unpublished s.seqM → (s.txStore.read s.txW).isSome = true) :=
  ⟨fun ⟨hrx, hline, htx, hpend⟩ => ⟨hrx, hline, htx, fun ⟨_, _, _, _, _, hp⟩ => hpend _ _ _ _ _ hp⟩,
    fun ⟨hrx, hline, htx, hpend⟩ => ⟨hrx, hline, htx, fun _ _ _ _ _ hp => hpend ⟨_, _, _, _, _, hp⟩⟩⟩

theorem not_unpublished_idle : ¬ SeqM.Unpublished .idle := not_unpublished (by simp)

/-- A block with empty rings, no message and no operation in progress has no slot to read. -/
theorem Written.of_empty (hrw : s.rxW = 0) (hrr : s.rxR = 0) (hl : s.lfFill = 0) (htw : s.txW = 0) (htr : s.txR = 0)
    (hm : s.seqM = .idle) : Written s := by
  rw [written_iff, hrw, hrr, hl, htw, htr, hm]
  exact ⟨.empty, .empty, .empty, fun h => absurd h not_unpublished_idle⟩

/-- A move of port M's sequencer, to a position where no byte waits to be published. -/
theorem Written.goto (h : Written s) {p : SeqM} (hp : ¬ SeqM.Unpublished p) : Written (s.goto p) := by
  obtain ⟨hrx, hline, htx, -⟩ := written_iff.mp h
  exact written_iff.mpr ⟨hrx, hline, htx, fun h => absurd h hp⟩

theorem Written.respondM (h : Written s) (r : List Byte) : Written (s.respondM r) := by
  obtain ⟨hrx, hline, htx, -⟩ := written_iff.mp h
  exact written_iff.mpr ⟨hrx, hline, htx, fun h => absurd h not_unpublished_idle⟩

theorem Written.portOnly (h : Written s) (hp : PortOnly s t) : Written t := by
  rw [hp]
  exact ⟨h.rx, h.line, h.tx, h.pending⟩

/-- What FEED can do to the line in progress (R141). -/
theorem feed_line {b : Byte} {fr : FeedResult} (hl : s.lfFill < s.cfg.M) (hf : feed b s = .next (t, fr)) :
    (t.lfBuf = s.lfBuf ∧ t.lfFill = s.lfFill) ∨ t.lfFill = 0 ∨
      t.lfBuf = s.lfBuf.write s.lfFill b ∧ t.lfFill = s.lfFill + 1 := by
  rcases feed_cases hl (b := b) with ⟨-, he⟩ | ⟨-, -, he⟩ | ⟨-, -, he⟩ | ⟨-, -, -, he⟩ | ⟨-, -, -, he⟩ <;>
    cases hf.symm.trans he
  · exact .inl ⟨rfl, rfl⟩
  · exact .inr (.inl rfl)
  · exact .inl ⟨rfl, rfl⟩
  · exact .inr (.inr ⟨rfl, rfl⟩)
  · exact .inr (.inl rfl)

theorem Written.feed {b : Byte} {fr : FeedResult} (h : Written s) (hl : s.lfFill < s.cfg.M)
    (hf : feed b s = .next (t, fr)) : Written t := by
  obtain ⟨hrx, hline, htx, hpend⟩ := written_iff.mp h
  obtain ⟨hF, hrxR, hseq, -, -, htxW, htxS, -, -, -⟩ := feed_frame hl hf
  rw [written_iff, hF.cfg, hF.rxStore, hF.rxW, hrxR, htxS, htxW, hF.txR, hseq]
  refine ⟨hrx, ?_, htx, hpend⟩
  rcases feed_line hl hf with ⟨hbuf, hfill⟩ | hfill | ⟨hbuf, hfill⟩
  · rwa [hbuf, hfill]
  · rw [hfill]; exact .empty
  · rw [hbuf, hfill]; exact hline.append

/-- A command of port M that completes at once. -/
theorem Written.direct {i : Instr} (h : Written s) (hc : Consistent s) (hm : s.seqM = .idle) (ht : DirectEffect i s t) :
    Written t := by
  rcases ht with rfl | ⟨f, rfl⟩ | ⟨-, rfl⟩ | ⟨-, rfl⟩ | ⟨b, fr, -, hf⟩
  · exact h
  · exact ⟨h.rx, h.line, h.tx, h.pending⟩
  · exact .of_empty rfl rfl rfl rfl rfl hm
  · unfold armReceiver
    split
    · exact ⟨h.rx, h.line, h.tx, h.pending⟩
    · exact h
  · exact h.feed hc.lfFill_lt hf

/-- A command of port I: a push writes the slot it publishes, a completion releases bytes that were queued. -/
theorem Written.interrupt (h : Written s) (hc : Consistent s) (he : InterruptEffect s t) : Written t := by
  obtain ⟨m, c, tr, b, x, rfl, hx⟩ := he
  suffices hw : Written x from ⟨hw.rx, hw.line, hw.tx, hw.pending⟩
  obtain ⟨hrx, hline, htx, hpend⟩ := written_iff.mp h
  rcases hx with rfl | ⟨v, hfull, hw, rfl⟩ | ⟨-, hT, hx⟩
  · exact h
  · exact written_iff.mpr
      ⟨hrx.write.publish hw hc.rxR_lt (ringFull_eq_false.mp hfull) Memory.isSome_read_write_same, hline, htx, hpend⟩
  · rw [completeUnit_frame_of_pos hT hx]
    exact written_iff.mpr ⟨hrx, hline, htx.release hc.txW_lt hc.txR_lt hc.unit_le, hpend⟩

/-- An action of port M: what it releases was stored, and what it publishes was written by the action before. -/
theorem Written.action (h : Written s) (hc : Consistent s) (hF : MainFrame s t) (he : ActionEffect s t) : Written t := by
  obtain ⟨hrx, hline, htx, hpend⟩ := written_iff.mp h
  rw [written_iff, hF.cfg, hF.rxStore, hF.rxW, hF.txR]
  refine ⟨?_, ?_, ?_⟩
  · rcases he.rx with hr | ⟨hne, hr⟩
    · rwa [hr]
    · rw [hr, incIdx_eq_addIdx hc.rxR_lt]
      exact hrx.release hc.rxW_lt hc.rxR_lt (Nat.pos_of_ne_zero fun h0 => hne ((distIdx_eq_zero hc.rxR_lt).mp h0))
  · rcases he.line with ⟨hbuf, hfill⟩ | hfill | ⟨b, hbuf, hfill⟩
    · rwa [hbuf, hfill]
    · rw [hfill]; exact .empty
    · rw [hbuf, hfill]; exact hline.append
  · rcases he.tx with ⟨hst, hw, hp⟩ | ⟨b, hst, hw, -⟩ | ⟨hu, hne, hst, hw, hp⟩
    · rw [hst, hw]; exact ⟨htx, fun h => absurd h hp⟩
    · rw [hst, hw]; exact ⟨htx.write, fun _ => Memory.isSome_read_write_same⟩
    · rw [hst, hw]; exact ⟨htx.publish hc.txW_lt hc.txR_lt hne (hpend hu), fun h => absurd h hp⟩

end WrittenSlots

/-- Settles O49: `step_relation`, for "`Written` of the first state gives `Written` of the second". -/
theorem stepKeepsWritten : Obligations.StepKeepsWritten := by
  intro s t hs hw ht
  have hstep : ∃ u, step s = .next u ∧ Inv u ∧ (Written s → Written u) :=
    step_relation (P := fun x y => Written x → Written y) (Q := fun x y => Written x → Written y) hs
      (QP := fun _ _ h => h)
      (hw := fun _ _ _ => .of_empty rfl rfl rfl rfl rfl rfl)
      (port := fun _ _ _ hp h hx => h (hx.portOnly hp))
      (portQ := fun _ _ _ hp h hx => h (hx.portOnly hp))
      (port' := fun _ _ _ hp h hx => (h hx).portOnly hp)
      (refl := fun _ h => h)
      (intr := fun _ _ _ hc he hx => by
        have hu := hx.interrupt hc he
        exact ⟨hu.rx, hu.line, hu.tx, hu.pending⟩)
      (direct := fun _ _ _ _ hc hm he hx => (hx.direct hc hm he).respondM _)
      (begin := fun _ _ _ hp hx => hx.goto hp)
      (main := fun _ _ _ h hc _ _ _ hm he hx => (h hx).action hc hm.frame he)
  obtain ⟨u, hu, -, hwritten⟩ := hstep
  cases ht.symm.trans hu
  exact hwritten hw

/-! ### What the main context may not write (R23, R28, R29, R250) -/

/-- What the operations of port M keep of the interrupt context's registers while inputs arrive (R23, R28, R29, R250), and the
sticky flags (R32). -/
structure MainKeeps (s t : State) : Prop where
  owned : SameInterruptOwned s t
  tip : s.tip = true → t.tip = true ∧ t.txUlen = s.txUlen
  errflags : s.errflags ||| t.errflags = t.errflags

section MainKeeps
variable {s t u : State} {i : Instr}

theorem or_absorb_trans {a b c : Byte} (hab : a ||| b = b) (hbc : b ||| c = c) : a ||| c = c := by
  rw [← hbc, ← BitVec.or_assoc, hab]

theorem or_absorb_or (a m : Byte) : a ||| (a ||| m) = a ||| m := by rw [← BitVec.or_assoc, BitVec.or_self]

theorem MainKeeps.refl (s : State) : MainKeeps s s :=
  ⟨⟨rfl, rfl, rfl, rfl, rfl⟩, fun h => ⟨h, rfl⟩, BitVec.or_self⟩

theorem MainKeeps.trans (h : MainKeeps s t) (g : MainKeeps t u) : MainKeeps s u where
  owned := by
    obtain ⟨h1, h2, h3, h4, h5⟩ := h.owned
    obtain ⟨g1, g2, g3, g4, g5⟩ := g.owned
    exact ⟨g1.trans h1, g2.trans h2, g3.trans h3, g4.trans h4, g5.trans h5⟩
  tip := fun ht =>
    have ⟨htip, hlen⟩ := h.tip ht
    have ⟨htip', hlen'⟩ := g.tip htip
    ⟨htip', hlen'.trans hlen⟩
  errflags := or_absorb_trans h.errflags g.errflags

theorem MainFrame.keeps (h : MainFrame s t) : MainKeeps s t :=
  ⟨⟨h.rxStore, h.rxW, h.txR, h.rxovfCnt, h.respI⟩, h.tip, h.errflags⟩

theorem PortOnly.keeps (h : PortOnly s t) : MainKeeps s t := by
  rw [h]
  exact ⟨⟨rfl, rfl, rfl, rfl, rfl⟩, fun h => ⟨h, rfl⟩, BitVec.or_self⟩

theorem MainKeeps.respondM (s : State) (r : List Byte) : MainKeeps s (s.respondM r) := (MainFrame.respondM s r).keeps

theorem MainKeeps.armReceiver (s : State) : MainKeeps s (armReceiver s) := by
  unfold Machine.armReceiver
  split
  · exact ⟨⟨rfl, rfl, rfl, rfl, rfl⟩, fun h => ⟨h, rfl⟩, BitVec.or_self⟩
  · exact .refl s

/-- A command of port M that completes at once, but for RESET. -/
theorem MainKeeps.direct (hc : Consistent s) (hi : i ≠ .reset) (ht : DirectEffect i s t) :
    MainKeeps s t ∧ (i ≠ .start → t.rxArmed = s.rxArmed) := by
  rcases ht with rfl | ⟨f, rfl⟩ | ⟨hreset, -⟩ | ⟨hstart, rfl⟩ | ⟨b, fr, -, hf⟩
  · exact ⟨.refl t, fun _ => rfl⟩
  · exact ⟨(MainFrame.flag s f).keeps, fun _ => rfl⟩
  · exact absurd hreset hi
  · exact ⟨.armReceiver s, fun h => absurd hstart h⟩
  · obtain ⟨hF, -⟩ := feed_frame hc.lfFill_lt hf
    exact ⟨hF.keeps, fun _ => hF.rxArmed⟩

/-- A command begun on port M, RESET excepted, whatever arrives while it runs. -/
theorem exec_main_keeps (hc : Consistent s) (h : AtMain s) (hi : i ≠ .reset) (he : exec i s = .next t) :
    MainKeeps s t ∧ (i ≠ .start → t.rxArmed = s.rxArmed) := by
  obtain ⟨u, hu, hkeeps, -⟩ :=
    exec_main_induction (P := fun u => MainKeeps s u ∧ (i ≠ .start → u.rxArmed = s.rxArmed)) i hc h
      (direct := fun u r hu =>
        have ⟨hk, ha⟩ := MainKeeps.direct hc hi hu
        ⟨hk.trans (.respondM u r), ha⟩)
      (begin := fun p _ => ⟨(MainFrame.goto s p).keeps, fun _ => rfl⟩)
      (port := fun y z hp ⟨hk, ha⟩ => ⟨hk.trans hp.keeps, by rw [hp]; exact ha⟩)
      (action := fun y z ⟨hk, ha⟩ _ _ _ _ hstep _ =>
        ⟨hk.trans hstep.frame.keeps, fun hs => hstep.frame.rxArmed.trans (ha hs)⟩)
  cases he.symm.trans hu
  exact hkeeps

/-- An operation of port M that is resumed. -/
theorem resumeMain_keeps (hs : Inv s) (hi : s.seqM.isIdle = false) (he : resumeMain s = .next t) :
    MainKeeps s t ∧ t.rxArmed = s.rxArmed := by
  obtain ⟨hc, hI⟩ := hs
  obtain ⟨u, hu, hkeeps, -⟩ :=
    resumeMain_induction (P := fun u => MainKeeps s u ∧ u.rxArmed = s.rxArmed) hc hI hi
      (start := ⟨.refl s, rfl⟩)
      (port := fun y z hp ⟨hk, ha⟩ => ⟨hk.trans hp.keeps, by rw [hp]; exact ha⟩)
      (action := fun y z ⟨hk, ha⟩ _ _ _ _ hstep _ =>
        ⟨hk.trans hstep.frame.keeps, hstep.frame.rxArmed.trans ha⟩)
  cases he.symm.trans hu
  exact hkeeps

end MainKeeps

/-- Settles O53: every action of port M and every arrival keep `MainKeeps`, and so do the commands that complete at once. -/
theorem mainContextOwnership : Obligations.MainContextOwnership := by
  intro s t hs
  constructor
  · intro i hmain hi he
    obtain ⟨hkeeps, harmed⟩ := exec_main_keeps hs.1 hmain hi he
    exact ⟨hkeeps.owned, hkeeps.tip, harmed⟩
  · intro hi he
    obtain ⟨hkeeps, harmed⟩ := resumeMain_keeps hs hi he
    exact ⟨hkeeps.owned, hkeeps.tip, harmed⟩

/-! ### What the interrupt context may not write (R23, R26, R28, R250) -/

section InterruptKeeps
variable {s t u : State} {i : Instr} {b : Byte}

theorem SameMainOwned.refl (s : State) : SameMainOwned s s := ⟨rfl, rfl, rfl, rfl, rfl, rfl, rfl, rfl, rfl⟩

/-- Everything a command `i` of port I keeps before it responds, in any state: what the main context owns, the interrupt
context it runs in, and every slot but the one a push writes. -/
structure InterruptKeeps (i : Instr) (s t : State) : Prop where
  owned : SameMainOwned s t
  seqI : t.seqI = s.seqI
  rxStore : t.rxStore = s.rxStore ∨ ∃ b, (i = .push b ∨ i = .rxbyte b) ∧ t.rxStore = s.rxStore.write s.rxW b

theorem InterruptKeeps.refl (i : Instr) (s : State) : InterruptKeeps i s s := ⟨.refl s, rfl, .inl rfl⟩

theorem InterruptKeeps.flag (i : Instr) (s : State) (f : ErrFlag) : InterruptKeeps i s (s.flag f) :=
  ⟨.refl s, rfl, .inl rfl⟩

/-- A push, by PUSH or RXBYTE, with the receiver and the trace as they may be. -/
theorem push_interruptKeeps {a : Bool} (hi : i = .push b ∨ i = .rxbyte b) (h : push b { s with rxArmed := a } = .next t) :
    InterruptKeeps i s t := by
  rcases push_cases h with ⟨-, rfl⟩ | ⟨-, -, rfl⟩
  · exact ⟨.refl s, rfl, .inl rfl⟩
  · exact ⟨.refl s, rfl, .inr ⟨b, hi, rfl⟩⟩

theorem completeUnit_interruptKeeps (i : Instr) (h : completeUnit s = .next t) : InterruptKeeps i s t := by
  rw [completeUnit_frame h]
  exact ⟨.refl s, rfl, .inl rfl⟩

/-- A command that answers on port I has kept that much, and has then responded there. -/
theorem exec_interrupt_keeps (h : AtInterrupt s) (he : exec i s = .next t) :
    ∃ u r, t = u.respondI r ∧ InterruptKeeps i s u := by
  have respond : ∀ {u : State} {r}, InterruptKeeps i s u → u.respond r = t →
      ∃ u r, t = u.respondI r ∧ InterruptKeeps i s u := by
    rintro u r hu rfl
    exact ⟨u, r, respond_of_executing (hu.seqI.trans h), hu⟩
  by_cases ha : i.opcode.allowedOn .I = true
  swap
  · rw [exec_wrongPort (by simp [context_of_atInterrupt h]) (by simpa [context_of_atInterrupt h] using ha)] at he
    cases he
    exact respond (.flag i s .illegal) rfl
  cases i with
  | push b =>
    rw [exec, execPush, accept_of_atInterrupt h rfl] at he
    obtain ⟨u, hu, he⟩ := andThen_eq_next.mp he
    cases he
    exact respond (push_interruptKeeps (.inl rfl) (a := s.rxArmed) hu) rfl
  | isempty =>
    rw [exec, execIsempty, accept_of_atInterrupt h rfl, context_of_atInterrupt h] at he
    cases he
    exact respond (.refl _ s) rfl
  | isfull =>
    rw [exec, execIsfull, accept_of_atInterrupt h rfl, context_of_atInterrupt h] at he
    cases he
    exact respond (.refl _ s) rfl
  | txdone =>
    rw [exec, execTxdone, accept_of_atInterrupt h rfl] at he
    split at he
    · cases he
      exact respond (.flag _ s .spurious) rfl
    · obtain ⟨u, hu, he⟩ := andThen_eq_next.mp he
      cases he
      exact respond (completeUnit_interruptKeeps _ hu) rfl
  | rxbyte b =>
    rw [exec, execRxbyte, accept_of_atInterrupt h rfl] at he
    split at he
    · cases he
      exact respond (.refl _ s) rfl
    · obtain ⟨u, hu, he⟩ := andThen_eq_next.mp he
      cases he
      have hk := push_interruptKeeps (i := .rxbyte b) (.inr rfl) hu
      exact respond (u := State.emit { u with rxArmed := true } .armRx) ⟨hk.owned, hk.seqI, hk.rxStore⟩ rfl
  | rxfault =>
    rw [exec, execRxfault, accept_of_atInterrupt h rfl] at he
    split at he
    · cases he
      exact respond (.refl _ s) rfl
    · cases he
      exact respond (u := rxFault s) ⟨.refl s, rfl, .inl rfl⟩ rfl
  | txfault =>
    rw [exec, execTxfault, accept_of_atInterrupt h rfl] at he
    split at he
    · cases he
      exact respond (.flag _ s .spurious) rfl
    · obtain ⟨u, hu, he⟩ := andThen_eq_next.mp he
      cases he
      have hk := completeUnit_interruptKeeps .txfault hu
      exact respond ⟨hk.owned, hk.seqI, hk.rxStore⟩ rfl
  | rdcsr a =>
    rw [exec, execRdcsr, accept_of_atInterrupt h rfl] at he
    cases he
    exact respond (.refl _ s) rfl
  | _ => simp [Instr.opcode, Opcode.allowedOn] at ha

end InterruptKeeps

/-- Settles O52: the response of port I adds nothing to what `exec_interrupt_keeps` allows. -/
theorem interruptContextOwnership : Obligations.InterruptContextOwnership := by
  intro i s t h he
  obtain ⟨u, r, rfl, hkeeps⟩ := exec_interrupt_keeps h he
  exact hkeeps.owned

/-! ### The error flags are sticky (R32, R42) -/

theorem InterruptEffect.errflags {s t : State} (h : InterruptEffect s t) : s.errflags ||| t.errflags = t.errflags := by
  obtain ⟨m, c, tr, b, x, rfl, -⟩ := h
  exact or_absorb_or s.errflags m

/-- Settles O54: every effect of port I sets bits only, and so does `MainKeeps` on port M. -/
theorem errorFlagsAreSticky : Obligations.ErrorFlagsAreSticky := by
  intro s t
  constructor
  · intro i hc hport hi he
    rcases hport with hmain | hint
    · exact (exec_main_keeps hc hmain hi he).1.errflags
    · obtain ⟨u, r, hu, heffect, -⟩ := exec_interrupt (i := i) hc hint
      cases he.symm.trans hu
      exact heffect.errflags
  · intro hs hi he
    exact (resumeMain_keeps hs hi he).1.errflags

/-! ### Which spaces an operation of port M may store in (R20, R67) -/

/-- May an operation of port M at this position still run an enqueue? All may but ISEMPTY, ISFULL and POP. -/
def SeqM.mayEnqueue : SeqM → Bool
  | .idle | .isEmptyA | .isEmptyB _ | .isFullA | .isFullB _ | .popA .pop | .popB .pop _ | .popC .pop _ => false
  | .popA (.poll _) | .popB (.poll _) _ | .popC (.poll _) _ | .pollFeed _ _ | .tickA _ => true
  | .enq0 _ _ | .enqA _ _ _ _ | .enqB _ _ _ _ _ | .enqD _ _ _ _ => true

/-- May an operation of port M at this position store in the space, now or later? -/
def SeqM.mayStore (p : SeqM) : Space → Bool
  | .rxs => false
  | .lfb => p.inPoll
  | .txs => p.mayEnqueue

/-- Is the enqueue run by a POLL? -/
def EnqCaller.isPoll : EnqCaller → Bool
  | .poll _ => true
  | .enq | .tick _ => false

section Spaces
variable {s t : State} {c : EnqCaller} {len count next : Nat} {bs rest : List Byte} {b : Bool} {st : Byte}

@[simp] theorem SeqM.inPoll_enq0 : (SeqM.enq0 c bs).inPoll = c.isPoll := by cases c <;> rfl
@[simp] theorem SeqM.inPoll_enqA : (SeqM.enqA c len count rest).inPoll = c.isPoll := by cases c <;> rfl
@[simp] theorem SeqM.inPoll_enqB : (SeqM.enqB c len count next rest).inPoll = c.isPoll := by cases c <;> rfl
@[simp] theorem SeqM.inPoll_enqD : (SeqM.enqD c len count b).inPoll = c.isPoll := by cases c <;> rfl

theorem SeqM.inPoll_of_not_mayEnqueue {p : SeqM} (h : p.mayEnqueue = false) : p.inPoll = false := by
  cases p with
  | popA c => cases c with | pop => rfl | poll l => cases h
  | popB c w => cases c with | pop => rfl | poll l => cases h
  | popC c v => cases c with | pop => rfl | poll l => cases h
  | idle | isEmptyA | isEmptyB | isFullA | isFullB => rfl
  | pollFeed | tickA | enq0 | enqA | enqB | enqD => cases h

/-! An enqueue that no POLL runs stays one, or ends the operation. -/

theorem enqueueEnd_not_inPoll (hI : s.seqI = .idle) (hc : c.isPoll = false) :
    (enqueueEnd c st count s).seqM.inPoll = false := by
  cases c with
  | enq => rw [enqueueEnd, respond_of_idle hI]; rfl
  | tick now => rw [enqueueEnd, respond_of_idle (by exact hI)]; rfl
  | poll l => cases hc

theorem enqueueFinish_not_inPoll (hI : s.seqI = .idle) (hc : c.isPoll = false) :
    (enqueueFinish c len count s).seqM.inPoll = false := by
  unfold enqueueFinish
  split
  · exact enqueueEnd_not_inPoll hI hc
  · exact enqueueEnd_not_inPoll (s := s.flag .txpartial) hI hc

theorem enqueueTop_not_inPoll (hc : c.isPoll = false) (h : enqueueTop c len count rest s = .next t) :
    t.seqM.inPoll = false := by
  unfold enqueueTop at h
  split at h
  · cases h
    exact SeqM.inPoll_enqD.trans hc
  · split at h
    · cases h
      exact SeqM.inPoll_enqD.trans hc
    · obtain ⟨u, -, h⟩ := andThen_eq_next.mp h
      cases h
      exact SeqM.inPoll_enqB.trans hc

theorem enqueue_not_inPoll (hI : s.seqI = .idle) (hc : c.isPoll = false) (h : enqueue c bs s = .next t) :
    t.seqM.inPoll = false := by
  unfold enqueue at h
  split at h
  · cases h
    exact enqueueEnd_not_inPoll (s := s.flag .txbusy) hI hc
  · exact enqueueTop_not_inPoll hc h

theorem enqueueStart_not_inPoll (hI : s.seqI = .idle) (hc : c.isPoll = false)
    (h : enqueueStart c len count b s = .next t) : t.seqM.inPoll = false := by
  unfold enqueueStart at h
  split at h
  · obtain ⟨u, hu, h⟩ := andThen_eq_next.mp h
    cases h
    exact enqueueFinish_not_inPoll (by rw [issueUnit_next hu]; exact hI) hc
  · cases h
    exact enqueueFinish_not_inPoll hI hc

/-! One action. -/

/-- An action of ISEMPTY, ISFULL or POP stores nothing, and the next action is one too. -/
theorem mainAction_readOnly (hI : s.seqI = .idle) (hp : s.seqM.mayEnqueue = false) (h : mainAction s = .next t) :
    t.seqM.mayEnqueue = false ∧ t.lfBuf = s.lfBuf ∧ t.txStore = s.txStore := by
  have respond : ∀ r, (s.respond r).seqM.mayEnqueue = false ∧ (s.respond r).lfBuf = s.lfBuf ∧
      (s.respond r).txStore = s.txStore := fun r => by
    rw [respond_of_idle hI]
    exact ⟨rfl, rfl, rfl⟩
  unfold mainAction at h
  cases hs : s.seqM with
  | idle => rw [hs] at h; cases h; exact ⟨hp, rfl, rfl⟩
  | isEmptyA => rw [hs] at h; cases h; exact ⟨rfl, rfl, rfl⟩
  | isEmptyB w => rw [hs] at h; cases h; exact respond _
  | isFullA => rw [hs] at h; cases h; exact ⟨rfl, rfl, rfl⟩
  | isFullB w => rw [hs] at h; cases h; exact respond _
  | popA c =>
    cases c with
    | pop => rw [hs] at h; cases h; exact ⟨rfl, rfl, rfl⟩
    | poll l => rw [hs] at hp; cases hp
  | popB c w =>
    cases c with
    | pop =>
      rw [hs] at h
      simp only [popRead] at h
      split at h
      · cases h; exact respond _
      · obtain ⟨v, -, h⟩ := andThen_eq_next.mp h
        cases h
        exact ⟨rfl, rfl, rfl⟩
    | poll l => rw [hs] at hp; cases hp
  | popC c v =>
    cases c with
    | pop =>
      rw [hs] at h
      cases h
      rw [popAdvance, respond_of_idle (by exact hI)]
      exact ⟨rfl, rfl, rfl⟩
    | poll l => rw [hs] at hp; cases hp
  | pollFeed | tickA | enq0 | enqA | enqB | enqD => rw [hs] at hp; cases hp

/-- Only a POLL touches the line buffer. -/
theorem mainAction_line (hc : Consistent s) (hI : s.seqI = .idle) (hp : s.seqM.inPoll = false)
    (h : mainAction s = .next t) : t.seqM.inPoll = false ∧ t.lfBuf = s.lfBuf := by
  have hok := hc.seq_ok
  cases hq : s.seqM.mayEnqueue with
  | false =>
    obtain ⟨hq', hbuf, -⟩ := mainAction_readOnly hI hq h
    exact ⟨SeqM.inPoll_of_not_mayEnqueue hq', hbuf⟩
  | true =>
    unfold mainAction at h
    cases hs : s.seqM with
    | popA c => cases c <;> simp [hs, SeqM.mayEnqueue, SeqM.inPoll] at hq hp
    | popB c w => cases c <;> simp [hs, SeqM.mayEnqueue, SeqM.inPoll] at hq hp
    | popC c v => cases c <;> simp [hs, SeqM.mayEnqueue, SeqM.inPoll] at hq hp
    | idle | isEmptyA | isEmptyB | isFullA | isFullB => rw [hs] at hq; cases hq
    | pollFeed => rw [hs] at hp; cases hp
    | tickA now =>
      rw [hs] at h
      simp only [tickStart] at h
      split at h
      · obtain ⟨u, hu, -, hE⟩ := enqueue_step hc hI (by simp [hs, SeqM.inEnqueue]) (.tick now) s.cfg.statusMsg
        cases hu.symm.trans h
        exact ⟨enqueue_not_inPoll hI rfl h, hE.lf.1⟩
      · cases h
        rw [respond_of_idle hI]
        exact ⟨rfl, rfl⟩
    | enq0 c bytes =>
      rw [hs] at h hp
      obtain ⟨u, hu, -, hE⟩ := enqueue_step hc hI (by simp [hs, SeqM.inEnqueue]) c bytes
      cases hu.symm.trans h
      exact ⟨enqueue_not_inPoll hI (SeqM.inPoll_enq0.symm.trans hp) h, hE.lf.1⟩
    | enqA c len count rest =>
      rw [hs] at h hp hok
      obtain ⟨u, hu, -, hE⟩ := enqueueTop_step hc (c := c) hok.1 hok.2
      cases hu.symm.trans h
      exact ⟨enqueueTop_not_inPoll (SeqM.inPoll_enqA.symm.trans hp) h, hE.lf.1⟩
    | enqB c len count next rest =>
      rw [hs] at h hp
      cases h
      exact ⟨SeqM.inPoll_enqA.trans (SeqM.inPoll_enqB.symm.trans hp), rfl⟩
    | enqD c len count b =>
      rw [hs] at h hp
      obtain ⟨u, hu, -, hE⟩ := enqueueStart_step hc hI hs
      cases hu.symm.trans h
      exact ⟨enqueueStart_not_inPoll hI (SeqM.inPoll_enqD.symm.trans hp) h, hE.lf.1⟩

/-- An action leaves alone a space its operation may not store in, and comes to no position from which it may. -/
theorem mainAction_store_eq (hc : Consistent s) (hI : s.seqI = .idle) (hF : MainFrame s t) (h : mainAction s = .next t)
    (sp : Space) (hp : s.seqM.mayStore sp = false) : t.seqM.mayStore sp = false ∧ t.store sp = s.store sp := by
  cases sp with
  | rxs => exact ⟨rfl, hF.rxStore⟩
  | lfb => exact mainAction_line hc hI hp h
  | txs =>
    obtain ⟨hq, -, hst⟩ := mainAction_readOnly hI hp h
    exact ⟨hq, hst⟩

theorem PortOnly.store (h : PortOnly s t) (sp : Space) : t.store sp = s.store sp := by rw [h]; cases sp <;> rfl

/-- An operation of port M leaves alone a space it may not store in. -/
theorem resumeMain_store_eq (hs : Inv s) (hi : s.seqM.isIdle = false) (he : resumeMain s = .next t) {sp : Space}
    (hp : s.seqM.mayStore sp = false) : t.store sp = s.store sp := by
  obtain ⟨hc, hI⟩ := hs
  obtain ⟨u, hu, ⟨-, hst⟩, -⟩ :=
    resumeMain_induction (P := fun u => u.seqM.mayStore sp = false ∧ u.store sp = s.store sp) hc hI hi
      (start := ⟨hp, rfl⟩)
      (port := fun y z hyz ⟨hq, hst⟩ => ⟨by rw [hyz]; exact hq, (hyz.store sp).trans hst⟩)
      (action := fun y z ⟨hq, hst⟩ hcy hIy _ hz hstep _ =>
        have ⟨hq', hst'⟩ := mainAction_store_eq hcy hIy hstep.frame hz sp hq
        ⟨hq', hst'.trans hst⟩)
  cases he.symm.trans hu
  exact hst

end Spaces

/-! ### The free slots of the TX queue (R24, R69, R162) -/

section Free
variable {s t u : State} {k : Nat}

theorem State.mem_txFree : k ∈ s.txFree ↔ ∃ j < s.cfg.T - 1 - s.txCount, addIdx s.cfg.T s.txW j = k := by
  simp [State.txFree, ringSlots]

theorem State.txFree_congr (hc : t.cfg = s.cfg) (hw : t.txW = s.txW) (hr : t.txR = s.txR) : t.txFree = s.txFree := by
  simp only [State.txFree, State.txCount, hc, hw, hr]

/-- When the queue is not full, the slot `tx_w` names is free. -/
theorem Consistent.txW_mem_txFree (h : Consistent s) (hne : incIdx s.cfg.T s.txW ≠ s.txR) : s.txW ∈ s.txFree := by
  refine State.mem_txFree.mpr ⟨0, ?_, addIdx_zero h.txW_lt⟩
  have hcount := h.txCount_lt
  rw [Ne, incIdx_eq_iff h.txW_lt h.txR_lt] at hne
  unfold State.txCount at *
  omega

/-- Between two states of an operation of port M: it stores in slots that were free, and frees none (only port I does). -/
structure StoresFree (s t : State) : Prop where
  free : ∀ k ∈ t.txFree, k ∈ s.txFree
  read : ∀ k, k ∉ s.txFree → t.txStore.read k = s.txStore.read k

theorem StoresFree.refl (s : State) : StoresFree s s := ⟨fun _ h => h, fun _ _ => rfl⟩

theorem StoresFree.trans (h : StoresFree s t) (g : StoresFree t u) : StoresFree s u :=
  ⟨fun k hk => h.free k (g.free k hk), fun k hk => (g.read k fun ht => hk (h.free k ht)).trans (h.read k hk)⟩

theorem PortOnly.storesFree (h : PortOnly s t) : StoresFree s t := by rw [h]; exact ⟨fun _ h => h, fun _ _ => rfl⟩

/-- An action writes the slot `tx_w` names, which is free because the byte can then be published, or publishes it. -/
theorem ActionEffect.storesFree (he : ActionEffect s t) (hc : Consistent s) (ht : Consistent t) (hF : MainFrame s t) :
    StoresFree s t := by
  rcases he.tx with ⟨hst, hw, -⟩ | ⟨b, hst, hw, c, len, count, next, rest, hp⟩ | ⟨-, hne, hst, hw, -⟩
  · exact ⟨fun k hk => State.txFree_congr hF.cfg hw hF.txR ▸ hk, fun k _ => by rw [hst]⟩
  · have hfree : t.txFree = s.txFree := State.txFree_congr hF.cfg hw hF.txR
    obtain ⟨-, rfl, hne, -⟩ : SeqM.ok (.enqB c len count next rest) t := hp ▸ ht.seq_ok
    have hmem : s.txW ∈ s.txFree := by
      rw [← hfree, ← hw]
      exact ht.txW_mem_txFree hne
    refine ⟨fun k hk => hfree ▸ hk, fun k hk => ?_⟩
    rw [hst]
    exact Memory.read_write_other fun h => hk (h ▸ hmem)
  · refine ⟨fun k hk => ?_, fun k _ => by rw [hst]⟩
    obtain ⟨j, hj, rfl⟩ := State.mem_txFree.mp hk
    have hcount := distIdx_inc_write hc.txW_lt hc.txR_lt hne
    refine State.mem_txFree.mpr ⟨1 + j, ?_, ?_⟩
    · simp only [State.txCount, hF.cfg, hw, hF.txR] at hj ⊢
      omega
    · rw [hF.cfg, hw, incIdx_eq_addIdx hc.txW_lt, addIdx_addIdx]

/-- An operation of port M stores in the free slots of `tx_store` alone. -/
theorem resumeMain_storesFree (hs : Inv s) (hi : s.seqM.isIdle = false) (he : resumeMain s = .next t) :
    StoresFree s t := by
  obtain ⟨hc, hI⟩ := hs
  obtain ⟨u, hu, hfree, -⟩ :=
    resumeMain_induction (P := StoresFree s) hc hI hi
      (start := .refl s)
      (port := fun y z hyz h => h.trans hyz.storesFree)
      (action := fun y z h hcy _ _ _ hstep heff => h.trans (heff.storesFree hcy hstep.consistent hstep.frame))
  cases he.symm.trans hu
  exact hfree

/-- What an operation of port M begun or resumed leaves as it was: the slots of the spaces it may not store in, and the slots
of `tx_store` that are not free. -/
theorem resumeMain_read {sp : Space} (hs : Inv s) (hi : s.seqM.isIdle = false) (he : resumeMain s = .next t)
    (hk : s.seqM.mayStore sp = true → sp = .txs ∧ k ∉ s.txFree) : (t.store sp).read k = (s.store sp).read k := by
  cases hp : s.seqM.mayStore sp with
  | false => rw [resumeMain_store_eq hs hi he hp]
  | true =>
    obtain ⟨rfl, hfree⟩ := hk hp
    exact (resumeMain_storesFree hs hi he).read k hfree

end Free

/-! ### Where a command begun on port M, or one of port I, may store -/

section Begun
variable {s t : State} {i : Instr} {p : SeqM} {sp : Space} {k : Nat}

/-- The position at which port M begins an operation of several actions. -/
def mainEntry : Instr → Option SeqM
  | .pop => some (.popA .pop)
  | .isempty => some .isEmptyA
  | .isfull => some .isFullA
  | .enq bytes => some (.enq0 .enq bytes)
  | .poll => some (.popA (.poll ⟨0, 0, 0#8⟩))
  | .tick now => some (.tickA now)
  | .push _ | .feed _ | .txdone | .rxbyte _ | .rxfault | .txfault | .rdcsr _ | .reset | .start => none

theorem exec_mainEntry (h : AtMain s) (hp : mainEntry i = some p) : exec i s = startMain p s := by
  cases i with
  | pop => cases hp; rw [exec, execPop, accept_of_atMain h rfl]
  | isempty => cases hp; rw [exec, execIsempty, accept_of_atMain h rfl, context_of_atMain h]
  | isfull => cases hp; rw [exec, execIsfull, accept_of_atMain h rfl, context_of_atMain h]
  | enq bytes => cases hp; rw [exec, execEnq, accept_of_atMain h rfl]
  | poll => cases hp; rw [exec, execPoll, accept_of_atMain h rfl]
  | tick now => cases hp; rw [exec, execTick, accept_of_atMain h rfl]
  | push | feed | txdone | rxbyte | rxfault | txfault | rdcsr | reset | start => cases hp

theorem mainEntry_ok (hp : mainEntry i = some p) (x : State) : p.ok x ∧ p.isIdle = false := by
  cases i <;> cases hp <;> exact ⟨trivial, rfl⟩

/-- The positions say no more than `MayStore` does. -/
theorem mainEntry_mayStore (hp : mainEntry i = some p) (hk : ¬ MayStore i s sp k) (h : p.mayStore sp = true) :
    sp = .txs ∧ k ∉ s.txFree := by
  cases i with
  | pop | isempty | isfull => cases hp; cases sp <;> cases h
  | enq bytes | tick now =>
    cases hp
    cases sp with
    | txs => exact ⟨rfl, fun hfree => hk ⟨rfl, hfree⟩⟩
    | rxs | lfb => cases h
  | poll =>
    cases hp
    cases sp with
    | txs => exact ⟨rfl, fun hfree => hk (.inl ⟨rfl, hfree⟩)⟩
    | lfb => exact absurd (.inr rfl) hk
    | rxs => cases h
  | push | feed | txdone | rxbyte | rxfault | txfault | rdcsr | reset | start => cases hp

theorem exec_mainEntry_read (hc : Consistent s) (h : AtMain s) (hp : mainEntry i = some p) (he : exec i s = .next t)
    (hk : ¬ MayStore i s sp k) : (t.store sp).read k = (s.store sp).read k := by
  rw [exec_mainEntry h hp] at he
  obtain ⟨hok, hidle⟩ := mainEntry_ok hp s
  have hinv : Inv (s.goto p) := ⟨hc.goto hok fun _ h0 => hc.empty_of (by rw [h.2]; rfl) h0, h.1⟩
  have hread := resumeMain_read (sp := sp) (k := k) hinv hidle he fun hm => mainEntry_mayStore hp hk hm
  cases sp <;> exact hread

theorem State.store_respond (r : List Byte) : (s.respond r).store sp = s.store sp := by
  unfold State.respond
  cases s.context <;> cases sp <;> rfl

theorem illegalCtx_store : (illegalCtx s).store sp = s.store sp := by
  rw [illegalCtx, State.raise, State.store_respond]
  cases sp <;> rfl

/-- FEED stores in slot `lf_fill` alone. -/
theorem feed_read {b : Byte} {fr : FeedResult} (hc : Consistent s) (hf : feed b s = .next (t, fr))
    (hk : ¬ (sp = .lfb ∧ k = s.lfFill)) : (t.store sp).read k = (s.store sp).read k := by
  obtain ⟨hF, -, -, -, -, -, htxS, -⟩ := feed_frame hc.lfFill_lt hf
  cases sp with
  | rxs => exact congrArg (Memory.read · k) hF.rxStore
  | txs => exact congrArg (Memory.read · k) htxS
  | lfb =>
    have hne : k ≠ s.lfFill := fun h => hk ⟨rfl, h⟩
    rcases feed_cases hc.lfFill_lt (b := b) with ⟨-, he⟩ | ⟨-, -, he⟩ | ⟨-, -, he⟩ | ⟨-, -, -, he⟩ | ⟨-, -, -, he⟩ <;>
      cases hf.symm.trans he
    · rfl
    · exact Memory.read_write_other hne
    · rfl
    · exact Memory.read_write_other hne
    · rfl

/-- A command that port M completes at once. -/
theorem exec_immediate_read (hc : Consistent s) (h : AtMain s) (hp : mainEntry i = none) (he : exec i s = .next t)
    (hk : ¬ MayStore i s sp k) : (t.store sp).read k = (s.store sp).read k := by
  cases i with
  | pop | isempty | isfull | enq | poll | tick => cases hp
  | push | txdone | rxbyte | rxfault | txfault =>
    rw [exec_wrongPort (by simp [h.2, SeqM.isIdle]) (by rw [context_of_atMain h]; rfl)] at he
    cases he
    rw [illegalCtx_store]
  | feed b =>
    rw [exec, execFeed, accept_of_atMain h rfl] at he
    obtain ⟨⟨u, fr⟩, hf, he⟩ := andThen_eq_next.mp he
    cases he
    rw [State.store_respond]
    exact feed_read hc hf hk
  | rdcsr a =>
    rw [exec, execRdcsr, accept_of_atMain h rfl] at he
    cases he
    rw [State.store_respond]
  | reset =>
    rw [exec, execReset, accept_of_atMain h rfl] at he
    cases he
    rw [State.store_respond]
    cases sp <;> rfl
  | start =>
    rw [exec, execStart, accept_of_atMain h rfl] at he
    cases he
    rw [State.store_respond, armReceiver]
    split
    · cases sp <;> rfl
    · rfl

/-- A command of port I stores in slot `rx_w` of `rx_store` alone, and only if it pushes. -/
theorem exec_interrupt_read (h : AtInterrupt s) (he : exec i s = .next t) (hk : ¬ MayStore i s sp k) :
    (t.store sp).read k = (s.store sp).read k := by
  obtain ⟨u, r, rfl, hkeeps⟩ := exec_interrupt_keeps h he
  obtain ⟨-, hbuf, -, -, htxS, -⟩ := hkeeps.owned
  cases sp with
  | lfb => exact congrArg (Memory.read · k) hbuf
  | txs => exact congrArg (Memory.read · k) htxS
  | rxs =>
    rcases hkeeps.rxStore with hst | ⟨b, hi, hst⟩
    · exact congrArg (Memory.read · k) hst
    · have hne : k ≠ s.rxW := fun hw => hk (by rcases hi with rfl | rfl <;> exact ⟨rfl, hw⟩)
      exact (congrArg (Memory.read · k) hst).trans (Memory.read_write_other hne)

end Begun

/-- Settles O59: by port, and on port M by whether the operation takes several actions. -/
theorem storesOnlyTheirSlot : Obligations.StoresOnlyTheirSlot := by
  intro s t
  constructor
  · intro i hc hport he sp k hk
    rcases hport with hmain | hint
    · cases hp : mainEntry i with
      | none => exact exec_immediate_read hc hmain hp he hk
      | some p => exact exec_mainEntry_read hc hmain hp he hk
    · exact exec_interrupt_read hint he hk
  · intro hs hi he sp k htx hlf
    refine resumeMain_read hs hi he fun hm => ?_
    cases sp with
    | rxs => cases hm
    | lfb => exact absurd ⟨rfl, hm⟩ hlf
    | txs => exact ⟨rfl, fun hfree => htx ⟨rfl, hfree⟩⟩

/-! ### A step runs the command at the head of a port (R38, R90, R96) -/

section RunsCommand
variable {s : State} {i : Instr} {rest : List Byte}

theorem decode_code (o : Opcode) (bs : List Byte) : decode (o.code :: bs) = decodeOperands o bs := by
  rw [decode, Opcode.ofByte_code]

/-- The decoder reads the bytes of a well-formed operation as that operation, whatever follows (R91, R92). -/
theorem decode_encode_append (h : i.wf = true) : decode (encode i ++ rest) = .command i rest := by
  rw [encode.eq_def, List.cons_append, decode_code]
  cases i with
  | enq bytes =>
    have hlen : le16 (BitVec.ofNat 8 bytes.length) (BitVec.ofNat 8 (bytes.length / 256)) = bytes.length :=
      le16_of_bytes (of_decide_eq_true h)
    simp [Instr.opcode, decodeOperands, le16Bytes, hlen]
  | tick now => simp [Instr.opcode, decodeOperands, le32Bytes, le32_of_bytes]
  | push | feed | rxbyte | rdcsr | pop | isempty | isfull | txdone | poll | rxfault | txfault | reset | start => rfl

theorem step_portI_command (hI : s.seqI = .idle) (hr : s.arrive.resetIn = false)
    (hd : decode s.arrive.portI = .command i rest) : step s = exec i (s.arrive.beginI rest) := by
  have hsel : selectNext s = .run i (s.arrive.beginI rest) := by simp [selectNext, hI, hr, hd]
  rw [step, hsel]

theorem step_portM_command (hI : s.seqI = .idle) (hM : s.seqM = .idle) (hr : s.arrive.resetIn = false)
    (hn : commandReady s.arrive.portI = false) (hd : decode s.arrive.portM = .command i rest) :
    step s = exec i (s.arrive.beginM rest) := by
  have hidle : s.arrive.seqM.isIdle = true := by rw [arrive_seqM, hM]; rfl
  have hsel : selectNext s = .run i (s.arrive.beginM rest) := by
    simp [selectNext, hI, hr, decode_of_not_ready hn, hidle, hd]
  rw [step, hsel]

end RunsCommand

/-- Settles O6: the decoder reads the command back, and `selectNext` looks at port I first. -/
theorem stepRunsPortI : Obligations.StepRunsPortI := by
  intro s i rest hI hwf hr hport
  exact step_portI_command hI hr (by rw [hport]; exact decode_encode_append hwf)

/-- Settles O7: the decoder reads the command back, and nothing goes before port M. -/
theorem stepRunsPortM : Obligations.StepRunsPortM := by
  intro s i rest hI hM hwf hr hn hport
  exact step_portM_command hI hM hr hn (by rw [hport]; exact decode_encode_append hwf)

/-! ### `STATUS` and the registers (R40, R41) -/

theorem getElem_bitIf (k j : Nat) (b : Bool) (hj : j < 8) : (bitIf k b)[j] = (decide (j = k) && b) := by
  cases b with
  | false => simp [bitIf]
  | true =>
    rw [Bool.eq_iff_iff]
    simp only [bitIf, ↓reduceIte, BitVec.getElem_shiftLeft, BitVec.getElem_one, Bool.and_eq_true, Bool.not_eq_true',
      decide_eq_false_iff_not, decide_eq_true_eq, Bool.and_true]
    omega

theorem status_resetWith {c : Config} (hc : c.wf) : (State.resetWith c).status = 0x05#8 := by
  obtain ⟨⟨hN, -⟩, -, ⟨hT, -⟩, -⟩ := hc
  have hfullN : ringFull c.N 0 0 = false := ringFull_eq_false.mpr (by unfold incIdx; split <;> omega)
  have hfullT : ringFull c.T 0 0 = false := ringFull_eq_false.mpr (by unfold incIdx; split <;> omega)
  simp [State.status, State.resetWith, hfullN, hfullT, ringEmpty, bitIf]

/-- Settles O43: each bit of `STATUS` is one `bitIf` of the disjunction. -/
theorem statusBits : Obligations.StatusBits := by
  refine ⟨fun c hc => status_resetWith hc, fun s => ?_⟩
  simp [State.status, getElem_bitIf, ringEmpty, ringFull]

/-- Settles O12: every register by its definition, `STATUS` by `status_resetWith`. -/
theorem resetValues : Obligations.ResetValues := by
  intro c hc
  refine ⟨rfl, rfl, rfl, rfl, rfl, rfl, rfl, rfl, rfl, rfl, rfl, rfl, rfl, rfl, rfl, rfl, status_resetWith hc, ?_, ?_⟩
  · intro sp k
    cases sp <;> rfl
  · intro sp k
    cases sp <;> rfl

/-- Everything is empty, and the legal capacities are at least 2. -/
theorem inv_resetWith {c : Config} (hc : c.wf) : Inv (State.resetWith c) := by
  have ⟨⟨hN, _⟩, ⟨hM, _⟩, ⟨hT, _⟩, _⟩ := hc
  have hmem : ∀ X, Memory.wf [] ∧ Memory.below X [] := fun X => ⟨.nil, by simp⟩
  refine ⟨⟨hc, ?_, ?_, ?_, ?_, ?_, hmem _, hmem _, hmem _, ?_, ?_, ?_, ?_, ?_, trivial⟩, rfl⟩ <;>
    simp [State.resetWith] <;> omega

theorem written_resetWith (c : Config) : Written (State.resetWith c) := .of_empty rfl rfl rfl rfl rfl rfl

/-- Settles O46: `inv_resetWith` and `written_resetWith`; the default parameters are legal. -/
theorem resetMeetsInvariant : Obligations.ResetMeetsInvariant :=
  ⟨fun c hc => ⟨inv_resetWith hc, written_resetWith c⟩, inv_resetWith (by decide), written_resetWith _⟩

section Rdcsr
variable {s : State} {a : Byte} {v : Word32}

theorem csrResponse_of_csr (h : s.csr a = some v) :
    csrResponse s a = [0x00#8, v.extractLsb' 0 8, v.extractLsb' 8 8, v.extractLsb' 16 8, v.extractLsb' 24 8] := by
  rw [csrResponse, h]
  rfl

theorem exec_rdcsr_atInterrupt (h : AtInterrupt s) : exec (.rdcsr a) s = .next (s.respondI (csrResponse s a)) := by
  rw [exec, execRdcsr, accept_of_atInterrupt h rfl, respond_of_executing h]

theorem exec_rdcsr_atMain (h : AtMain s) : exec (.rdcsr a) s = .next (s.respondM (csrResponse s a)) := by
  rw [exec, execRdcsr, accept_of_atMain h rfl, respond_of_idle h.1]

theorem csr_lfState : s.csr 0x03#8 = some (if s.lfState = .overflowed then 1#32 else 0#32) := by
  cases h : s.lfState <;> simp [State.csr, h]

theorem csr_tip : s.csr 0x06#8 = some (if s.tip then 1#32 else 0#32) := by
  cases h : s.tip <;> simp [State.csr, h]

theorem csr_rxArmed : s.csr 0x0C#8 = some (if s.rxArmed then 1#32 else 0#32) := by
  cases h : s.rxArmed <;> simp [State.csr, h]

theorem csr_cfgMode : s.csr 0x14#8 = some
    ((if s.cfg.txMode = .bulk then 1#32 else 0#32) + (if s.cfg.dispatchMode = .command then 2#32 else 0#32)) := by
  cases hx : s.cfg.txMode <;> cases hd : s.cfg.dispatchMode <;> simp [State.csr, cfgMode, bitIf, hx, hd]

end Rdcsr

/-- Settles O41: the register map gives the value listed, one case a register; RDCSR then answers its bytes. -/
theorem rdcsrReadsEachRegister : Obligations.RdcsrReadsEachRegister := by
  intro s a v hav
  have hcsr : s.csr a = some v := by
    simp only [List.mem_cons, List.not_mem_nil, or_false, Prod.mk.injEq] at hav
    rcases hav with ⟨rfl, rfl⟩ | ⟨rfl, rfl⟩ | ⟨rfl, rfl⟩ | ⟨rfl, rfl⟩ | ⟨rfl, rfl⟩ | ⟨rfl, rfl⟩ | ⟨rfl, rfl⟩ |
      ⟨rfl, rfl⟩ | ⟨rfl, rfl⟩ | ⟨rfl, rfl⟩ | ⟨rfl, rfl⟩ | ⟨rfl, rfl⟩ | ⟨rfl, rfl⟩ | ⟨rfl, rfl⟩ | ⟨rfl, rfl⟩ |
      ⟨rfl, rfl⟩ | ⟨rfl, rfl⟩ | ⟨rfl, rfl⟩ | ⟨rfl, rfl⟩
    exacts [rfl, rfl, rfl, csr_lfState, rfl, rfl, csr_tip, rfl, rfl, rfl, rfl, rfl, csr_rxArmed, rfl, rfl, rfl, rfl,
      csr_cfgMode, rfl]
  have hresp := csrResponse_of_csr hcsr
  refine ⟨fun h => ?_, fun h => ?_⟩
  · rw [exec_rdcsr_atInterrupt h, hresp]
    rfl
  · rw [exec_rdcsr_atMain h, hresp, State.respondM, ← h.2]

end Sys2Proof.Machine

namespace Sys2Proof.Machine

/-! ### Storage (R68) -/

/-- Settles O58, by the laws of a storage array: one for each conjunct. -/
theorem storageLaws : Obligations.StorageLaws := fun _ _ _ _ =>
  ⟨Memory.read_write_same, fun _ hj => Memory.read_write_other hj, Memory.wf_write, Memory.ext_of_read⟩

/-! ### No step stops (R64, R68, R240, R242) -/

/-- Settles O48: in every case of a step the storage accesses are in range and the sequencers free, which is what
`step_next_inv` says of its next state. -/
theorem stepNeverStops : Obligations.StepNeverStops := by
  intro s hs
  obtain ⟨t, ht, -⟩ := step_next_inv hs
  exact ⟨t, ht⟩

/-! ### The bytes in a ring, oldest first (R24, R69) -/

/-- The bytes that the storage array `m` of space `sp` holds between the indices of a ring, oldest first. -/
def ringBytes (sp : Space) (m : Memory) (X w r : Nat) : List Byte :=
  (ringSlots X r (distIdx X w r)).map fun i => (m.read i).getD (Config.freeByte sp i)

theorem State.rxContents_eq (s : State) : s.rxContents = ringBytes .rxs s.rxStore s.cfg.N s.rxW s.rxR := rfl

theorem State.txContents_eq (s : State) : s.txContents = ringBytes .txs s.txStore s.cfg.T s.txW s.txR := rfl

section RingBytes
variable {sp : Space} {m : Memory} {X w r n : Nat} {v : Byte}

theorem ringBytes_empty : ringBytes sp m X w w = [] := by simp [ringBytes, ringSlots, distIdx]

/-- The slot at the write index holds no byte of the ring, so writing it overwrites none. -/
theorem ringBytes_write (hw : w < X) (hr : r < X) : ringBytes sp (m.write w v) X w r = ringBytes sp m X w r :=
  List.map_congr_left fun _ hi => by rw [Memory.read_write_other (ne_write_of_mem_ringSlots hw hr hi)]

/-- The write index moves on: the byte in its slot stands behind the others. -/
theorem ringBytes_publish (hw : w < X) (hr : r < X) (hne : incIdx X w ≠ r) :
    ringBytes sp m X (incIdx X w) r = ringBytes sp m X w r ++ [(m.read w).getD (Config.freeByte sp w)] := by
  simp only [ringBytes, ringSlots_snoc hw hr hne, List.map_append, List.map_cons, List.map_nil]

/-- A byte is written and published. -/
theorem ringBytes_push (hw : w < X) (hr : r < X) (hne : incIdx X w ≠ r) :
    ringBytes sp (m.write w v) X (incIdx X w) r = ringBytes sp m X w r ++ [v] := by
  rw [ringBytes_publish hw hr hne, ringBytes_write hw hr, Memory.read_write_same, Option.getD_some]

/-- The read index moves on: the oldest bytes are gone. -/
theorem ringBytes_release (hw : w < X) (hr : r < X) (hn : n ≤ distIdx X w r) :
    ringBytes sp m X w (addIdx X r n) = (ringBytes sp m X w r).drop n := by
  simp only [ringBytes, ringSlots_drop hw hr hn, List.map_drop]

end RingBytes

/-! ### What leaves both rings alone -/

/-- The storage arrays and the indices of both rings are the same in both states. -/
structure SameRings (s t : State) : Prop where
  cfg : t.cfg = s.cfg
  rxStore : t.rxStore = s.rxStore
  rxW : t.rxW = s.rxW
  rxR : t.rxR = s.rxR
  txStore : t.txStore = s.txStore
  txW : t.txW = s.txW
  txR : t.txR = s.txR

section Rings
variable {s t : State} {i : Instr}

theorem SameRings.rxContents (h : SameRings s t) : t.rxContents = s.rxContents :=
  rxContents_congr h.cfg h.rxStore h.rxW h.rxR

theorem SameRings.txContents (h : SameRings s t) : t.txContents = s.txContents :=
  txContents_congr h.cfg h.txStore h.txW h.txR

theorem SameRings.refl (s : State) : SameRings s s := by constructor <;> rfl
theorem SameRings.flag (s : State) (f : ErrFlag) : SameRings s (s.flag f) := by constructor <;> rfl
theorem SameRings.goto (s : State) (p : SeqM) : SameRings s (s.goto p) := by constructor <;> rfl
theorem SameRings.respondI (s : State) (r : List Byte) : SameRings s (s.respondI r) := by constructor <;> rfl
theorem SameRings.respondM (s : State) (r : List Byte) : SameRings s (s.respondM r) := by constructor <;> rfl

/-- The reset input does to the rings what RESET does (R220). -/
theorem SameRings.hardwareReset (s : State) : SameRings s.resetRegisters s.hardwareReset := by constructor <;> rfl

theorem PortOnly.sameRings (h : PortOnly s t) : SameRings s t := by
  rw [h]
  constructor <;> rfl

theorem SameRings.armReceiver (s : State) : SameRings s (armReceiver s) := by
  unfold Machine.armReceiver
  split
  · constructor <;> rfl
  · exact .refl s

/-- A command of port M that completes at once leaves both rings alone, or is RESET. -/
theorem DirectEffect.sameRings (hc : Consistent s) (h : DirectEffect i s t) : SameRings s t ∨ t = s.resetRegisters := by
  rcases h with rfl | ⟨f, rfl⟩ | ⟨-, rfl⟩ | ⟨-, rfl⟩ | ⟨b, fr, -, hf⟩
  · exact .inl (.refl t)
  · exact .inl (.flag s f)
  · exact .inr rfl
  · exact .inl (.armReceiver s)
  · obtain ⟨hF, hrxR, -, -, -, htxW, htxStore, -⟩ := feed_frame hc.lfFill_lt hf
    exact .inl ⟨hF.cfg, hF.rxStore, hF.rxW, hrxR, htxStore, htxW, hF.txR⟩

/-! ### What a step does to the bytes of a ring -/

/-- `step_relation` for the bytes `C` of a ring: `Q` is what the actions of a port-M operation do to them, one after another,
and `P` what a whole step does, which may also be a command of port I, or a reset that empties the ring. -/
theorem step_contents {C : State → List Byte} {P Q : List Byte → List Byte → Prop} (hs : Inv s) (ht : step s = .next t)
    (same : ∀ x y, SameRings x y → C y = C x) (reset : ∀ x : State, C x.resetRegisters = [])
    (nil : ∀ l, P l []) (sub : ∀ l l', Q l l' → P l l') (refl : ∀ l, Q l l)
    (trans : ∀ l l' l'', Q l l' → Q l' l'' → Q l l'')
    (interrupt : ∀ x u, Consistent x → InterruptEffect x u → P (C x) (C u))
    (action : ∀ x y, Consistent x → MainFrame x y → ActionEffect x y → Q (C x) (C y)) : P (C s) (C t) := by
  have hport : ∀ x y, PortOnly x y → C y = C x := fun x y hp => same x y hp.sameRings
  obtain ⟨u, hu, -, hP⟩ :=
    step_relation (P := fun x y => P (C x) (C y)) (Q := fun x y => Q (C x) (C y)) hs
      (QP := fun _ _ h => sub _ _ h)
      (hw := fun x _ => by
        rw [same _ _ (.hardwareReset x), reset]
        exact nil _)
      (port := fun x y _ hp h => by rwa [← hport x y hp])
      (portQ := fun x y _ hp h => by rwa [← hport x y hp])
      (port' := fun _ y z hp h => by rwa [hport y z hp])
      (refl := fun _ => refl _)
      (intr := fun x u r hc he => by
        rw [same _ _ (.respondI u r)]
        exact interrupt x u hc he)
      (direct := fun i x u r hc _ he => by
        rw [same _ _ (.respondM u r)]
        rcases DirectEffect.sameRings (i := i) hc he with h | rfl
        · rw [same x u h]
          exact sub _ _ (refl _)
        · rw [reset]
          exact nil _)
      (begin := fun x p _ _ => by
        rw [same _ _ (.goto x p)]
        exact refl _)
      (main := fun x y z h hc _ _ _ hm he => trans _ _ _ h (action y z hc hm.frame he))
  cases ht.symm.trans hu
  exact hP

/-! ### The RX ring: port I adds at the end, port M takes the oldest -/

/-- A command of port I adds at most one byte, at the end (R121). -/
theorem InterruptEffect.rxContents (h : InterruptEffect s t) (hc : Consistent s) :
    t.rxContents = s.rxContents ∨ ∃ b, t.rxContents = s.rxContents ++ [b] := by
  obtain ⟨m, c, tr, a, x, rfl, hx⟩ := h
  rcases hx with rfl | ⟨v, hfull, hw, rfl⟩ | ⟨-, -, hx⟩
  · exact .inl rfl
  · exact .inr ⟨v, ringBytes_push hw hc.rxR_lt (ringFull_eq_false.mp hfull)⟩
  · rw [completeUnit_frame hx]
    exact .inl rfl

/-- An action of port M takes at most the oldest byte (R123). -/
theorem ActionEffect.rxContents (h : ActionEffect s t) (hc : Consistent s) (hF : MainFrame s t) :
    t.rxContents <:+ s.rxContents := by
  rcases h.rx with hr | ⟨hne, hr⟩
  · rw [rxContents_congr hF.cfg hF.rxStore hF.rxW hr]
  · rw [State.rxContents_eq, hF.cfg, hF.rxStore, hF.rxW, hr, incIdx_eq_addIdx hc.rxR_lt,
      ringBytes_release hc.rxW_lt hc.rxR_lt (Nat.pos_of_ne_zero fun h0 => hne (hc.rxCount_eq_zero.mp h0))]
    exact List.drop_suffix ..

/-! ### The TX queue: port M adds at the end, port I releases the oldest -/

/-- A command of port I releases at most the bytes of the unit in flight, which are the oldest (R170, R231). -/
theorem InterruptEffect.txContents (h : InterruptEffect s t) (hc : Consistent s) : t.txContents <:+ s.txContents := by
  obtain ⟨m, c, tr, a, x, rfl, hx⟩ := h
  rcases hx with rfl | ⟨v, -, -, rfl⟩ | ⟨-, hT, hx⟩
  · exact List.suffix_refl _
  · exact List.suffix_refl _
  · rw [completeUnit_frame_of_pos hT hx, State.txContents_eq, State.txContents_eq]
    have hrelease := ringBytes_release (sp := .txs) (m := s.txStore) hc.txW_lt hc.txR_lt hc.unit_le
    exact hrelease ▸ List.drop_suffix ..

/-- An action of port M writes outside the queued bytes, or publishes the byte it wrote, at the end (R161). -/
theorem ActionEffect.txContents (h : ActionEffect s t) (hc : Consistent s) (hF : MainFrame s t) :
    s.txContents <+: t.txContents := by
  rw [State.txContents_eq t, hF.cfg, hF.txR]
  rcases h.tx with ⟨hst, hw, -⟩ | ⟨b, hst, hw, -⟩ | ⟨-, hne, hst, hw, -⟩ <;> rw [hst, hw]
  · exact List.prefix_refl _
  · rw [ringBytes_write hc.txW_lt hc.txR_lt]
    exact List.prefix_refl _
  · rw [ringBytes_publish hc.txW_lt hc.txR_lt hne]
    exact List.prefix_append ..

end Rings

/-- Settles O50: actions of port M leave a suffix of the bytes, a command of port I adds at most one, resets leave none. -/
theorem rxFifoAtEveryStep : Obligations.RxFifoAtEveryStep := by
  intro s t hs ht
  have hfifo : t.rxContents <:+ s.rxContents ∨ ∃ b, t.rxContents = s.rxContents ++ [b] :=
    step_contents (P := fun l l' => l' <:+ l ∨ ∃ b, l' = l ++ [b]) (Q := fun l l' => l' <:+ l) hs ht
      (same := fun _ _ h => h.rxContents)
      (reset := fun _ => ringBytes_empty)
      (nil := fun _ => .inl List.nil_suffix)
      (sub := fun _ _ h => .inl h)
      (refl := List.suffix_refl)
      (trans := fun _ _ _ h g => g.trans h)
      (interrupt := fun _ _ hc he => (he.rxContents hc).imp_left fun h => by rw [h])
      (action := fun _ _ hc hF he => he.rxContents hc hF)
  exact hfifo.imp_left fun h => ⟨_, List.suffix_iff_eq_drop.mp h⟩

/-- Settles O51: actions of port M add at the end, a command of port I and resets leave a suffix of the bytes. -/
theorem txFifoAtEveryStep : Obligations.TxFifoAtEveryStep := by
  intro s t hs ht
  have hfifo : t.txContents <:+ s.txContents ∨ s.txContents <+: t.txContents :=
    step_contents (P := fun l l' => l' <:+ l ∨ l <+: l') (Q := fun l l' => l <+: l') hs ht
      (same := fun _ _ h => h.txContents)
      (reset := fun _ => ringBytes_empty)
      (nil := fun _ => .inl List.nil_suffix)
      (sub := fun _ _ h => .inr h)
      (refl := List.prefix_refl)
      (trans := fun _ _ _ h g => h.trans g)
      (interrupt := fun _ _ hc he => .inl (he.txContents hc))
      (action := fun _ _ hc hF he => he.txContents hc hF)
  exact hfifo.imp (fun h => ⟨_, List.suffix_iff_eq_drop.mp h⟩) fun ⟨bs, hbs⟩ => ⟨bs, hbs.symm⟩

end Sys2Proof.Machine

namespace Sys2Proof.Machine

/-! ### The decoder and the encoder, each the other's inverse (R91 to R95, R104) -/

section Codec
variable {o : Opcode} {i : Instr} {op : Byte} {bs rest : List Byte}

/-- What the decoder reads after an assigned opcode is a well-formed operation of that opcode, and its encoding is the opcode
and the bytes read. -/
theorem encode_of_decodeOperands (h : decodeOperands o bs = .command i rest) :
    i.wf = true ∧ encode i ++ rest = o.code :: bs := by
  cases o with
  | pop | isempty | isfull | txdone | poll | rxfault | txfault | reset | start => cases h; exact ⟨rfl, rfl⟩
  | push | feed | rxbyte | rdcsr =>
    match bs with
    | [] => cases h
    | _ :: _ => cases h; exact ⟨rfl, rfl⟩
  | tick =>
    match bs with
    | [] | [_] | [_, _] | [_, _, _] => cases h
    | t0 :: t1 :: t2 :: t3 :: _ => cases h; exact ⟨rfl, by simp [encode, Instr.opcode, le32Bytes_of_le32]⟩
  | enq =>
    match bs with
    | [] | [_] => cases h
    | l0 :: l1 :: payload =>
      rw [decodeOperands] at h
      split at h
      next hle =>
        cases h
        have hlen : (payload.take (le16 l0 l1)).length = le16 l0 l1 := List.length_take_of_le hle
        exact ⟨decide_eq_true (hlen.trans_le (le16_le l0 l1)), by simp [encode, Instr.opcode, hle, le16Bytes_of_le16]⟩
      next => cases h

theorem decodeOperands_ne_illegal : decodeOperands o bs ≠ .illegal op rest := by
  intro h
  unfold decodeOperands at h
  split at h <;> try cases h
  split at h <;> cases h

theorem decode_unassigned (h : Opcode.ofByte op = none) : decode (op :: rest) = .illegal op rest := by rw [decode, h]

theorem decode_eq_illegal_iff : decode (op :: rest) = .illegal op rest ↔ Opcode.ofByte op = none := by
  refine ⟨fun h => ?_, decode_unassigned⟩
  cases ho : Opcode.ofByte op with
  | none => rfl
  | some o =>
    rw [decode, ho] at h
    exact absurd h decodeOperands_ne_illegal

/-- The opcode map of R93, as the set of its numbers. -/
theorem Opcode.ofByte_eq_none_iff : Opcode.ofByte op = none ↔
    op.toNat ∉ [0x10, 0x11, 0x12, 0x13, 0x20, 0x30, 0x31, 0x40, 0x41, 0x42, 0x50, 0x51, 0x60, 0xF0, 0xF1] := by
  unfold Opcode.ofByte
  split <;> simp_all

theorem decode_enq {l0 l1 : Byte} {payload : List Byte} (h : payload.length = le16 l0 l1) :
    decode (0x30#8 :: l0 :: l1 :: (payload ++ rest)) = .command (.enq payload) rest := by
  have hd : decode (0x30#8 :: l0 :: l1 :: (payload ++ rest)) = decodeOperands .enq (l0 :: l1 :: (payload ++ rest)) := rfl
  simp [hd, decodeOperands, ← h]

end Codec

/-- Settles O1, by `decode_encode_append`. -/
theorem decodeOfEncode : Obligations.DecodeOfEncode := fun _ _ hwf => decode_encode_append hwf

/-- Settles O2: a byte read as an assigned opcode is that opcode's code; the operands by `encode_of_decodeOperands`. -/
theorem encodeOfDecode : Obligations.EncodeOfDecode := by
  intro bs i rest h
  cases bs with
  | nil => cases h
  | cons op ops =>
    rw [decode] at h
    cases ho : Opcode.ofByte op with
    | none => rw [ho] at h; cases h
    | some o =>
      rw [ho] at h
      rw [← Opcode.code_of_ofByte ho]
      exact encode_of_decodeOperands h

/-- Settles O3, by running the decoder on the words. -/
theorem specWordsDecode : Obligations.SpecWordsDecode := by
  unfold Obligations.SpecWordsDecode
  decide

/-- Settles O4: the decoder's equations; the time by `le32_toNat`, the string by `decode_enq`. -/
theorem operandAssembly : Obligations.OperandAssembly :=
  ⟨fun _ _ => ⟨rfl, rfl, rfl, rfl⟩, fun t0 t1 t2 t3 _ => ⟨le32 t0 t1 t2 t3, rfl, le32_toNat t0 t1 t2 t3⟩,
    fun _ _ _ _ hlen => decode_enq hlen⟩

/-- Settles O5: the decoder rejects exactly the bytes that the opcode map does not assign. -/
theorem onlyFifteenOpcodes : Obligations.OnlyFifteenOpcodes := fun _ _ =>
  decode_eq_illegal_iff.trans Opcode.ofByte_eq_none_iff

/-! ### Whole commands and the partly received one (R96, R220) -/

/-- The bytes of one whole command: a well-formed operation's (R92 to R95), or one unassigned byte (R104). -/
def WholeCommand (c : List Byte) : Prop :=
  (∃ i : Instr, i.wf = true ∧ c = encode i) ∨ ∃ op, Opcode.ofByte op = none ∧ c = [op]

section Partial
variable {c tail rest : List Byte} {cs : List (List Byte)} {fuel : Nat}

theorem WholeCommand.length_pos (h : WholeCommand c) : 0 < c.length := by
  rcases h with ⟨i, -, rfl⟩ | ⟨op, -, rfl⟩
  · rw [encode.eq_def]; exact Nat.succ_pos _
  · exact Nat.one_pos

theorem partialCommand_whole_append (h : WholeCommand c) :
    partialCommand (fuel + 1) (c ++ rest) = partialCommand fuel rest := by
  rcases h with ⟨i, hwf, rfl⟩ | ⟨op, hop, rfl⟩
  · rw [partialCommand, decode_encode_append hwf]
  · rw [partialCommand, List.singleton_append, decode_unassigned hop]

theorem partialCommand_incomplete (h : decode tail = .incomplete) : partialCommand fuel tail = tail := by
  cases fuel with
  | zero => rfl
  | succ fuel => rw [partialCommand, h]

/-- Dropping the whole commands leaves what follows them; each takes one unit of fuel and has at least one byte. -/
theorem partialCommand_flatten_append (hcs : ∀ c ∈ cs, WholeCommand c) (ht : decode tail = .incomplete)
    (hf : cs.flatten.length ≤ fuel) : partialCommand fuel (cs.flatten ++ tail) = tail := by
  induction cs generalizing fuel with
  | nil => exact partialCommand_incomplete ht
  | cons c cs ih =>
    obtain ⟨hc, hcs⟩ := List.forall_mem_cons.mp hcs
    have hpos := hc.length_pos
    rw [List.flatten_cons, List.length_append] at hf
    obtain ⟨fuel, rfl⟩ := Nat.exists_eq_succ_of_ne_zero (show fuel ≠ 0 by omega)
    rw [List.flatten_cons, List.append_assoc, partialCommand_whole_append hc]
    exact ih hcs (by omega)

end Partial

/-- Settles O15: the whole commands are what stands before the partial one, found by `partialCommand_flatten_append`. -/
theorem partialCommandDiscarded : Obligations.PartialCommandDiscarded := by
  intro cs tail hcs ht
  have hpartial : partialCommand (cs.flatten ++ tail).length (cs.flatten ++ tail) = tail :=
    partialCommand_flatten_append hcs ht (by simp)
  rw [wholeCommands, hpartial]
  simp

/-! ### A step that executes no operation (R96, R104, R105) -/

section NotExecuted
variable {s : State} {i : Instr} {op : Byte} {rest : List Byte}

theorem step_portI_illegal (hI : s.seqI = .idle) (hr : s.arrive.resetIn = false)
    (hd : decode s.arrive.portI = .illegal op rest) : step s = .next (illegalOp (s.arrive.beginI rest)) := by
  have hsel : selectNext s = .illegal (s.arrive.beginI rest) := by simp [selectNext, hI, hr, hd]
  rw [step, hsel]

theorem step_portM_illegal (hI : s.seqI = .idle) (hM : s.seqM = .idle) (hr : s.arrive.resetIn = false)
    (hn : commandReady s.arrive.portI = false) (hd : decode s.arrive.portM = .illegal op rest) :
    step s = .next (illegalOp (s.arrive.beginM rest)) := by
  have hidle : s.arrive.seqM.isIdle = true := by rw [arrive_seqM, hM]; rfl
  have hsel : selectNext s = .illegal (s.arrive.beginM rest) := by
    simp [selectNext, hI, hr, decode_of_not_ready hn, hidle, hd]
  rw [step, hsel]

theorem arrive_seqI (s : State) : s.arrive.seqI = s.seqI := s.arrive_frame.2.2.2.2.2.1

/-- A command of port I that raises an error result and does nothing else (R240). -/
theorem raise_beginI (hI : s.seqI = .idle) (f : ErrFlag) (status : Byte) :
    (s.beginI rest).raise f status [] =
      { s with portI := rest, errflags := s.errflags ||| f.mask, respI := s.respI ++ [[status]] } := by
  rw [State.raise, respond_of_executing rfl, State.respondI, ← hI]
  rfl

/-- A command of port M that raises an error result and does nothing else (R240). -/
theorem raise_beginM (hI : s.seqI = .idle) (hM : s.seqM = .idle) (f : ErrFlag) (status : Byte) :
    (s.beginM rest).raise f status [] =
      { s with portM := rest, errflags := s.errflags ||| f.mask, respM := s.respM ++ [[status]] } := by
  rw [State.raise, respond_of_idle (s := (s.beginM rest).flag f) hI, State.respondM, ← hM]
  rfl

theorem raise_arrive_beginI (hI : s.seqI = .idle) (f : ErrFlag) (status : Byte) :
    (s.arrive.beginI rest).raise f status [] =
      { s.arrive with portI := rest, errflags := s.errflags ||| f.mask, respI := s.respI ++ [[status]] } := by
  obtain ⟨-, -, -, -, -, hseqI, -, hrespI, -, -, -, herr, -, -⟩ := s.arrive_frame
  rw [raise_beginI (hseqI.trans hI), herr, hrespI]

theorem raise_arrive_beginM (hI : s.seqI = .idle) (hM : s.seqM = .idle) (f : ErrFlag) (status : Byte) :
    (s.arrive.beginM rest).raise f status [] =
      { s.arrive with portM := rest, errflags := s.errflags ||| f.mask, respM := s.respM ++ [[status]] } := by
  obtain ⟨-, -, -, -, hseqM, hseqI, hrespM, -, -, -, -, herr, -, -⟩ := s.arrive_frame
  rw [raise_beginM (hseqI.trans hI) (hseqM.trans hM), herr, hrespM]

theorem exec_notOnI (ha : i.opcode.allowedOn .I = false) : exec i (s.beginI rest) = .next (illegalCtx (s.beginI rest)) :=
  have hctx : (s.beginI rest).context = .I := rfl
  exec_wrongPort (by simp [hctx]) (by rw [hctx]; exact ha)

theorem exec_notOnM (h : AtMain s) (ha : i.opcode.allowedOn .M = false) : exec i s = .next (illegalCtx s) :=
  exec_wrongPort (by simp [h.2, SeqM.isIdle]) (by rw [context_of_atMain h]; exact ha)

end NotExecuted

/-- Settles O9: the decoder rejects the byte, and `illegalOp` raises ILLEGAL_OP on its port. -/
theorem unassignedOpcodeAnswersIllegalOp : Obligations.UnassignedOpcodeAnswersIllegalOp := by
  intro s op rest hI hr hop
  constructor
  · intro hport
    rw [step_portI_illegal hI hr (by rw [hport]; exact decode_unassigned hop), illegalOp, raise_arrive_beginI hI]
    rfl
  · intro hn hM hport
    rw [step_portM_illegal hI hM hr hn (by rw [hport]; exact decode_unassigned hop), illegalOp, raise_arrive_beginM hI hM]
    rfl

/-- Settles O10: the command is begun, and `exec` raises ILLEGAL_CTX on its port (`exec_wrongPort`). -/
theorem wrongPortAnswersIllegalCtx : Obligations.WrongPortAnswersIllegalCtx := by
  intro s i rest hI hr hwf
  constructor
  · intro ha hport
    rw [step_portI_command hI hr (by rw [hport]; exact decode_encode_append hwf), exec_notOnI ha, illegalCtx,
      raise_arrive_beginI hI]
    rfl
  · intro ha hn hM hport
    have hmain : AtMain (s.arrive.beginM rest) := ⟨(arrive_seqI s).trans hI, (arrive_seqM s).trans hM⟩
    rw [step_portM_command hI hM hr hn (by rw [hport]; exact decode_encode_append hwf), exec_notOnM hmain ha, illegalCtx,
      raise_arrive_beginM hI hM]
    rfl

/-- Settles O11: neither decoder finds a command and port M has nothing to resume. -/
theorem incompleteCommandWaits : Obligations.IncompleteCommandWaits := by
  intro s hI hM hr hdI hdM
  have hidle : s.arrive.seqM.isIdle = true := by rw [arrive_seqM, hM]; rfl
  have hsel : selectNext s = .wait s.arrive := by simp [selectNext, hI, hr, hdI, hidle, hdM]
  rw [step, hsel]

/-! ### One response to every command (R99) -/

section Responses
variable {s u : State} {i : Instr}

/-- Before its response a command of port I gives none. -/
theorem InterruptEffect.responses (h : InterruptEffect s u) : u.respI = s.respI ∧ u.respM = s.respM := by
  rw [h.frame]
  exact ⟨rfl, rfl⟩

/-- Before its response a command that port M completes at once gives none. -/
theorem DirectEffect.responses (hc : Consistent s) (h : DirectEffect i s u) : u.respM = s.respM ∧ u.respI = s.respI := by
  rcases h with rfl | ⟨f, rfl⟩ | ⟨-, rfl⟩ | ⟨-, rfl⟩ | ⟨b, fr, -, hf⟩
  · exact ⟨rfl, rfl⟩
  · exact ⟨rfl, rfl⟩
  · exact ⟨rfl, rfl⟩
  · unfold armReceiver
    split <;> exact ⟨rfl, rfl⟩
  · obtain ⟨hF, -, -, hrespM, -⟩ := feed_frame hc.lfFill_lt hf
    exact ⟨hrespM, hF.respI⟩

theorem exec_interrupt_answers (hc : Consistent s) (h : AtInterrupt s) :
    ∃ t r, exec i s = .next t ∧ t.seqI = .idle ∧ t.respI = s.respI ++ [r] ∧ t.respM = s.respM := by
  obtain ⟨u, r, hu, heffect, -⟩ := exec_interrupt (i := i) hc h
  obtain ⟨hrespI, hrespM⟩ := heffect.responses
  exact ⟨u.respondI r, r, hu, rfl, by rw [State.respondI_respI, hrespI], hrespM⟩

/-- An operation of several actions that is left alone responds once, with its last action (R304). -/
theorem startMain_answers {p : SeqM} (hc : Consistent (s.goto p)) (hI : s.seqI = .idle) (hp : p.isIdle = false)
    (hu : Undisturbed s) :
    ∃ t r, startMain p s = .next t ∧ t.seqM = .idle ∧ t.respM = s.respM ++ [r] ∧ t.respI = s.respI := by
  obtain ⟨t, ht, -, hframe, hM, r, hr⟩ := runMain_completes _ hc hI hp hu le_rfl
  exact ⟨t, r, ht, hM, hr, hframe.respI⟩

theorem exec_main_answers (hc : Consistent s) (h : AtMain s) (hu : Undisturbed s) :
    ∃ t r, exec i s = .next t ∧ t.seqM = .idle ∧ t.respM = s.respM ++ [r] ∧ t.respI = s.respI := by
  rcases exec_main (i := i) hc h with ⟨p, hp, -, hok, -, hexec⟩ | ⟨u, r, hexec, -, -, -, heffect⟩
  · rw [hexec]
    have hgoto : Consistent (s.goto p) := hc.goto (hok s) fun _ h0 => hc.empty_of (by rw [h.2]; rfl) h0
    exact startMain_answers hgoto h.1 hp hu
  · obtain ⟨hrespM, hrespI⟩ := DirectEffect.responses (i := i) hc heffect
    exact ⟨u.respondM r, r, hexec, rfl, by rw [State.respondM_respM, hrespM], hrespI⟩

end Responses

/-- Settles O56: a command of port I answers in its one action, one of port M at once or with its last action. -/
theorem everyCommandAnswersOnce : Obligations.EveryCommandAnswersOnce := fun _ _ hc =>
  ⟨exec_interrupt_answers hc, exec_main_answers hc⟩

end Sys2Proof.Machine

namespace Sys2Proof.Machine

/-! ### PUSH, POP, ISEMPTY and ISFULL (R121 to R126) -/

section RxRing
variable {s t : State} {p q : SeqM} {r : List Byte}

theorem boolByte_decide (P : Prop) [Decidable P] : boolByte (decide P) = if P then 0x01#8 else 0x00#8 := by
  by_cases h : P <;> simp [boolByte, h]

/-- The response of port M sets its sequencer back to what it was before the operation. -/
theorem respondM_of_idle (h : s.seqM = .idle) : s.respondM r = { s with respM := s.respM ++ [r] } := by
  rw [State.respondM, ← h]

/-- The position an operation of port M has reached is gone with its response. -/
theorem respond_goto (hI : s.seqI = .idle) (p : SeqM) : (s.goto p).respond r = s.respondM r :=
  respond_of_idle (s := s.goto p) hI

theorem arrive_goto (s : State) (p : SeqM) : (s.goto p).arrive = s.arrive.goto p := by
  simp only [State.arrive, State.goto_inputs]
  cases s.inputs with
  | nil => rfl
  | cons x xs => cases x <;> rfl

theorem Undisturbed.goto (h : Undisturbed s) (p : SeqM) : Undisturbed (s.goto p) := h

/-- Action (a) of POP samples `rx_w` (R123). -/
theorem mainAction_popA : mainAction (s.goto (.popA .pop)) = .next (s.goto (.popB .pop s.rxW)) := rfl

/-- Action (b) of POP, on an empty ring. -/
theorem mainAction_popB_empty (hI : s.seqI = .idle) (h : s.rxW = s.rxR) :
    mainAction (s.goto (.popB .pop s.rxW)) = .next (s.respondM [stNone]) :=
  calc mainAction (s.goto (.popB .pop s.rxW))
    _ = .next (popNone .pop (s.goto (.popB .pop s.rxW))) := if_pos (decide_eq_true h)
    _ = .next (s.respondM [stNone]) := congrArg _ (respond_goto hI _)

/-- Action (b) of POP, on a ring that holds a byte. -/
theorem mainAction_popB_stored (hr : s.rxR < s.cfg.N) (h : s.rxW ≠ s.rxR) :
    mainAction (s.goto (.popB .pop s.rxW)) = .next (s.goto (.popC .pop (s.slot .rxs s.rxR))) := by
  have hread : memRead .rxs s.rxR (s.goto (.popB .pop s.rxW)) = .next (s.slot .rxs s.rxR) := memRead_of_lt hr
  calc mainAction (s.goto (.popB .pop s.rxW))
    _ = andThen (memRead .rxs s.rxR (s.goto (.popB .pop s.rxW))) fun v => .next (s.goto (.popC .pop v)) :=
      if_neg (Bool.eq_false_iff.mp (ringEmpty_eq_false.mpr h))
    _ = .next (s.goto (.popC .pop (s.slot .rxs s.rxR))) := by rw [hread, andThen_next]

/-- Action (c) of POP releases the slot and answers its byte. -/
theorem mainAction_popC (hI : s.seqI = .idle) (v : Byte) : mainAction (s.goto (.popC .pop v)) =
    .next (State.respondM { s with rxR := incIdx s.cfg.N s.rxR } [stOk, v]) :=
  congrArg _ (respond_goto (s := { s with rxR := incIdx s.cfg.N s.rxR }) hI _)

/-- A POP begins at action (a) and has at most three actions. -/
theorem exec_pop (h : AtMain s) : exec .pop s = runMain 3 (s.goto (.popA .pop)) :=
  exec_mainEntry (p := .popA .pop) h rfl

/-- An operation of two actions that is left alone: the first samples, the second answers (R125, R126). -/
theorem startMain_two_actions (h : AtMain s) (hu : Undisturbed s) (hcost : mainCost (s.goto p) = 2)
    (hq : q.isIdle = false) (hfirst : mainAction (s.goto p) = .next (s.goto q))
    (hsecond : mainAction (s.goto q) = .next ((s.goto q).respond r)) :
    startMain p s = .next { s with respM := s.respM ++ [r] } := by
  rw [respond_goto h.1] at hsecond
  rw [startMain, resumeMain, hcost, runMain_go hfirst hq (hu.goto q), runMain_end hsecond rfl, respondM_of_idle h.2]

theorem exec_interrupt_consistent {i : Instr} (hc : Consistent s) (h : AtInterrupt s) (he : exec i s = .next t) :
    Consistent t := by
  obtain ⟨u, r, hu, -, hconsistent, -⟩ := exec_interrupt (i := i) hc h
  cases he.symm.trans hu
  exact hconsistent

end RxRing

/-- Settles O21: port I writes neither `rx_r` nor the sequencer of port M, and keeps what `Consistent` says of an
operation that holds a byte: the ring is not empty, and the byte is the one in the slot to be released. -/
theorem slotBeingPoppedIsSafe : Obligations.SlotBeingPoppedIsSafe := by
  intro s t i c v hc hint hpop he
  obtain ⟨hrxR, -, -, -, -, -, -, hseqM, -⟩ := interruptContextOwnership i s t hint he
  have hseq : t.seqM = .popC c v := hseqM.trans hpop
  have hok : t.seqM.ok t := (exec_interrupt_consistent hc hint he).seq_ok
  rw [hseq] at hok
  obtain ⟨hne, hv⟩ := hok
  exact ⟨hseq, hrxR, hne, hv.symm⟩

/-- Settles O17: action (b) finds the ring empty and answers, or takes the oldest byte, which action (c) answers. -/
theorem popResult : Obligations.PopResult := by
  intro s hmain hu hr
  obtain ⟨hI, hM⟩ := hmain
  rw [exec_pop ⟨hI, hM⟩, runMain_go mainAction_popA rfl (hu.goto _)]
  by_cases hempty : s.rxW = s.rxR
  · rw [runMain_end (mainAction_popB_empty hI hempty) rfl, if_pos hempty]
    exact congrArg Host.Outcome.next (respondM_of_idle hM)
  · rw [runMain_go (mainAction_popB_stored hr hempty) rfl (hu.goto _), runMain_end (mainAction_popC hI _) rfl,
      if_neg hempty]
    exact congrArg Host.Outcome.next (respondM_of_idle hM)

/-- Settles O18: port I answers in its one action; port M samples `rx_w`, and nothing comes between that and
its answer. -/
theorem isEmptyAnswers : Obligations.IsEmptyAnswers := by
  intro s
  rw [← boolByte_decide]
  constructor
  · intro hint
    rw [exec, execIsempty, accept_of_atInterrupt hint rfl, context_of_atInterrupt hint]
    exact congrArg Host.Outcome.next (respond_of_executing hint)
  · intro hmain hu
    rw [exec_mainEntry hmain rfl]
    exact startMain_two_actions (q := .isEmptyB s.rxW) hmain hu rfl rfl rfl rfl

/-- Settles O19: port I answers in its one action; port M samples `rx_w`, and nothing comes between that and
its answer. -/
theorem isFullAnswers : Obligations.IsFullAnswers := by
  intro s
  rw [← boolByte_decide]
  constructor
  · intro hint
    rw [exec, execIsfull, accept_of_atInterrupt hint rfl, context_of_atInterrupt hint]
    exact congrArg Host.Outcome.next (respond_of_executing hint)
  · intro hmain hu
    rw [exec_mainEntry hmain rfl]
    exact startMain_two_actions (q := .isFullB s.rxW) hmain hu rfl rfl rfl rfl

/-- Settles O20: action (a) has sampled `rx_w` when the input arrives and POP gives way. -/
theorem popGivesWay : Obligations.PopGivesWay := by
  intro s hmain hp
  have hyield : (s.goto (.popB .pop s.rxW)).arrive.preempted = true := by rw [arrive_goto]; exact hp
  rw [exec_pop hmain, runMain_yield mainAction_popA rfl hyield, arrive_goto]
  rfl

/-- Settles O16: the push drops the byte or stores it, and port I answers in the same action. -/
theorem pushResult : Obligations.PushResult := by
  intro s b hint hw
  rw [exec, execPush, accept_of_atInterrupt hint rfl]
  by_cases hfull : incIdx s.cfg.N s.rxW = s.rxR
  · have hf : ringFull s.cfg.N s.rxW s.rxR = true := decide_eq_true hfull
    rw [push_full hf, pushStatus, if_pos hf, if_pos hfull]
    exact congrArg Host.Outcome.next (respond_of_executing hint)
  · have hf : ringFull s.cfg.N s.rxW s.rxR = false := ringFull_eq_false.mpr hfull
    rw [push_room hf hw, pushStatus, hf, if_neg hfull]
    exact congrArg Host.Outcome.next (respond_of_executing hint)

end Sys2Proof.Machine

namespace Sys2Proof.Machine

/-! ### FEED (R141 to R146) -/

/-- FEED is one action, so the framer's transition table (R141) decides the whole next state. Each of its rows leaves both
sequencers alone, which is `ht`. -/
theorem exec_feed {s t : State} {b : Byte} {r : FeedResult} (h : AtMain s) (hfeed : feed b s = .next (t, r))
    (ht : AtMain t) : exec (.feed b) s = .next { t with respM := t.respM ++ [feedResponse r] } := by
  rw [exec, execFeed, accept_of_atMain h rfl, hfeed, andThen_next, respond_of_idle ht.1, respondM_of_idle ht.2]

/-- The response `MSG` carries the length in two bytes, low byte first, then the message (R101). -/
theorem respMessage_lineContents (s : State) : respMessage s.lineContents =
    [0x02#8, BitVec.ofNat 8 s.lfFill, BitVec.ofNat 8 (s.lfFill / 256)] ++ (List.range s.lfFill).map (s.slot .lfb) := by
  have hlen : s.lineContents.length = s.lfFill := by simp [State.lineContents, lineSlots]
  rw [respMessage, hlen]
  rfl

/-- Settles O22: `\r` is skipped. -/
theorem feedCarriageReturn : Obligations.FeedCarriageReturn := fun _ h => exec_feed h feed_cr h

/-- Settles O23: an ordinary byte with room is appended. -/
theorem feedAppends : Obligations.FeedAppends := fun _ _ h hr hn hroom => exec_feed h (feed_append hr hn hroom) h

/-- Settles O24: at `lf_fill == M-1` there is no room, so the line overflows. -/
theorem feedOverflows : Obligations.FeedOverflows := fun _ _ h hr hn hfull =>
  exec_feed h (feed_overflow hr hn hfull.not_lt) h

/-- Settles O25: the terminator goes behind the message and leaves its bytes as they were. -/
theorem feedCompletesMessage : Obligations.FeedCompletesMessage := by
  intro s h hpos hlt
  rw [← respMessage_lineContents]
  exact exec_feed h (feed_lf_message hpos hlt) h

/-- Settles O26: there is no message to terminate. -/
theorem feedBlankLine : Obligations.FeedBlankLine := fun _ h hempty => exec_feed h (feed_lf_blank hempty) h

end Sys2Proof.Machine

namespace Sys2Proof.Machine

/-! ### TXDONE (R170, R171) and the transmit chain (R172, R174) -/

section Completion
variable {s t : State} {b : Byte} {rest : List Byte}

/-- With a unit in flight TXDONE is its completion and the response `OK` (R170). -/
theorem exec_txdone_genuine (h : AtInterrupt s) (htip : s.tip = true) (ht : completeUnit s = .next t) :
    exec .txdone s = .next (t.respondI [stOk]) := by
  have hseqI : t.seqI = .executing := by
    rw [completeUnit_frame ht]
    exact h
  rw [exec, execTxdone, accept_of_atInterrupt h rfl, if_neg (by simp [htip]), ht, andThen_next,
    respond_of_executing hseqI]

/-- A queue that holds bytes holds the oldest one in the slot `tx_r` names (R24). -/
theorem txContents_head (hw : s.txW < s.cfg.T) (hr : s.txR < s.cfg.T) (h : s.txContents = b :: rest) :
    s.txW ≠ s.txR ∧ s.slot .txs s.txR = b := by
  have hne : s.txW ≠ s.txR := fun he => by
    rw [State.txContents_eq, he, ringBytes_empty] at h
    cases h
  rw [State.txContents, State.txCount, ringSlots_tail hw hr hne, List.map_cons] at h
  exact ⟨hne, (List.cons.inj h).1⟩

theorem txContents_length (s : State) : s.txContents.length = s.txCount := by simp [State.txContents, ringSlots]

theorem txContents_eq_nil (hr : s.txR < s.cfg.T) : s.txContents = [] ↔ s.txW = s.txR := by
  rw [← List.length_eq_zero_iff, txContents_length, State.txCount, distIdx_eq_zero hr]

/-- The unit in flight is the oldest bytes of the queue (R30), so a completion leaves the bytes behind it. -/
theorem Consistent.released_txContents (h : Consistent s) : s.released.txContents = s.txContents.drop s.txUlen :=
  ringBytes_release h.txW_lt h.txR_lt h.unit_le

theorem Consistent.released_txR_lt (h : Consistent s) : s.released.txR < s.cfg.T :=
  addIdx_lt (Nat.zero_lt_of_lt h.txR_lt)

/-- The unit in flight was all of the queue: transmission ends (R170). -/
theorem completeUnit_whole_queue (h : Consistent s) (hunit : s.txUlen = s.txCount) :
    completeUnit s = .next { s.released with tip := false, txUlen := 0 } ∧ s.released.txContents = [] := by
  have hend : s.txW = addIdx s.cfg.T s.txR s.txUlen := by
    rw [hunit]
    exact (addIdx_dist h.txW_lt h.txR_lt).symm
  exact ⟨completeUnit_last hend, (txContents_eq_nil h.released_txR_lt).mpr hend⟩

/-- In byte mode the completion of a unit issues the byte behind it (R160, R170). -/
theorem completeUnit_next_byte (h : Consistent s) (hmode : s.cfg.txMode = .byte)
    (hcont : s.released.txContents = b :: rest) :
    completeUnit s = .next (State.emit { s.released with txUlen := 1, tip := true } (.txUnit [b])) := by
  obtain ⟨hmore, hhead⟩ := txContents_head (s := s.released) h.txW_lt h.released_txR_lt hcont
  have hlen : unitLength s.released = 1 := by rw [unitLength, show s.released.cfg = s.cfg from rfl, hmode]
  have hslots : ringSlots s.released.cfg.T s.released.txR 1 = [s.released.txR] :=
    congrArg (fun i => [i]) (addIdx_zero h.released_txR_lt)
  rw [completeUnit_more hmore, issueUnit_eq (s := s.released) (Nat.zero_lt_of_lt h.txR_lt), hlen, hslots,
    List.map_singleton, hhead]

/-- A command of port I begins in a consistent state (R251). -/
theorem Inv.toInterrupt (h : Inv s) : Consistent { s with seqI := .executing } := h.1.update ..

/-- A completion begins the rest of a chain (R172). -/
theorem completions_succ (k : Nat) (h : exec .txdone { s with seqI := .executing } = .next t) :
    completions (k + 1) s = completions k t := by
  rw [completions, h, andThen_next]

/-- The chain of R172, along the bytes behind the one in flight. -/
theorem completions_byte (hs : Inv s) (hmode : s.cfg.txMode = .byte) (htip : s.tip = true)
    (hcont : s.txContents = b :: rest) :
    ∃ t, completions (rest.length + 1) s = .next t ∧ t.tip = false ∧ t.txUlen = 0 ∧ t.txContents = [] ∧
      t.txW = s.txW ∧ t.trace = s.trace ++ byteUnits rest := by
  induction rest generalizing s b with
  | nil =>
    have hc := hs.toInterrupt
    have hint : AtInterrupt { s with seqI := .executing } := rfl
    have hunit : s.txUlen = s.txCount := by
      have hlen : s.txCount = 1 := by rw [← txContents_length, hcont]; rfl
      have hpos := hs.1.tip_iff.mp htip
      have hle := hs.1.unit_le
      omega
    obtain ⟨hdone, hempty⟩ := completeUnit_whole_queue hc hunit
    refine ⟨_, completions_succ 0 (exec_txdone_genuine hint htip hdone), rfl, rfl, hempty, rfl, ?_⟩
    exact (List.append_nil _).symm
  | cons b' rest ih =>
    have hc := hs.toInterrupt
    have hint : AtInterrupt { s with seqI := .executing } := rfl
    have hunit : s.txUlen = 1 := Nat.le_antisymm (hs.1.byte_unit hmode) (hs.1.tip_iff.mp htip)
    have hbehind : State.txContents (State.released { s with seqI := .executing }) = b' :: rest := by
      calc State.txContents (State.released { s with seqI := .executing })
        _ = s.txContents.drop s.txUlen := hc.released_txContents
        _ = b' :: rest := by rw [hunit, hcont, List.drop_one, List.tail_cons]
    have hexec := exec_txdone_genuine hint htip (completeUnit_next_byte hc hmode hbehind)
    have hinv := exec_interrupt_consistent hc hint hexec
    obtain ⟨t, ht, htip', hulen, hempty, hw, htrace⟩ := ih ⟨hinv, rfl⟩ hmode rfl hbehind
    refine ⟨t, (completions_succ _ hexec).trans ht, htip', hulen, hempty, hw, ?_⟩
    rw [htrace]
    exact List.append_assoc s.trace [_] _

end Completion

/-- Settles O31: `completions_byte`, for the queue's bytes, of which the oldest is in flight. -/
theorem byteChainDrainsInOrder : Obligations.ByteChainDrainsInOrder := by
  intro s k hs hmode htip hk
  rw [← txContents_length] at hk
  cases hcont : s.txContents with
  | nil =>
    have hpos := (hs.1.tip_iff.mp htip).trans hs.1.unit_le
    rw [← txContents_length, hcont] at hpos
    exact absurd hpos (Nat.not_succ_le_zero 0)
  | cons b rest =>
    rw [← hk, hcont]
    exact completions_byte hs hmode htip hcont

/-- Settles O32: in bulk mode the unit in flight is the whole queue (R46 (f)). -/
theorem bulkCompletionEmpties : Obligations.BulkCompletionEmpties := by
  intro s hc hint hmode htip
  obtain ⟨hdone, hempty⟩ := completeUnit_whole_queue hc (hc.bulk_unit hmode htip)
  exact ⟨_, exec_txdone_genuine hint htip hdone, rfl, rfl, hempty, rfl⟩

/-- Settles O29: `completeUnit_eq`, and the response of port I in the same action. -/
theorem txdoneContinuesOrEnds : Obligations.TxdoneContinuesOrEnds := by
  intro s hint hT htip
  rw [exec_txdone_genuine hint htip (completeUnit_eq hT)]
  by_cases hend : s.txW = (s.txR + s.txUlen) % s.cfg.T
  · simp only [if_pos hend]
    rfl
  · simp only [if_neg hend]
    rfl

/-- Settles O30: nothing is in flight, so the completion raises SPURIOUS_DONE. -/
theorem txdoneSpurious : Obligations.TxdoneSpurious := by
  intro s hint htip
  rw [exec, execTxdone, accept_of_atInterrupt hint rfl, if_pos htip]
  exact congrArg Host.Outcome.next (respond_of_executing (s := s.flag .spurious) hint)

/-! ### ENQ (R161, R162, R164, R165, R175, R176) -/

section Enqueue
variable {s t : State} {bytes : List Byte}

/-- ENQ is begun at step (0) of its enqueue (R161). -/
theorem exec_enq (h : AtMain s) : exec (.enq bytes) s = resumeMain (s.goto (.enq0 .enq bytes)) :=
  exec_mainEntry (p := .enq0 .enq bytes) h rfl

/-- Left alone, ENQ is one whole enqueue and its response (R161, R304). -/
theorem exec_enq_undisturbed (hs : Inv s) (h : AtMain s) (hu : Undisturbed s) :
    exec (.enq bytes) s =
      .next ((enqueueWhole bytes s).1.respondM
        (respEnqueue (enqueueWhole bytes s).2.1 (enqueueWhole bytes s).2.2)) := by
  have hfirst : mainAction (s.goto (.enq0 .enq bytes)) = enqueue .enq bytes s := enqueue_goto h.1 hs.1.txW_lt ..
  have hgoto : Consistent (s.goto (.enq0 .enq bytes)) :=
    hs.1.goto trivial fun _ htip => hs.1.empty_of (by rw [h.2]; rfl) htip
  obtain ⟨hrun, -, -, -, -, hI, -⟩ :=
    resumeMain_enqueue .enq bytes s hs.1 h.2 h.1 hu _ hgoto h.1 rfl (hu.goto _) hfirst
  rw [enqueueEnd, respond_of_idle hI] at hrun
  rw [exec_enq h, hrun rfl]

/-- Step (d) finds a unit in flight, or nothing to send (R164). -/
theorem startWhole_none (h : s.tip = true ∨ s.txContents = []) (hr : s.txR < s.cfg.T) : startWhole s = s := by
  rw [txContents_eq_nil hr] at h
  refine if_neg ?_
  rintro ⟨htip, hne⟩
  rcases h with h | h
  · rw [htip] at h
    cases h
  · exact hne h

theorem unitLength_eq (s : State) : unitLength s = if s.cfg.txMode = .byte then 1 else s.txContents.length := by
  rw [txContents_length, unitLength]
  cases s.cfg.txMode <;> rfl

/-- Step (d) starts the chain (R160, R164). -/
theorem startWhole_unit (htip : s.tip = false) (h : s.txContents ≠ []) (hr : s.txR < s.cfg.T) :
    startWhole s =
      State.emit { s with txUlen := unitLength s, tip := true } (.txUnit (s.txContents.take (unitLength s))) :=
  if_pos ⟨htip, fun he => h ((txContents_eq_nil hr).mpr he)⟩

/-- An accepted enqueue appends what there is room for, starts the chain, and flags a short count (R161, R165). -/
theorem enqueueWhole_accepted (hc : Consistent s) (h : ¬ (s.cfg.txMode = .bulk ∧ s.tip = true)) :
    enqueueWhole bytes s =
      ({ startWhole (appendWhole bytes s).1 with
          errflags := if s.txRoom bytes.length = bytes.length then s.errflags else s.errflags ||| 0x04#8 },
        (if s.txRoom bytes.length = bytes.length then 0x00#8 else 0x83#8), s.txRoom bytes.length) := by
  obtain ⟨hframe, -, hcount, -⟩ := appendWhole_spec bytes s hc.T_ge hc.txW_lt hc.txR_lt
  have herr : (startWhole (appendWhole bytes s).1).errflags = s.errflags := by
    rw [startWhole, hframe]
    split <;> rfl
  rw [enqueueWhole, if_neg h, ← hcount, ← herr]
  by_cases hall : (appendWhole bytes s).2 = bytes.length
  · simp only [if_pos hall]
    rfl
  · simp only [if_neg hall]
    rfl

/-- What an enqueue does is independent of the response of port M and of `last_sent`. -/
theorem Enqueued.update (h : Enqueued bytes s t) (seqM : SeqM) (respM : List (List Byte)) (lastSent : Word32) :
    Enqueued bytes s { t with seqM := seqM, respM := respM, lastSent := lastSent } := by
  obtain ⟨hcont, hw, hflight, hempty, hstart, herr, hread, hsame⟩ := h
  refine ⟨hcont, hw, hflight, hempty, hstart, herr, hread, ?_⟩
  rw [SameButEnqueue] at hsame ⊢
  rw [hsame]

/-- What a whole enqueue may write (R161). -/
theorem enqueueWhole_frame (hc : Consistent s) :
    (enqueueWhole bytes s).1 =
      { s with
        txStore := (enqueueWhole bytes s).1.txStore, txW := (enqueueWhole bytes s).1.txW,
        tip := (enqueueWhole bytes s).1.tip, txUlen := (enqueueWhole bytes s).1.txUlen,
        errflags := (enqueueWhole bytes s).1.errflags, trace := (enqueueWhole bytes s).1.trace } := by
  by_cases h : s.cfg.txMode = .bulk ∧ s.tip = true
  · rw [enqueueWhole, if_pos h]
    rfl
  · obtain ⟨hframe, -⟩ := appendWhole_spec bytes s hc.T_ge hc.txW_lt hc.txR_lt
    rw [enqueueWhole_accepted hc h, startWhole, hframe]
    split <;> rfl

/-- A whole enqueue that is accepted does what `Enqueued` says: step (d) changes nothing, or issues one unit. -/
theorem enqueued_enqueueWhole (hc : Consistent s) (h : ¬ (s.cfg.txMode = .bulk ∧ s.tip = true)) :
    Enqueued bytes s (enqueueWhole bytes s).1 := by
  have hsame : SameButEnqueue s (enqueueWhole bytes s).1 := by
    rw [SameButEnqueue, enqueueWhole_frame hc]
  rw [enqueueWhole_accepted hc h] at hsame ⊢
  obtain ⟨hframe, -, hcount, hw, hcont, hread⟩ := appendWhole_spec bytes s hc.T_ge hc.txW_lt hc.txR_lt
  rw [hcount] at hw hcont hread
  generalize (appendWhole bytes s).1 = a at hframe hw hcont hread hsame
  have hcfg : a.cfg = s.cfg := by rw [hframe]
  have htip : a.tip = s.tip := by rw [hframe]
  have hulen : a.txUlen = s.txUlen := by rw [hframe]
  have htrace : a.trace = s.trace := by rw [hframe]
  have hr : a.txR < a.cfg.T := by
    rw [hframe]
    exact hc.txR_lt
  by_cases hquiet : a.tip = true ∨ a.txContents = []
  · rw [startWhole_none hquiet hr] at hsame ⊢
    refine ⟨hcont, hw, fun ht => ⟨htip.trans ht, hulen, htrace⟩, fun ht _ => ⟨htip.trans ht, hulen, htrace⟩,
      fun ht hne => ?_, rfl, hread, hsame⟩
    rcases hquiet with hflight | hempty
    · rw [htip, ht] at hflight
      cases hflight
    · exact absurd hempty hne
  · obtain ⟨hidle, hne⟩ := not_or.mp hquiet
    have hidle : a.tip = false := Bool.eq_false_iff.mpr hidle
    rw [startWhole_unit hidle hne hr] at hsame ⊢
    refine ⟨hcont, hw, fun ht => ?_, fun _ hempty => absurd hempty hne, fun _ _ => ⟨rfl, ?_, ?_⟩, rfl, hread,
      hsame⟩
    · rw [← htip, hidle] at ht
      cases ht
    · rw [← hcfg]
      exact unitLength_eq a
    · rw [← htrace]
      rfl

end Enqueue

/-- Settles O27: an ENQ left alone is `enqueueWhole`, which does what `Enqueued` says. -/
theorem enqAppendsAndStarts : Obligations.EnqAppendsAndStarts := by
  intro s bytes hs hmain hu haccept
  have hframe := enqueueWhole_frame (bytes := bytes) hs.1
  have hlast : (enqueueWhole bytes s).1.lastSent = s.lastSent := by rw [hframe]
  have hresp : (enqueueWhole bytes s).1.respM = s.respM := by rw [hframe]
  refine ⟨_, exec_enq_undisturbed hs hmain hu, (enqueued_enqueueWhole hs.1 haccept).update .., rfl, hlast, ?_⟩
  rw [State.respondM_respM, hresp, enqueueWhole_accepted hs.1 haccept]
  rfl

/-- Settles O28: the first action of the enqueue answers BUSY, and nothing follows it. -/
theorem enqRejectedBusy : Obligations.EnqRejectedBusy := by
  intro s bytes hmain hmode htip
  have hfirst : mainAction (s.goto (.enq0 .enq bytes)) = .next ((s.flag .txbusy).respondM (respEnqueue stTxBusy 0)) :=
    calc mainAction (s.goto (.enq0 .enq bytes))
      _ = .next (((s.flag .txbusy).goto (.enq0 .enq bytes)).respond (respEnqueue stTxBusy 0)) :=
        if_pos ⟨hmode, htip⟩
      _ = .next ((s.flag .txbusy).respondM (respEnqueue stTxBusy 0)) :=
        congrArg _ (respond_goto (s := s.flag .txbusy) hmain.1 _)
  rw [exec_enq hmain, resumeMain, show mainCost (s.goto (.enq0 .enq bytes)) = 2 * bytes.length + 2 + 1 from rfl,
    runMain_end hfirst rfl, respondM_of_idle (s := s.flag .txbusy) hmain.2]
  rfl

end Sys2Proof.Machine

namespace Sys2Proof.Machine

/-! ### The state in which port M begins a command that is left alone -/

/-- Port M begins a command in a consistent state, and nothing from outside lands in it. -/
structure MainReady (s : State) : Prop where
  consistent : Consistent s
  main : AtMain s
  undisturbed : Undisturbed s

section Ready
variable {s t : State} {p : SeqM} {b : Byte} {bytes : List Byte} {r : FeedResult}

/-- An idle port M with nothing in flight leaves no byte in the queue (R46 (g)). -/
theorem MainReady.empty_of (h : MainReady s) (htip : s.tip = false) : s.txW = s.txR :=
  h.consistent.empty_of (by rw [h.main.2]; rfl) htip

/-- Port M may stand at any position whose local values fit the state. -/
theorem MainReady.goto (h : MainReady s) (hok : p.ok s) : Consistent (s.goto p) :=
  h.consistent.goto hok fun _ => h.empty_of

/-- An operation that is left alone goes on from the state its next action answers. -/
theorem MainReady.resumeMain_go (h : MainReady s) (hok : p.ok s) (hp : p.isIdle = false)
    (ht : mainAction (s.goto p) = .next t) (hi : t.seqM.isIdle = false) : resumeMain (s.goto p) = resumeMain t :=
  Machine.resumeMain_go (h.goto hok) h.main.1 hp (h.undisturbed.goto p) ht hi

theorem emitGpio_eq (m : List Byte) (s : State) :
    emitGpio m s = { s with trace := s.trace ++ (gpioFor s.cfg m).toList } := by
  rw [emitGpio]
  cases gpioFor s.cfg m with
  | none => rw [Option.toList_none, List.append_nil]
  | some e => rfl

theorem MainReady.emitGpio (h : MainReady s) (m : List Byte) : MainReady (emitGpio m s) := by
  rw [emitGpio_eq]
  exact ⟨h.consistent.update .., h.main, h.undisturbed⟩

theorem MainReady.feedWhole (h : MainReady s) (hfeed : feedWhole b s = (t, r)) : MainReady t := by
  have hf : feed b s = .next (t, r) := by rw [feedWhole_eq h.consistent.lfFill_lt, hfeed]
  obtain ⟨u, fr, hu, hc⟩ := h.consistent.feed (b := b)
  cases hf.symm.trans hu
  obtain ⟨hF, -, hseqM, -⟩ := feed_frame h.consistent.lfFill_lt hf
  exact ⟨hc, ⟨hF.seqI.trans h.main.1, hseqM.trans h.main.2⟩, hF.undisturbed h.undisturbed⟩

theorem MainReady.enqueueWhole (h : MainReady s) : MainReady (enqueueWhole bytes s).1 := by
  have hfirst : mainAction (s.goto (.enq0 .enq bytes)) = enqueue .enq bytes s :=
    enqueue_goto h.main.1 h.consistent.txW_lt ..
  obtain ⟨-, -, -, hc, hM, hI, hu⟩ :=
    resumeMain_enqueue .enq bytes s h.consistent h.main.2 h.main.1 h.undisturbed _
      (h.goto (p := .enq0 .enq bytes) trivial) h.main.1 rfl (h.undisturbed.goto _) hfirst
  exact ⟨hc, ⟨hI, hM⟩, hu⟩

/-- An enqueue into an idle queue, of bytes that fit it, queues them all and issues the first unit (R161, R164). -/
theorem MainReady.enqueueWhole_fits {st : Byte} {n : Nat} (h : MainReady s) (htip : s.tip = false) (hne : bytes ≠ [])
    (hfit : bytes.length ≤ s.cfg.T - 1) (hq : Machine.enqueueWhole bytes s = (t, st, n)) :
    st = stOk ∧ t.txContents = bytes ∧ t.tip = true ∧ t.errflags = s.errflags ∧
      t.trace = s.trace ++ [.txUnit (bytes.take (if s.cfg.txMode = .byte then 1 else bytes.length))] := by
  have haccept : ¬ (s.cfg.txMode = .bulk ∧ s.tip = true) := fun hb => by simp [htip] at hb
  have hempty : s.txContents = [] := (txContents_eq_nil h.consistent.txR_lt).mpr (h.empty_of htip)
  have hroom : s.txRoom bytes.length = bytes.length := by
    rw [State.txRoom, ← txContents_length, hempty]
    exact Nat.min_eq_left hfit
  obtain ⟨hcont, -, -, -, hstart, herr, -, -⟩ := enqueued_enqueueWhole (bytes := bytes) h.consistent haccept
  have hst := congrArg (·.2.1) (enqueueWhole_accepted (bytes := bytes) h.consistent haccept)
  simp only [hq, hroom, hempty, List.nil_append, List.take_length, if_true] at hcont hstart herr hst
  obtain ⟨htip', hunit, htrace⟩ := hstart htip (hcont ▸ hne)
  exact ⟨hst, hcont, htip', herr, by rw [htrace, hunit, hcont]⟩

end Ready

/-! ### RXBYTE (R191) -/

/-- On an armed receiver RXBYTE is a push and a re-arming, in the one action of port I. -/
theorem exec_rxbyte_armed {s t : State} {b : Byte} (h : AtInterrupt s) (harmed : s.rxArmed = true)
    (ht : push b s = .next t) : exec (.rxbyte b) s = .next ((t.emit .armRx).respondI [pushStatus s]) := by
  obtain ⟨hpush, hrearm, hseqI⟩ : push b { s with rxArmed := false } = .next { t with rxArmed := false } ∧
      t.rxArmed = true ∧ t.seqI = .executing := by
    rcases push_cases ht with ⟨hfull, rfl⟩ | ⟨hroom, hw, rfl⟩
    · exact ⟨push_full (s := { s with rxArmed := false }) hfull, harmed, h⟩
    · exact ⟨push_room (s := { s with rxArmed := false }) hroom hw, harmed, h⟩
  rw [exec, execRxbyte, accept_of_atInterrupt h rfl, if_neg (by simp [harmed]), rxStore, hpush, andThen_next,
    respond_of_executing (by exact hseqI)]
  dsimp only
  rw [← hrearm]

/-- Settles O33: with the receiver armed, one case for each result of the push. -/
theorem rxbyteResult : Obligations.RxbyteResult := by
  intro s b hint hw
  by_cases harmed : s.rxArmed = false
  · rw [exec, execRxbyte, accept_of_atInterrupt hint rfl, if_pos harmed, if_pos harmed]
    exact congrArg Host.Outcome.next (respond_of_executing hint)
  rw [if_neg harmed]
  have harmed := Bool.eq_true_of_not_eq_false harmed
  by_cases hfull : incIdx s.cfg.N s.rxW = s.rxR
  · have hf : ringFull s.cfg.N s.rxW s.rxR = true := decide_eq_true hfull
    rw [exec_rxbyte_armed hint harmed (push_full hf), pushStatus, if_pos hf, if_pos hfull]
    rfl
  · have hf : ringFull s.cfg.N s.rxW s.rxR = false := ringFull_eq_false.mpr hfull
    rw [exec_rxbyte_armed hint harmed (push_room hf hw), pushStatus, hf, if_neg hfull]
    rfl

/-! ### POLL (R193 to R196) -/

section Poll
variable {s t : State} {l k : PollLocals} {v : Byte} {m bytes rest : List Byte} {r : FeedResult}

/-- The state after `pop()` has released the oldest byte's slot (R123 (c)). -/
def State.popped (s : State) : State := { s with rxR := incIdx s.cfg.N s.rxR }

theorem MainReady.popped (h : MainReady s) : MainReady s.popped :=
  have hc := h.consistent.advance (p := .idle) (by rw [h.main.2]; rfl) trivial
  ⟨goto_idle_self (s := s.popped) h.main.2 ▸ hc, h.main, h.undisturbed⟩

/-- A ring that holds bytes holds the oldest one in the slot `rx_r` names (R24), and the others are left when it is
popped. -/
theorem Consistent.rxContents_cons (h : Consistent s) (hcont : s.rxContents = v :: rest) :
    s.rxW ≠ s.rxR ∧ s.slot .rxs s.rxR = v ∧ s.popped.rxContents = rest := by
  have hne : s.rxW ≠ s.rxR := fun he => by
    rw [State.rxContents_eq, he, ringBytes_empty] at hcont
    cases hcont
  rw [State.rxContents, State.rxCount, ringSlots_tail h.rxW_lt h.rxR_lt hne, List.map_cons] at hcont
  obtain ⟨hhead, htail⟩ := List.cons.inj hcont
  exact ⟨hne, hhead, htail⟩

theorem rxContents_length (s : State) : s.rxContents.length = s.rxCount := by simp [State.rxContents, ringSlots]

theorem Consistent.rxContents_nil (h : Consistent s) : s.rxContents = [] ↔ s.rxW = s.rxR := by
  rw [← List.length_eq_zero_iff, rxContents_length, h.rxCount_eq_zero]

/-! One equation of `pollByteWhole` for each result of FEED. -/

theorem pollByteWhole_none (h : feedWhole v s.popped = (t, .none)) :
    pollByteWhole v (s, l) = (t, { l with drained := l.drained + 1 }) := by
  rw [State.popped] at h
  simp only [pollByteWhole, h]

theorem pollByteWhole_msg (h : feedWhole v s.popped = (t, .msg m)) :
    pollByteWhole v (s, l) =
      ((enqueueWhole (replyFor t.cfg m) (emitGpio m t)).1,
        ⟨l.drained + 1, l.dispatched + 1,
          l.errors ||| pollErrBit (enqueueWhole (replyFor t.cfg m) (emitGpio m t)).2.1⟩) := by
  rw [State.popped] at h
  simp only [pollByteWhole, h]

theorem pollByteWhole_overflow (h : feedWhole v s.popped = (t, .overflow)) :
    pollByteWhole v (s, l) =
      ((enqueueWhole textTooLong t).1,
        ⟨l.drained + 1, l.dispatched,
          (l.errors ||| 0x02#8) ||| pollErrBit (enqueueWhole textTooLong t).2.1⟩) := by
  rw [State.popped] at h
  simp only [pollByteWhole, h]

/-- FEED answers the same wherever the sequencer stands. -/
theorem MainReady.feed_goto (h : MainReady s) (hfeed : Machine.feedWhole v s = (t, r)) (p : SeqM) :
    feed v (s.goto p) = .next (t.goto p, r) := by
  rw [feedWhole_eq (s := s.goto p) h.consistent.lfFill_lt, feedWhole_goto, hfeed]

/-- POLL at the top of its loop, on an empty ring: `pop()` finds no byte and POLL answers. -/
theorem resumeMain_poll_empty (h : MainReady s) (hempty : s.rxW = s.rxR) :
    resumeMain (s.goto (.popA (.poll l))) = .next (s.respondM (respPoll l)) := by
  have hanswer : mainAction (s.goto (.popB (.poll l) s.rxW)) = .next (s.respondM (respPoll l)) :=
    calc mainAction (s.goto (.popB (.poll l) s.rxW))
      _ = .next (popNone (.poll l) (s.goto (.popB (.poll l) s.rxW))) := if_pos (decide_eq_true hempty)
      _ = .next (s.respondM (respPoll l)) := congrArg _ (respond_goto h.main.1 _)
  calc resumeMain (s.goto (.popA (.poll l)))
    _ = resumeMain (s.goto (.popB (.poll l) s.rxW)) := h.resumeMain_go trivial rfl rfl rfl
    _ = .next (s.respondM (respPoll l)) :=
      resumeMain_end (h.goto (p := .popB (.poll l) s.rxW) ⟨h.consistent.rxW_lt, le_rfl⟩) rfl hanswer rfl

/-- POLL at the top of its loop, on a ring that holds a byte: `pop()` takes the oldest. -/
theorem resumeMain_poll_pop (h : MainReady s) (hcont : s.rxContents = v :: rest) :
    resumeMain (s.goto (.popA (.poll l))) =
      resumeMain (s.popped.goto (.pollFeed { l with drained := l.drained + 1 } v)) := by
  obtain ⟨hne, hv, -⟩ := h.consistent.rxContents_cons hcont
  have hslot : memRead .rxs s.rxR (s.goto (.popB (.poll l) s.rxW)) = .next v := hv ▸ memRead_of_lt h.consistent.rxR_lt
  have hread : mainAction (s.goto (.popB (.poll l) s.rxW)) = .next (s.goto (.popC (.poll l) v)) :=
    calc mainAction (s.goto (.popB (.poll l) s.rxW))
      _ = andThen (memRead .rxs s.rxR (s.goto (.popB (.poll l) s.rxW))) fun u => .next (s.goto (.popC (.poll l) u)) :=
        if_neg (Bool.eq_false_iff.mp (ringEmpty_eq_false.mpr hne))
      _ = .next (s.goto (.popC (.poll l) v)) := by rw [hslot, andThen_next]
  calc resumeMain (s.goto (.popA (.poll l)))
    _ = resumeMain (s.goto (.popB (.poll l) s.rxW)) := h.resumeMain_go trivial rfl rfl rfl
    _ = resumeMain (s.goto (.popC (.poll l) v)) := h.resumeMain_go ⟨h.consistent.rxW_lt, le_rfl⟩ rfl hread rfl
    _ = resumeMain (s.popped.goto (.pollFeed { l with drained := l.drained + 1 } v)) :=
      h.resumeMain_go ⟨hne, hv.symm⟩ rfl rfl rfl

/-! The action after `pop()`, for each result of FEED. -/

theorem mainAction_pollFeed_none (h : MainReady s) (hfeed : feedWhole v s = (t, .none)) :
    mainAction (s.goto (.pollFeed l v)) = .next (t.goto (.popA (.poll l))) :=
  calc mainAction (s.goto (.pollFeed l v))
    _ = pollByte l v (s.goto (.pollFeed l v)) := rfl
    _ = .next (t.goto (.popA (.poll l))) := by
      rw [pollByte, h.feed_goto hfeed, andThen_next]
      rfl

theorem mainAction_pollFeed_msg (h : MainReady s) (hfeed : feedWhole v s = (t, .msg m)) :
    mainAction (s.goto (.pollFeed l v)) =
      enqueue (.poll { l with dispatched := l.dispatched + 1 }) (replyFor t.cfg m) (emitGpio m t) := by
  have ht := (h.feedWhole hfeed).emitGpio m
  calc mainAction (s.goto (.pollFeed l v))
    _ = pollByte l v (s.goto (.pollFeed l v)) := rfl
    _ = dispatch l m (t.goto (.pollFeed l v)) := by rw [pollByte, h.feed_goto hfeed, andThen_next]
    _ = enqueue (.poll { l with dispatched := l.dispatched + 1 }) (replyFor t.cfg m) (emitGpio m t) := by
      rw [dispatch, emitGpio_goto, State.goto_cfg, enqueue_goto ht.main.1 ht.consistent.txW_lt]

theorem mainAction_pollFeed_overflow (h : MainReady s) (hfeed : feedWhole v s = (t, .overflow)) :
    mainAction (s.goto (.pollFeed l v)) = enqueue (.poll { l with errors := l.errors ||| 0x02#8 }) textTooLong t := by
  have ht := h.feedWhole hfeed
  calc mainAction (s.goto (.pollFeed l v))
    _ = pollByte l v (s.goto (.pollFeed l v)) := rfl
    _ = enqueue (.poll { l with errors := l.errors ||| 0x02#8 }) textTooLong (t.goto (.pollFeed l v)) := by
      rw [pollByte, h.feed_goto hfeed, andThen_next]
    _ = enqueue (.poll { l with errors := l.errors ||| 0x02#8 }) textTooLong t :=
      enqueue_goto ht.main.1 ht.consistent.txW_lt ..

/-- The enqueue of a POLL, left alone, leads back to the top of the loop with its error bit (R193). -/
theorem resumeMain_poll_enqueue {z : State} (h : MainReady s) (hz : MainReady z)
    (haction : mainAction (z.goto (.pollFeed k v)) = enqueue (.poll l) bytes s) :
    resumeMain (z.goto (.pollFeed k v)) =
      resumeMain ((enqueueWhole bytes s).1.goto
        (.popA (.poll { l with errors := l.errors ||| pollErrBit (enqueueWhole bytes s).2.1 }))) := by
  obtain ⟨-, hrun, -⟩ :=
    resumeMain_enqueue (.poll l) bytes s h.consistent h.main.2 h.main.1 h.undisturbed _
      (hz.goto (p := .pollFeed k v) trivial) hz.main.1 rfl (hz.undisturbed.goto _) haction
  exact hrun rfl

/-- One pass of POLL's loop is `pollByteWhole` of the oldest byte (R193 to R196): one case for each result of FEED. -/
theorem resumeMain_poll_pass (h : MainReady s) (hcont : s.rxContents = v :: rest) :
    resumeMain (s.goto (.popA (.poll l))) =
      resumeMain ((pollByteWhole v (s, l)).1.goto (.popA (.poll (pollByteWhole v (s, l)).2))) := by
  rw [resumeMain_poll_pop h hcont]
  rcases hfeed : feedWhole v s.popped with ⟨t, r⟩
  have ht := h.popped.feedWhole hfeed
  cases r with
  | none =>
    rw [pollByteWhole_none hfeed]
    exact h.popped.resumeMain_go trivial rfl (mainAction_pollFeed_none h.popped hfeed) rfl
  | msg m =>
    rw [pollByteWhole_msg hfeed]
    exact resumeMain_poll_enqueue (l := ⟨l.drained + 1, l.dispatched + 1, l.errors⟩) (ht.emitGpio m) h.popped
      (mainAction_pollFeed_msg h.popped hfeed)
  | overflow =>
    rw [pollByteWhole_overflow hfeed]
    exact resumeMain_poll_enqueue (l := ⟨l.drained + 1, l.dispatched, l.errors ||| 0x02#8⟩) ht h.popped
      (mainAction_pollFeed_overflow h.popped hfeed)

theorem MainReady.pollByteWhole (h : MainReady s) : MainReady (pollByteWhole v (s, l)).1 := by
  rcases hfeed : Machine.feedWhole v s.popped with ⟨t, r⟩
  have ht := h.popped.feedWhole hfeed
  cases r with
  | none => rwa [pollByteWhole_none hfeed]
  | msg m =>
    rw [pollByteWhole_msg hfeed]
    exact (ht.emitGpio m).enqueueWhole
  | overflow =>
    rw [pollByteWhole_overflow hfeed]
    exact ht.enqueueWhole

theorem pollByteWhole_drained : (pollByteWhole v (s, l)).2.drained = l.drained + 1 := by
  rcases hfeed : feedWhole v s.popped with ⟨t, r⟩
  cases r with
  | none => rw [pollByteWhole_none hfeed]
  | msg m => rw [pollByteWhole_msg hfeed]
  | overflow => rw [pollByteWhole_overflow hfeed]

/-- The states differ at most in what the use of a popped byte may write (R193): the framer, what an enqueue of POLL may
write, and the output trace. -/
def SameButByteUse (s t : State) : Prop :=
  t = { s with
    lfBuf := t.lfBuf, lfFill := t.lfFill, lfState := t.lfState, txStore := t.txStore, txW := t.txW, tip := t.tip,
    txUlen := t.txUlen, errflags := t.errflags, trace := t.trace }

theorem SameButByteUse.trans {u : State} (h : SameButByteUse s t) (g : SameButByteUse t u) : SameButByteUse s u := by
  rw [SameButByteUse] at *
  rw [g, h]

theorem sameButByteUse_feedWhole : SameButByteUse s (feedWhole v s).1 := by
  unfold feedWhole
  split
  · rfl
  · split
    · split <;> rfl
    · split <;> rfl

theorem sameButByteUse_emitGpio : SameButByteUse s (emitGpio m s) := by
  rw [SameButByteUse, emitGpio_eq]

theorem sameButByteUse_enqueueWhole (hc : Consistent s) : SameButByteUse s (enqueueWhole bytes s).1 := by
  rw [SameButByteUse, enqueueWhole_frame hc]

theorem sameButByteUse_pollByteWhole (h : MainReady s) :
    SameButByteUse s.popped (pollByteWhole v (s, l)).1 := by
  rcases hfeed : feedWhole v s.popped with ⟨t, r⟩
  have ht := h.popped.feedWhole hfeed
  have hframe : SameButByteUse s.popped t := by
    have hfed := sameButByteUse_feedWhole (s := s.popped) (v := v)
    rwa [hfeed] at hfed
  cases r with
  | none => rwa [pollByteWhole_none hfeed]
  | msg m =>
    rw [pollByteWhole_msg hfeed]
    exact (hframe.trans sameButByteUse_emitGpio).trans (sameButByteUse_enqueueWhole (ht.emitGpio m).consistent)
  | overflow =>
    rw [pollByteWhole_overflow hfeed]
    exact hframe.trans (sameButByteUse_enqueueWhole ht.consistent)

/-- One pass of the loop takes the oldest byte out of the ring. -/
theorem MainReady.rxContents_pollByteWhole (h : MainReady s) (hcont : s.rxContents = v :: rest) :
    (Machine.pollByteWhole v (s, l)).1.rxContents = rest := by
  obtain ⟨-, -, hrest⟩ := h.consistent.rxContents_cons hcont
  have hframe := sameButByteUse_pollByteWhole (v := v) (l := l) h
  rw [SameButByteUse] at hframe
  rw [hframe]
  exact hrest

/-- POLL's loop, left alone, is `pollWhole` of the bytes in the ring (R193). -/
theorem resumeMain_poll (h : MainReady s) (hcont : s.rxContents = bytes) :
    resumeMain (s.goto (.popA (.poll l))) =
      .next ((pollWhole bytes (s, l)).1.respondM (respPoll (pollWhole bytes (s, l)).2)) := by
  induction bytes generalizing s l with
  | nil => exact resumeMain_poll_empty h (h.consistent.rxContents_nil.mp hcont)
  | cons v rest ih =>
    rw [resumeMain_poll_pass h hcont]
    exact ih h.pollByteWhole (h.rxContents_pollByteWhole hcont)

/-- The loop leaves the ring empty, and changes beside `rx_r` only what the use of a popped byte may write. -/
theorem pollWhole_frame (h : MainReady s) (hcont : s.rxContents = bytes) (hr : pollWhole bytes (s, l) = (t, k)) :
    t.rxContents = [] ∧ SameButByteUse { s with rxR := s.rxW } t := by
  induction bytes generalizing s l with
  | nil =>
    obtain ⟨rfl, rfl⟩ := Prod.mk.inj hr
    have hsame : ({ s with rxR := s.rxW } : State) = s :=
      congrArg (fun i => { s with rxR := i }) (h.consistent.rxContents_nil.mp hcont)
    refine ⟨hcont, ?_⟩
    rw [hsame]
    rfl
  | cons v rest ih =>
    obtain ⟨hempty, hframe⟩ := ih h.pollByteWhole (h.rxContents_pollByteWhole hcont) hr
    have hpass := sameButByteUse_pollByteWhole (v := v) (l := l) h
    refine ⟨hempty, SameButByteUse.trans ?_ hframe⟩
    rw [SameButByteUse] at hpass ⊢
    rw [hpass]
    rfl

theorem pollWhole_drained (hr : pollWhole bytes (s, l) = (t, k)) : k.drained = l.drained + bytes.length := by
  induction bytes generalizing s l with
  | nil =>
    cases hr
    rfl
  | cons v rest ih =>
    calc k.drained
      _ = (pollByteWhole v (s, l)).2.drained + rest.length := ih hr
      _ = l.drained + (v :: rest).length := by
        rw [pollByteWhole_drained, List.length_cons]
        omega

/-- Left alone, POLL is its whole loop and its response (R193). -/
theorem exec_poll (h : MainReady s) (hr : pollWhole s.rxContents (s, ⟨0, 0, 0#8⟩) = (t, k)) :
    exec .poll s = .next { t with respM := s.respM ++ [respPoll k] } := by
  have hrun := resumeMain_poll (l := ⟨0, 0, 0#8⟩) h rfl
  obtain ⟨-, hframe⟩ := pollWhole_frame h rfl hr
  rw [SameButByteUse] at hframe
  have hidle : t.seqM = .idle := by
    rw [hframe]
    exact h.main.2
  have hresp : t.respM = s.respM := by rw [hframe]
  rw [hr, respondM_of_idle hidle, hresp] at hrun
  exact (exec_mainEntry (p := .popA (.poll ⟨0, 0, 0#8⟩)) h.main rfl).trans hrun

end Poll

/-- Settles O34: `resumeMain_poll`, by induction on the bytes in the ring, one pass of the loop for each. -/
theorem pollDrainsFramesDispatches : Obligations.PollDrainsFramesDispatches :=
  fun _ hs hmain hu => exec_poll ⟨hs.1, hmain, hu⟩ rfl

/-- Settles O35: `pollWhole_frame` for what is left as it was, `pollWhole_drained` for the count. -/
theorem pollEmptiesRing : Obligations.PollEmptiesRing := by
  intro s hs hmain hu
  have h : MainReady s := ⟨hs.1, hmain, hu⟩
  obtain ⟨⟨t, l⟩, hr⟩ : ∃ r, pollWhole s.rxContents (s, ⟨0, 0, 0#8⟩) = r := ⟨_, rfl⟩
  obtain ⟨hempty, hframe⟩ := pollWhole_frame h rfl hr
  have hdrained : l.drained = s.rxCount := by rw [pollWhole_drained hr, rxContents_length, Nat.zero_add]
  have hrxR : t.rxR = s.rxW := by rw [hframe]
  rw [← hdrained]
  refine ⟨_, l.dispatched, l.errors, exec_poll h hr, hrxR, hempty, rfl, ?_⟩
  rw [SameButByteUse] at hframe
  rw [hframe]

/-! ### POLL of one byte that calls for an enqueue (R195, R196, R199) -/

section OneByte
variable {s w : State} {v : Byte} {bytes : List Byte}

/-- POLL of a ring with one byte, of which FEED makes a message or an overflow: `bytes` are enqueued in state `w`, where the
queue is idle and has room for them. -/
theorem exec_poll_one_byte {g : Nat} {e : Byte} (h : MainReady s) (hcont : s.rxContents = [v])
    (hpass : pollByteWhole v (s, ⟨0, 0, 0#8⟩) =
      ((enqueueWhole bytes w).1, ⟨1, g, e ||| pollErrBit (enqueueWhole bytes w).2.1⟩))
    (hw : MainReady w) (htip : w.tip = false) (hne : bytes ≠ []) (hfit : bytes.length ≤ w.cfg.T - 1) :
    ∃ t, exec .poll s = .next t ∧ t.txContents = bytes ∧ t.tip = true ∧ t.lfFill = w.lfFill ∧ t.lfState = w.lfState ∧
      t.errflags = w.errflags ∧
      t.trace = w.trace ++ [.txUnit (bytes.take (if w.cfg.txMode = .byte then 1 else bytes.length))] ∧
      t.respM = s.respM ++ [[0x00#8, 0x01#8, 0x00#8, BitVec.ofNat 8 g, BitVec.ofNat 8 (g / 256), e]] := by
  have hframe := enqueueWhole_frame (bytes := bytes) hw.consistent
  obtain ⟨⟨t, st, n⟩, hq⟩ : ∃ r, enqueueWhole bytes w = r := ⟨_, rfl⟩
  obtain ⟨rfl, hqueue, htip', herr, htrace⟩ := hw.enqueueWhole_fits htip hne hfit hq
  rw [hq] at hpass hframe
  have hr : pollWhole s.rxContents (s, ⟨0, 0, 0#8⟩) = (t, ⟨1, g, e⟩) := by
    rw [hcont, pollWhole, pollWhole, hpass, show pollErrBit stOk = 0#8 from rfl, BitVec.or_zero]
  have hfill := congrArg State.lfFill hframe
  have hstate := congrArg State.lfState hframe
  refine ⟨_, exec_poll h hr, hqueue, htip', hfill, hstate, herr, htrace, ?_⟩
  simp only [respPoll, le16Bytes]
  rfl

/-- Every reply ends in `\r\n` (R197). -/
theorem replyFor_ne_nil {c : Config} (hc : c.wf) (m : List Byte) : replyFor c m ≠ [] := by
  obtain ⟨-, -, -, -, ⟨-, hhelp⟩, ⟨-, hledOn⟩, ⟨-, hledOff⟩, ⟨-, hping⟩, ⟨-, hversion⟩⟩ := hc
  have hne : ∀ x : List Byte, x.drop (x.length - 2) = [charCR, charLF] → x ≠ [] := by
    rintro x hx rfl
    cases hx
  unfold replyFor
  split
  · decide
  split
  · decide
  split
  · exact hne _ hhelp
  split
  · exact hne _ hledOn
  split
  · exact hne _ hledOff
  split
  · exact hne _ hping
  split
  · exact hne _ hversion
  · decide

/-- FEED of the `\n` of a line (R145). -/
theorem feedWhole_line (hpos : 0 < s.lfFill) : feedWhole charLF s =
    ({ s with lfBuf := s.lfBuf.write s.lfFill 0x00#8, lfFill := 0, lfState := .idle }, .msg s.lineContents) := by
  rw [feedWhole, if_neg (by decide), if_pos rfl, if_pos hpos]

/-- FEED of an ordinary byte at `lf_fill == M-1` (R144). -/
theorem feedWhole_overflow (hr : v ≠ charCR) (hn : v ≠ charLF) (hfull : s.lfFill = s.cfg.M - 1) :
    feedWhole v s = ({ s.flag .lineovf with lfFill := 0, lfState := .overflowed }, .overflow) := by
  rw [feedWhole, if_neg hr, if_neg hn, if_neg hfull.not_lt]

/-- POLL of a ring that holds the `\n` of a line, when the reply fits the idle queue (R196, R199). -/
theorem exec_poll_line {reply : List Byte} {ev : List Event} (h : MainReady s) (hcont : s.rxContents = [charLF])
    (hpos : 0 < s.lfFill) (htip : s.tip = false) (hreply : replyFor s.cfg s.lineContents = reply)
    (hev : (gpioFor s.cfg s.lineContents).toList = ev) (hfit : reply.length ≤ s.cfg.T - 1) :
    ∃ t, exec .poll s = .next t ∧ t.txContents = reply ∧ t.tip = true ∧ t.lfFill = 0 ∧ t.errflags = s.errflags ∧
      t.trace = s.trace ++ ev ++ [.txUnit (reply.take (if s.cfg.txMode = .byte then 1 else reply.length))] ∧
      t.respM = s.respM ++ [[0x00#8, 0x01#8, 0x00#8, 0x01#8, 0x00#8, 0x00#8]] := by
  have hfeed := feedWhole_line (s := s.popped) hpos
  have hw := (h.popped.feedWhole hfeed).emitGpio s.lineContents
  have hpass := pollByteWhole_msg (l := ⟨0, 0, 0#8⟩) hfeed
  subst hreply hev
  rw [emitGpio_eq] at hw hpass
  obtain ⟨t, ht, hqueue, htip', hfill, -, herr, htrace, hresp⟩ :=
    exec_poll_one_byte (e := 0#8) h hcont hpass hw htip (replyFor_ne_nil h.consistent.cfg_wf _) hfit
  exact ⟨t, ht, hqueue, htip', hfill, herr, htrace, hresp⟩

end OneByte

/-! The rows of R196 and R199. -/

section Table
variable {c : Config} {m : List Byte}

theorem replyFor_heartbeat : replyFor c textHeartbeat = textHeartbeatReply := if_pos rfl

theorem gpioFor_heartbeat : gpioFor c textHeartbeat = none := by
  rw [gpioFor]
  cases c.dispatchMode <;> rfl

theorem replyFor_echo (hmode : c.dispatchMode = .echo) (hm : m ≠ textHeartbeat) : replyFor c m = textEcho := by
  rw [replyFor, if_neg hm, hmode]

theorem gpioFor_echo (hmode : c.dispatchMode = .echo) : gpioFor c m = none := by rw [gpioFor, hmode]

theorem replyFor_command (hmode : c.dispatchMode = .command) :
    replyFor c textHelp = c.replyHelp ∧ replyFor c textLedOn = c.replyLedOn ∧ replyFor c textLedOff = c.replyLedOff ∧
      replyFor c textPing = c.replyPing ∧ replyFor c textVersion = c.replyVersion := by
  simp only [replyFor, hmode]
  exact ⟨rfl, rfl, rfl, rfl, rfl⟩

theorem gpioFor_command (hmode : c.dispatchMode = .command) :
    gpioFor c textLedOn = some (.gpio c.ledPin true) ∧ gpioFor c textLedOff = some (.gpio c.ledPin false) := by
  simp only [gpioFor, hmode]
  exact ⟨rfl, rfl⟩

theorem gpioFor_not_led (hon : m ≠ textLedOn) (hoff : m ≠ textLedOff) : gpioFor c m = none := by
  rw [gpioFor]
  cases c.dispatchMode with
  | echo => rfl
  | command => rw [if_neg hon, if_neg hoff]

theorem replyFor_unknown (hmode : c.dispatchMode = .command)
    (hm : m ∉ [textHeartbeat, textHelp, textLedOn, textLedOff, textPing, textVersion]) : replyFor c m = textUnknown := by
  simp only [List.mem_cons, List.not_mem_nil, or_false, not_or] at hm
  obtain ⟨hheartbeat, hhelp, hledOn, hledOff, hping, hversion⟩ := hm
  simp only [replyFor, hmode, hheartbeat, hhelp, hledOn, hledOff, hping, hversion, if_false]

end Table

/-- Settles O36: `exec_poll_line`, for the reply and the GPIO event of each line in the table of R196. -/
theorem pollAnswersEachLine : Obligations.PollAnswersEachLine := by
  intro s hs hmain hu hcont hpos htip answers
  have row : ∀ {m reply ev}, s.lineContents = m → replyFor s.cfg m = reply → (gpioFor s.cfg m).toList = ev →
      answers reply ev := fun hm hreply hev =>
    exec_poll_line ⟨hs.1, hmain, hu⟩ hcont hpos htip (hm ▸ hreply) (hm ▸ hev)
  have silent : ∀ {m reply}, s.lineContents = m → replyFor s.cfg m = reply → gpioFor s.cfg m = none →
      answers reply [] := fun hm hreply hev => row hm hreply (by rw [hev]; rfl)
  refine ⟨fun hm => silent hm replyFor_heartbeat gpioFor_heartbeat,
    fun hm hmode => silent rfl (replyFor_echo hmode hm) (gpioFor_echo hmode), fun hmode => ?_⟩
  obtain ⟨hhelp, hledOn, hledOff, hping, hversion⟩ := replyFor_command hmode
  obtain ⟨hon, hoff⟩ := gpioFor_command hmode
  refine ⟨fun hm => silent hm hhelp (gpioFor_not_led (by decide) (by decide)),
    fun hm => row hm hledOn (by rw [hon]; rfl), fun hm => row hm hledOff (by rw [hoff]; rfl),
    fun hm => silent hm hping (gpioFor_not_led (by decide) (by decide)),
    fun hm => silent hm hversion (gpioFor_not_led (by decide) (by decide)),
    fun hm => silent rfl (replyFor_unknown hmode hm) (gpioFor_not_led (fun he => hm ?_) (fun he => hm ?_))⟩
  · rw [he]
    decide
  · rw [he]
    decide

/-- Settles O37: FEED drops the byte and reports the overflow, and the diagnostic is what POLL enqueues. -/
theorem pollReportsLineOverflow : Obligations.PollReportsLineOverflow := by
  intro s b hs hmain hu hcont hr hn hfull htip hfit
  have h : MainReady s := ⟨hs.1, hmain, hu⟩
  have hfeed := feedWhole_overflow (s := s.popped) hr hn hfull
  have hpass := pollByteWhole_overflow (l := ⟨0, 0, 0#8⟩) hfeed
  obtain ⟨t, ht, hqueue, -, hfill, hstate, herr, -, hresp⟩ :=
    exec_poll_one_byte (e := 0x02#8) h hcont hpass (h.popped.feedWhole hfeed) htip (by decide) hfit
  exact ⟨t, ht, hqueue, hfill, hstate, herr, hresp⟩

/-! ### TICK (R203, R204) -/

section Tick
variable {s : State} {now : Word32}

/-- TICK is begun at its test (R203). -/
theorem exec_tick (h : AtMain s) : exec (.tick now) s = resumeMain (s.goto (.tickA now)) :=
  exec_mainEntry (p := .tickA now) h rfl

/-- `sub32` (R12) wraps at 2^32. -/
theorem tickDue_iff : tickDue now s = true ↔
    s.cfg.interval.toNat ≤ (now.toNat + (2 ^ 32 - s.lastSent.toNat)) % 2 ^ 32 := by
  rw [tickDue, decide_eq_true_iff, BitVec.toNat_sub, Nat.add_comm]

/-- A TICK ends with an action that answers at once. -/
theorem exec_tick_end {t : State} (h : AtMain s) (ht : tickStart now (s.goto (.tickA now)) = .next t)
    (hidle : t.seqM = .idle) : exec (.tick now) s = .next t := by
  rw [exec_tick h, resumeMain, show mainCost (s.goto (.tickA now)) = 2 * s.cfg.statusMsg.length + 3 + 1 from rfl]
  exact runMain_end ht (by rw [hidle]; rfl)

/-- Left alone, a TICK that is due is one whole enqueue of `STATUS_MSG`, `last_sent` and its response (R203). -/
theorem exec_tick_due (h : MainReady s) (hdue : tickDue now s = true) :
    exec (.tick now) s =
      .next (State.respondM { (enqueueWhole s.cfg.statusMsg s).1 with lastSent := now }
        (respEnqueue (enqueueWhole s.cfg.statusMsg s).2.1 (enqueueWhole s.cfg.statusMsg s).2.2)) := by
  have hfirst : mainAction (s.goto (.tickA now)) = enqueue (.tick now) s.cfg.statusMsg s :=
    calc mainAction (s.goto (.tickA now))
      _ = enqueue (.tick now) s.cfg.statusMsg (s.goto (.tickA now)) := if_pos hdue
      _ = enqueue (.tick now) s.cfg.statusMsg s := enqueue_goto h.main.1 h.consistent.txW_lt ..
  obtain ⟨hrun, -⟩ :=
    resumeMain_enqueue (.tick now) s.cfg.statusMsg s h.consistent h.main.2 h.main.1 h.undisturbed _
      (h.goto (p := .tickA now) trivial) h.main.1 rfl (h.undisturbed.goto _) hfirst
  rw [enqueueEnd, respond_of_idle (by exact h.enqueueWhole.main.1)] at hrun
  rw [exec_tick h.main, hrun rfl]

end Tick

/-- Settles O38: a due TICK left alone is `enqueueWhole` of `STATUS_MSG`, which does what `Enqueued` says. -/
theorem tickDueSendsStatus : Obligations.TickDueSendsStatus := by
  intro s now hs hmain hu haccept hdue
  have hexec := exec_tick_due ⟨hs.1, hmain, hu⟩ (tickDue_iff.mpr hdue)
  have hresp := congrArg State.respM (enqueueWhole_frame (bytes := s.cfg.statusMsg) hs.1)
  refine ⟨_, hexec, (enqueued_enqueueWhole hs.1 haccept).update .., rfl, rfl, ?_⟩
  rw [State.respondM_respM, hresp, enqueueWhole_accepted hs.1 haccept]
  rfl

/-- Settles O39: the first action of TICK answers NONE when it is not due, BUSY when the enqueue is rejected. -/
theorem tickNotDueOrBusy : Obligations.TickNotDueOrBusy := by
  intro s now hmain
  refine ⟨fun hearly => ?_, fun hdue hmode htip => ?_⟩
  · have hnone : tickStart now (s.goto (.tickA now)) = .next (s.respondM [stNone]) :=
      calc tickStart now (s.goto (.tickA now))
        _ = .next ((s.goto (.tickA now)).respond [stNone]) := if_neg fun hdue => hearly.not_ge (tickDue_iff.mp hdue)
        _ = .next (s.respondM [stNone]) := congrArg _ (respond_goto hmain.1 _)
    rw [exec_tick_end hmain hnone rfl, respondM_of_idle hmain.2]
    rfl
  · have hbusy : tickStart now (s.goto (.tickA now)) =
        .next (State.respondM { s.flag .txbusy with lastSent := now } (respEnqueue stTxBusy 0)) :=
      calc tickStart now (s.goto (.tickA now))
        _ = enqueue (.tick now) s.cfg.statusMsg (s.goto (.tickA now)) := if_pos (tickDue_iff.mpr hdue)
        _ = .next (enqueueEnd (.tick now) stTxBusy 0 ((s.flag .txbusy).goto (.tickA now))) := if_pos ⟨hmode, htip⟩
        _ = .next (enqueueEnd (.tick now) stTxBusy 0 (s.flag .txbusy)) :=
          congrArg _ (enqueueEnd_goto (s := s.flag .txbusy) hmain.1 ..)
        _ = .next (State.respondM { s.flag .txbusy with lastSent := now } (respEnqueue stTxBusy 0)) :=
          congrArg _ (respond_of_idle (by exact hmain.1))
    rw [exec_tick_end hmain hbusy rfl, respondM_of_idle (by exact hmain.2)]
    rfl

end Sys2Proof.Machine

namespace Sys2Proof.Machine

/-! ### RESET and the hardware reset input (R220, R280, R281) -/

section Reset
variable {s : State}

/-- A raised reset input acts before anything else at a scheduling point. -/
theorem step_hardwareReset (hI : s.seqI = .idle) (hr : s.arrive.resetIn = true) :
    step s = .next s.arrive.hardwareReset := by
  have hsel : selectNext s = .hardReset s.arrive := by simp [selectNext, hI, hr]
  rw [step, hsel]

end Reset

/-- Settles O13: the registers are reset, then port M responds. -/
theorem resetOperation : Obligations.ResetOperation := by
  intro s hmain
  rw [exec, execReset, accept_of_atMain hmain rfl, respond_of_idle (s := s.resetRegisters) hmain.1,
    respondM_of_idle (s := s.resetRegisters) hmain.2]
  rfl

/-- Settles O14: `step_hardwareReset`, whose state lists the registers. -/
theorem hardwareResetInput : Obligations.HardwareResetInput := fun _ => step_hardwareReset

/-! ### START (R223) -/

/-- Settles O40: with the receiver armed, `armReceiver` does nothing. -/
theorem startArmsOnce : Obligations.StartArmsOnce := by
  intro s hmain
  rw [exec, execStart, accept_of_atMain hmain rfl, armReceiver]
  by_cases harmed : s.rxArmed = false
  · rw [if_pos harmed, if_pos harmed]
    exact congrArg Host.Outcome.next ((respond_of_idle (by exact hmain.1)).trans (respondM_of_idle (by exact hmain.2)))
  · rw [if_neg harmed, if_neg harmed, respond_of_idle hmain.1, respondM_of_idle hmain.2]
    rfl

/-! ### RDCSR of an unassigned number (R227) -/

section Unassigned
variable {s : State} {a : Byte}

/-- The register map of R40 ends at 0x15 and leaves out 0x0D to 0x0F. -/
theorem csr_unassigned (ha : 0x0D ≤ a.toNat ∧ a.toNat ≤ 0x0F ∨ 0x16 ≤ a.toNat) : s.csr a = none := by
  rw [State.csr]
  split
  case h_20 => rfl
  all_goals omega

theorem csrResponse_unassigned (ha : 0x0D ≤ a.toNat ∧ a.toNat ≤ 0x0F ∨ 0x16 ≤ a.toNat) :
    csrResponse s a = [0x8D#8] := by
  rw [csrResponse, csr_unassigned ha]
  rfl

end Unassigned

/-- Settles O42: no register has the number, so both ports answer `BAD_CSR`. -/
theorem rdcsrUnassigned : Obligations.RdcsrUnassigned := by
  intro s a ha
  have hresp := csrResponse_unassigned (s := s) ha
  refine ⟨fun hint => ?_, fun hmain => ?_⟩
  · rw [exec_rdcsr_atInterrupt hint, hresp]
    rfl
  · rw [exec_rdcsr_atMain hmain, hresp, respondM_of_idle hmain.2]

/-! ### RXFAULT and TXFAULT (R229, R231) -/

section Faults
variable {s t : State}

/-- With a unit in flight TXFAULT surfaces the fault; the unit then leaves the queue as in a completion (R231). -/
theorem exec_txfault_inFlight (h : AtInterrupt s) (htip : s.tip = true)
    (ht : completeUnit ((s.flag .txfault).emit (.faultUp .tx)) = .next t) :
    exec .txfault s = .next (t.respondI [stTransportFault]) := by
  have hseqI : t.seqI = .executing := by
    rw [completeUnit_frame ht]
    exact h
  rw [exec, execTxfault, accept_of_atInterrupt h rfl, if_neg (by simp [htip]), ht, andThen_next,
    respond_of_executing hseqI]

end Faults

/-- Settles O44: an armed receiver surfaces the fault and is armed again in the one action of port I. -/
theorem rxfaultResult : Obligations.RxfaultResult := by
  intro s hint
  rw [exec, execRxfault, accept_of_atInterrupt hint rfl]
  by_cases harmed : s.rxArmed = false
  · rw [if_pos harmed, if_pos harmed]
    exact congrArg Host.Outcome.next (respond_of_executing hint)
  · rw [if_neg harmed, if_neg harmed, respond_of_executing (s := rxFault s) hint, List.append_cons s.trace]
    rfl

/-- Settles O45: with a unit in flight, `completeUnit_eq` in the state that has surfaced the fault; it says whether the
chain ends or goes on. -/
theorem txfaultResult : Obligations.TxfaultResult := by
  intro s hint hT
  by_cases htip : s.tip = false
  · rw [exec, execTxfault, accept_of_atInterrupt hint rfl, if_pos htip]
    simp only [if_pos htip]
    exact congrArg Host.Outcome.next (respond_of_executing (s := s.flag .spurious) hint)
  have hflight : s.tip = true := Bool.eq_true_of_not_eq_false htip
  have hdone := completeUnit_eq (s := (s.flag .txfault).emit (.faultUp .tx)) hT
  by_cases hend : s.txW = (s.txR + s.txUlen) % s.cfg.T
  · rw [exec_txfault_inFlight hint hflight (hdone.trans (congrArg _ (if_pos hend)))]
    simp only [if_neg htip, if_pos hend]
    rfl
  · rw [exec_txfault_inFlight hint hflight (hdone.trans (congrArg _ (if_neg hend)))]
    simp only [if_neg htip, if_neg hend]
    rw [List.append_cons s.trace]
    rfl

end Sys2Proof.Machine

namespace Sys2Proof.Machine

/-! ### A suspended operation goes on (R252, R253, R304) -/

section Resumes
variable {s t : State}

/-- With no command waiting on port I a step takes up the suspended operation where it stands (R253). -/
theorem step_resume (hI : s.seqI = .idle) (hi : s.seqM.isIdle = false) (hr : s.arrive.resetIn = false)
    (hn : commandReady s.arrive.portI = false) : step s = resumeMain s.arrive := by
  have hsel : selectNext s = .resume s.arrive := by
    simp [selectNext, hI, hr, decode_of_not_ready hn, arrive_seqM, hi]
  rw [step, hsel]

theorem Undisturbed.step_resume (hu : Undisturbed s) (hI : s.seqI = .idle) (hi : s.seqM.isIdle = false) :
    step s = resumeMain s := by
  have hstep := Machine.step_resume hI hi (by rw [hu.arrive]; exact hu.2.1) (by rw [hu.arrive]; exact hu.2.2)
  rwa [hu.arrive] at hstep

/-- A resumed operation has an action left, so its run begins with `mainAction`. -/
theorem resumeMain_of_action (hc : Consistent s) (hi : s.seqM.isIdle = false) (ht : mainAction s = .next t) :
    resumeMain s = if t.seqM.isIdle then .next t
      else if t.arrive.preempted then .next t.arrive
      else runMain (mainCost s - 1) t.arrive := by
  obtain ⟨n, hn⟩ := Nat.exists_eq_succ_of_ne_zero (mainCost_pos hc hi).ne'
  rw [resumeMain, hn, Nat.succ_eq_add_one, runMain, ht]
  rfl

end Resumes

/-- Settles O8: the step is `resumeMain`, whose first action exists (`mainAction_step`); left alone, `runMain_completes`. -/
theorem stepResumes : Obligations.StepResumes := by
  intro s ⟨hc, hI⟩ hi
  constructor
  · intro hr hn
    have hia : s.arrive.seqM.isIdle = false := by rw [arrive_seqM]; exact hi
    obtain ⟨t, ht, -⟩ := mainAction_step hc.arrive ((arrive_seqI s).trans hI) hia
    exact ⟨t, ht, (step_resume hI hi hr hn).trans (resumeMain_of_action hc.arrive hia ht)⟩
  · intro hu
    obtain ⟨t, ht, -, hframe, hM, r, hresp⟩ := runMain_completes (mainCost s) hc hI hi hu le_rfl
    exact ⟨t, r, (hu.step_resume hI hi).trans ht, hM, hresp, hframe.respI⟩

/-! ### Simultaneous events (R247)

A receive event and a transmit event read and write different registers, except that both add to `errflags`, the output
trace and the responses. So each has the same effect in any two states that agree on the registers it reads. -/

section Simultaneous
variable {s t : State} {x y : Instr}

/-- What RXBYTE and RXFAULT compute: new values of the receive side, and what is added to the error flags, the output trace
and the responses. -/
structure ReceiveEffect where
  rxStore : Memory
  rxW : Nat
  rxovfCnt : Word32
  flags : Byte
  events : List Event
  response : List Byte

/-- What TXDONE and TXFAULT compute: new values of the transmit side, and what is added to the error flags, the output trace
and the responses. -/
structure TransmitEffect where
  txR : Nat
  tip : Bool
  txUlen : Nat
  flags : Byte
  events : List Event
  response : List Byte

/-- The state after a receive event that has the effect `e`. -/
def State.received (s : State) (e : ReceiveEffect) : State :=
  { s with
    rxStore := e.rxStore, rxW := e.rxW, rxovfCnt := e.rxovfCnt, errflags := s.errflags ||| e.flags,
    trace := s.trace ++ e.events, seqI := .idle, respI := s.respI ++ [e.response] }

/-- The state after a transmit event that has the effect `e`. -/
def State.transmitted (s : State) (e : TransmitEffect) : State :=
  { s with
    txR := e.txR, tip := e.tip, txUlen := e.txUlen, errflags := s.errflags ||| e.flags,
    trace := s.trace ++ e.events, seqI := .idle, respI := s.respI ++ [e.response] }

/-- The states agree on what a receive event reads. -/
structure SameReceive (s t : State) : Prop where
  cfg : t.cfg = s.cfg
  rxStore : t.rxStore = s.rxStore
  rxW : t.rxW = s.rxW
  rxR : t.rxR = s.rxR
  rxArmed : t.rxArmed = s.rxArmed
  rxovfCnt : t.rxovfCnt = s.rxovfCnt

/-- The states agree on what a transmit event reads. -/
structure SameTransmit (s t : State) : Prop where
  cfg : t.cfg = s.cfg
  txStore : t.txStore = s.txStore
  txW : t.txW = s.txW
  txR : t.txR = s.txR
  tip : t.tip = s.tip
  txUlen : t.txUlen = s.txUlen

theorem exec_rxbyte_received (b : Byte) (hw : s.rxW < s.cfg.N) :
    ∃ e, ∀ t, SameReceive s t → AtInterrupt t → exec (.rxbyte b) t = .next (t.received e) := by
  by_cases harmed : s.rxArmed = false
  · refine ⟨⟨s.rxStore, s.rxW, s.rxovfCnt, 0x00#8, [], [stNotArmed]⟩, fun t h hint => ?_⟩
    rw [rxbyteResult t b hint (by rwa [h.rxW, h.cfg]), if_pos (h.rxArmed.trans harmed)]
    simp [State.received, stNotArmed, h.rxStore, h.rxW, h.rxovfCnt]
  by_cases hfull : incIdx s.cfg.N s.rxW = s.rxR
  · refine ⟨⟨s.rxStore, s.rxW, satInc s.rxovfCnt, 0x01#8, [.armRx], [stRxOverflow]⟩, fun t h hint => ?_⟩
    rw [rxbyteResult t b hint (by rwa [h.rxW, h.cfg]), if_neg (by rwa [h.rxArmed]),
      if_pos (by rwa [h.cfg, h.rxW, h.rxR])]
    simp [State.received, satInc, stRxOverflow, h.rxStore, h.rxW, h.rxovfCnt]
  · refine ⟨⟨s.rxStore.write s.rxW b, incIdx s.cfg.N s.rxW, s.rxovfCnt, 0x00#8, [.armRx], [stOk]⟩, fun t h hint => ?_⟩
    rw [rxbyteResult t b hint (by rwa [h.rxW, h.cfg]), if_neg (by rwa [h.rxArmed]),
      if_neg (by rwa [h.cfg, h.rxW, h.rxR])]
    simp [State.received, stOk, h.cfg, h.rxStore, h.rxW, h.rxovfCnt]

theorem exec_rxfault_received (s : State) :
    ∃ e, ∀ t, SameReceive s t → AtInterrupt t → exec .rxfault t = .next (t.received e) := by
  by_cases harmed : s.rxArmed = false
  · refine ⟨⟨s.rxStore, s.rxW, s.rxovfCnt, 0x00#8, [], [stNotArmed]⟩, fun t h hint => ?_⟩
    rw [rxfaultResult t hint, if_pos (h.rxArmed.trans harmed)]
    simp [State.received, stNotArmed, h.rxStore, h.rxW, h.rxovfCnt]
  · refine ⟨⟨s.rxStore, s.rxW, s.rxovfCnt, 0x10#8, [.faultUp .rx, .armRx], [stTransportFault]⟩, fun t h hint => ?_⟩
    rw [rxfaultResult t hint, if_neg (by rwa [h.rxArmed])]
    simp [State.received, stTransportFault, h.rxStore, h.rxW, h.rxovfCnt, h.rxArmed, harmed]

/-- A receive event has one effect in all the states that agree on what it reads (R191, R229). -/
theorem exec_received (hw : s.rxW < s.cfg.N) (hx : (∃ c, x = .rxbyte c) ∨ x = .rxfault) :
    ∃ e, ∀ t, SameReceive s t → AtInterrupt t → exec x t = .next (t.received e) := by
  rcases hx with ⟨c, rfl⟩ | rfl
  · exact exec_rxbyte_received c hw
  · exact exec_rxfault_received s

/-- The unit in flight leaves the queue in the same way in all the states that agree on the transmit side (R170, R231). -/
theorem completeUnit_transmitted (hT : 0 < s.cfg.T) :
    ∃ r tip n events, ∀ t, SameTransmit s t →
      completeUnit t = .next { t with txR := r, tip := tip, txUlen := n, trace := t.trace ++ events } := by
  by_cases hend : s.txW = addIdx s.cfg.T s.txR s.txUlen
  · refine ⟨s.released.txR, false, 0, [], fun t h => ?_⟩
    rw [completeUnit_last (by rwa [h.cfg, h.txW, h.txR, h.txUlen])]
    simp [State.released, h.cfg, h.txR, h.txUlen]
  · refine ⟨s.released.txR, true, unitLength s.released,
      [.txUnit ((ringSlots s.cfg.T s.released.txR (unitLength s.released)).map (s.slot .txs))], fun t h => ?_⟩
    rw [completeUnit_more (by rwa [h.cfg, h.txW, h.txR, h.txUlen]), issueUnit_eq (s := t.released) (h.cfg ▸ hT)]
    simp [State.released, State.emit, unitLength, State.txCount, State.slot, h.cfg, h.txStore, h.txW, h.txR, h.txUlen]

/-- A transmit event has one effect in all the states that agree on what it reads (R170, R171, R231). -/
theorem exec_transmitted (hT : 0 < s.cfg.T) (hy : y = .txdone ∨ y = .txfault) :
    ∃ e, ∀ t, SameTransmit s t → AtInterrupt t → exec y t = .next (t.transmitted e) := by
  by_cases htip : s.tip = false
  · refine ⟨⟨s.txR, s.tip, s.txUlen, 0x80#8, [], [stSpuriousDone]⟩, fun t h hint => ?_⟩
    have hspurious : t.tip = false := h.tip.trans htip
    rcases hy with rfl | rfl
    · rw [txdoneSpurious t hint hspurious]
      simp [State.transmitted, stSpuriousDone, h.txR, h.tip, h.txUlen]
    · rw [txfaultResult t hint (by rwa [h.cfg])]
      simp [State.transmitted, stSpuriousDone, h.txR, h.tip, h.txUlen, htip]
  · obtain ⟨r, tip, n, events, hdone⟩ := completeUnit_transmitted hT
    have hflight : ∀ t, SameTransmit s t → t.tip = true := fun t h => h.tip.trans (Bool.eq_true_of_not_eq_false htip)
    rcases hy with rfl | rfl
    · refine ⟨⟨r, tip, n, 0x00#8, events, [stOk]⟩, fun t h hint => ?_⟩
      rw [exec_txdone_genuine hint (hflight t h) (hdone t h)]
      simp [State.transmitted, State.respondI]
    · refine ⟨⟨r, tip, n, 0x20#8, .faultUp .tx :: events, [stTransportFault]⟩, fun t h hint => ?_⟩
      have hsame : SameTransmit s ((t.flag .txfault).emit (.faultUp .tx)) :=
        ⟨h.cfg, h.txStore, h.txW, h.txR, h.tip, h.txUlen⟩
      rw [exec_txfault_inFlight hint (hflight t h) (hdone _ hsame)]
      simp [State.transmitted, State.respondI, State.emit, State.flag, ErrFlag.mask]

/-- The two effects commute, but for the order of events and responses (R247). -/
theorem received_transmitted_comm (s : State) (e : ReceiveEffect) (f : TransmitEffect) :
    (s.transmitted f).received e =
      { (s.received e).transmitted f with
        trace := s.trace ++ f.events ++ e.events, respI := s.respI ++ [f.response] ++ [e.response] } := by
  simp [State.received, State.transmitted, BitVec.or_assoc, BitVec.or_comm e.flags]

end Simultaneous

/-- Settles O57: neither event changes what the other reads, so each has its one effect in both orders. -/
theorem simultaneousEventsCommute : Obligations.SimultaneousEventsCommute := by
  intro s a ab b ba x y hc hint hx hy ha hab hb hba
  obtain ⟨e, he⟩ := exec_received hc.rxW_lt hx
  obtain ⟨f, hf⟩ := exec_transmitted (Nat.zero_lt_of_lt hc.txR_lt) hy
  cases ha.symm.trans (he s ⟨rfl, rfl, rfl, rfl, rfl, rfl⟩ hint)
  cases hb.symm.trans (hf s ⟨rfl, rfl, rfl, rfl, rfl, rfl⟩ hint)
  cases hab.symm.trans (hf { s.received e with seqI := .executing } ⟨rfl, rfl, rfl, rfl, rfl, rfl⟩ rfl)
  cases hba.symm.trans (he { s.transmitted f with seqI := .executing } ⟨rfl, rfl, rfl, rfl, rfl, rfl⟩ rfl)
  exact ⟨received_transmitted_comm s e f, e.events, f.events, e.response, f.response, rfl, List.append_assoc .., rfl,
    List.append_assoc .., rfl, List.append_assoc .., rfl, List.append_assoc ..⟩

end Sys2Proof.Machine
